-- ==== Sys2Proof/Word.lean ====
section
/-! DEFINITION. The value types of the GOVM core (00_scope.md R2, R9): words, bytes, nibbles and the
7-bit logical opcode. Nothing else stands here. -/

namespace Sys2Proof

/-- The native value type, 16 bits, read as signed where a rule says `toS` (R2, R9). -/
abbrev Word := BitVec 16

/-- The unit of the data space and of the code bytes (R9). -/
abbrev Byte := BitVec 8

/-- The unit of instruction-stream addressing (R2, R13). -/
abbrev Nibble := BitVec 4

/-- The logical opcode assembled from one or two nibbles, 0 to 127 (30_encoding.md R83). -/
abbrev Opcode := BitVec 7

end Sys2Proof
end

