-- ==== Sys2Proof/Config.lean ====
section
/-! DEFINITION. The fixed sizes of 00_scope.md R6, the implementation parameters of R8 as a type, the
shape of a host answer, and the free values: what the spec leaves OPEN (R8) or leaves to the host
(10_state.md R34) is an opaque constant here, with no body, so that no proof can rest on a value of
it. The default of each parameter stands in Machine/Params.lean. -/

namespace Sys2Proof

/-- What a call on a host capability answers (44_syscall.md R232, R233): success, with the number
it carries where it carries one (a byte, a handle), or failure. -/
inductive HostAnswer where
  /-- The capability succeeded; `value` is the byte or the handle, and means nothing otherwise. -/
  | ok (value : Nat)
  /-- The capability reported failure. -/
  | fail
  deriving DecidableEq, Repr, Inhabited

/-! ## Implementation parameters (00_scope.md R8)

The two OPEN ones, `STACK_RESET` and `SHIFT_OOR`, are the free values below. -/

/-- `OPC`: the logical opcode of each mnemonic (30_encoding.md R89, R92). -/
structure OpcodeTable where
  (li lb lw lws sws sb sw pop dup rot rot3 add : Opcode)
  (sub mul div and or xor nor shl shr not equ loe : Opcode)
  (goe lt gt salloc jmp jz call mova movb movc movd move : Opcode)
  (movf amov bmov cmov dmov emov fmov syscall nop : Opcode)
  deriving DecidableEq, Repr

/-- `SYSNUM`: the number of each syscall, a byte (44_syscall.md R230, R231). -/
structure SyscallNumbers where
  (hlt putc getc info gets openFile closeFile fgetc fputc : Byte)
  deriving DecidableEq, Repr

/-- `STATUS`: the result integer of each outcome (60_exceptions.md R262). -/
structure StatusNumbers where
  halted : Int
  (stackUnderflow stackOverflow accessViolation stackAccessViolation jumpTargetViolation : Int)
  (codeExhausted divideByZero budgetExceeded invalidSyscall syscallStackUnderflow : Int)
  (badHeader badFormat truncatedImage invalidLayout invalidEntryPoint : Int)
  hostFault : Int
  deriving DecidableEq, Repr

/-- The parameters of R8 that have a default. They are fixed for a machine. Every rule that mentions
one reads it and is written for each of its values. -/
structure Parameters where
  /-- `OPC`. -/
  opc : OpcodeTable
  /-- `SYSNUM`. -/
  sysnum : SyscallNumbers
  /-- `STATUS`. -/
  result : StatusNumbers
  /-- `NIBBLE_LOW_FIRST_IN_LITTLE` (30_encoding.md R81). -/
  nibbleLowFirstInLittle : Bool
  /-- `LI_LOW_FIRST_IN_LITTLE` (30_encoding.md R86). -/
  liLowFirstInLittle : Bool
  /-- `LB_SIGN_EXTEND` (41_immediate_and_memory.md R142). -/
  lbSignExtend : Bool
  /-- `SHR_ARITHMETIC` (42_stack_and_alu.md R173). -/
  shrArithmetic : Bool
  /-- `ROT3_THIRD_TO_TOP` (42_stack_and_alu.md R163). -/
  rot3ThirdToTop : Bool
  /-- `STORE_VALUE_ON_TOP` (41_immediate_and_memory.md R144, R145, R147). -/
  storeValueOnTop : Bool
  /-- `JZ_COND_ON_TOP` (43_control_and_registers.md R201). -/
  jzCondOnTop : Bool
  /-- `STORE_REACHES_EXTRA` (20_memory.md R59, R60). -/
  storeReachesExtra : Bool
  /-- `ABS_ONLY_JMP` (43_control_and_registers.md R200 to R202). -/
  absOnlyJmp : Bool
  deriving DecidableEq, Repr

namespace Config

/-- `STACK_SLOTS`: capacity of the stack space in words (R6). -/
def stackSlots : Nat := 8192

/-- `BUDGET`: the instruction-count ceiling of one run, 2^20 (R6). -/
def budget : Nat := 1048576

/-- `GETS_CAP`: the largest number of bytes `GETS` copies (R6). -/
def getsCap : Nat := 90

/-- `HANDLE_LIMIT`: a file handle at or above this is rejected (R6). -/
def handleLimit : Nat := 65536

/-- The length in nibbles of the longest instruction, `LI` in format `N2I` (30_encoding.md R84). -/
def maxNibbles : Nat := 6

/-- `STACK_RESET` (R8, OPEN): what slot `i` of the stack space holds until it is written.
DESIGN CHOICE (log 1): a free value, safe. -/
opaque stackReset : Nat → Word

/-- `SHIFT_OOR` (R8, OPEN): the result of the `n`-th shift by a count outside 0 to 15.
DESIGN CHOICE (log 2): a free value, safe. -/
opaque shiftOor : Nat → Word

/-- The answer of the host to its `n`-th call where `State.hostReplies` supplies none
(93_implementation_defined.md V8: any value, from an oracle). DESIGN CHOICE (log 3): a free value,
safe. -/
opaque hostReply : Nat → HostAnswer

end Config
end Sys2Proof
end

