-- ==== Sys2Proof/Syntax.lean ====
section
/-! DEFINITION. The instructions: one constructor per row of spec/opcode_table.json, in its order
(30_encoding.md R90, R92, R96). The immediate of `LI` is the only operand field (R84); the row of
the unassigned opcodes keeps its logical opcode (R219). -/

namespace Sys2Proof

/-- The instruction set: the 45 mnemonics of R90 and the unassigned opcodes of R93. -/
inductive Instr where
  -- Immediate
  | li (imm : Word)
  -- Memory load
  | lb
  | lw
  -- Stack-memory load and store
  | lws
  | sws
  -- Memory store
  | sb
  | sw
  -- Stack manipulation
  | pop
  | dup
  | rot
  | rot3
  -- Arithmetic and logic
  | add
  | sub
  | mul
  | div
  | and
  | or
  | xor
  | nor
  | shl
  | shr
  | not
  -- Comparisons
  | equ
  | loe
  | goe
  | lt
  | gt
  -- Stack growth
  | salloc
  -- Control flow
  | jmp
  | jz
  | call
  -- Register transfer, pop into register
  | mova
  | movb
  | movc
  | movd
  | move
  | movf
  -- Register transfer, push from register
  | amov
  | bmov
  | cmov
  | dmov
  | emov
  | fmov
  -- Syscall
  | syscall
  -- No-op
  | nop
  -- Every logical opcode no mnemonic has
  | unassigned (op : Opcode)
  deriving DecidableEq, Repr

end Sys2Proof
end

