-- ==== Sys2Proof/Machine/Params.lean ====
section
/-! DEFINITION. The defaults of the implementation parameters (00_scope.md R8), which the spec takes by
decision (92_eei_decisions.md), and the opcode table read by instruction. A machine with other
values is a `State` whose field `params` holds them; no rule stands here. -/

namespace Sys2Proof

/-! ## The defaults -/

/-- The default `OPC` (30_encoding.md R92, D6): the mnemonics in the order of the source's
instruction table. DESIGN CHOICE (log 11), unsafe. -/
def Machine.defaultOpcodes : OpcodeTable where
  li := 0
  lb := 1
  lw := 2
  lws := 3
  sws := 4
  sb := 5
  sw := 6
  pop := 7
  dup := 8
  rot := 9
  rot3 := 10
  add := 11
  sub := 12
  mul := 13
  div := 14
  and := 15
  or := 16
  xor := 17
  nor := 18
  shl := 19
  shr := 20
  not := 21
  equ := 22
  loe := 23
  goe := 24
  lt := 25
  gt := 26
  salloc := 27
  jmp := 28
  jz := 29
  call := 30
  mova := 31
  movb := 32
  movc := 33
  movd := 34
  move := 35
  movf := 36
  amov := 37
  bmov := 38
  cmov := 39
  dmov := 40
  emov := 41
  fmov := 42
  syscall := 43
  nop := 44

/-- The default `SYSNUM` (44_syscall.md R231, D7); the source fixes `HLT = 0` only. DESIGN CHOICE
(log 12), unsafe. -/
def Machine.defaultSyscalls : SyscallNumbers where
  hlt := 0
  putc := 1
  getc := 2
  info := 3
  gets := 4
  openFile := 5
  closeFile := 6
  fgetc := 7
  fputc := 8

/-- The default `STATUS` (60_exceptions.md R262, D8); the source fixes the 0 and the signs. DESIGN
CHOICE (log 13), unsafe. -/
def Machine.defaultResults : StatusNumbers where
  halted := 0
  stackUnderflow := 1
  stackOverflow := 2
  accessViolation := 3
  stackAccessViolation := 4
  jumpTargetViolation := 5
  codeExhausted := 6
  divideByZero := 7
  budgetExceeded := 8
  invalidSyscall := 9
  syscallStackUnderflow := 10
  badHeader := 16
  badFormat := 17
  truncatedImage := 18
  invalidLayout := 19
  invalidEntryPoint := 20
  hostFault := -1

/-- The default of every parameter (R8). DESIGN CHOICE, the spec's, each with its decision and its
log entry: the nibble orders D1 and D2 (log 9, log 10), `LB` D15 (log 14), `SHR` D13 (log 15), `ROT3`
D14 (log 16), the operands of the stores and of `JZ` D16 (log 17), the reach of the stores D18 (log
18), all unsafe; `JZ` and `CALL` D19 (log 20), safe. -/
def Machine.defaultParameters : Parameters where
  opc := Machine.defaultOpcodes
  sysnum := Machine.defaultSyscalls
  result := Machine.defaultResults
  nibbleLowFirstInLittle := true
  liLowFirstInLittle := true
  lbSignExtend := false
  shrArithmetic := true
  rot3ThirdToTop := true
  storeValueOnTop := true
  jzCondOnTop := true
  storeReachesExtra := true
  absOnlyJmp := true

/-! ## The opcode table by instruction -/

/-- The logical opcode of an instruction under `OPC` (30_encoding.md R92); an unassigned one carries
its own (R93). -/
def opcodeOf (c : Parameters) : Instr → Opcode
  | .li _ => c.opc.li
  | .lb => c.opc.lb
  | .lw => c.opc.lw
  | .lws => c.opc.lws
  | .sws => c.opc.sws
  | .sb => c.opc.sb
  | .sw => c.opc.sw
  | .pop => c.opc.pop
  | .dup => c.opc.dup
  | .rot => c.opc.rot
  | .rot3 => c.opc.rot3
  | .add => c.opc.add
  | .sub => c.opc.sub
  | .mul => c.opc.mul
  | .div => c.opc.div
  | .and => c.opc.and
  | .or => c.opc.or
  | .xor => c.opc.xor
  | .nor => c.opc.nor
  | .shl => c.opc.shl
  | .shr => c.opc.shr
  | .not => c.opc.not
  | .equ => c.opc.equ
  | .loe => c.opc.loe
  | .goe => c.opc.goe
  | .lt => c.opc.lt
  | .gt => c.opc.gt
  | .salloc => c.opc.salloc
  | .jmp => c.opc.jmp
  | .jz => c.opc.jz
  | .call => c.opc.call
  | .mova => c.opc.mova
  | .movb => c.opc.movb
  | .movc => c.opc.movc
  | .movd => c.opc.movd
  | .move => c.opc.move
  | .movf => c.opc.movf
  | .amov => c.opc.amov
  | .bmov => c.opc.bmov
  | .cmov => c.opc.cmov
  | .dmov => c.opc.dmov
  | .emov => c.opc.emov
  | .fmov => c.opc.fmov
  | .syscall => c.opc.syscall
  | .nop => c.opc.nop
  | .unassigned op => op

/-- The mnemonics without an operand field: every mnemonic but `LI` (30_encoding.md R84). -/
def plainInstrs : List Instr :=
  [.lb, .lw, .lws, .sws, .sb, .sw, .pop, .dup, .rot, .rot3, .add, .sub, .mul, .div, .and, .or,
   .xor, .nor, .shl, .shr, .not, .equ, .loe, .goe, .lt, .gt, .salloc, .jmp, .jz, .call,
   .mova, .movb, .movc, .movd, .move, .movf, .amov, .bmov, .cmov, .dmov, .emov, .fmov,
   .syscall, .nop]

/-- Whether `OPC` gives the logical opcode to some mnemonic (30_encoding.md R93). -/
def assigned (c : Parameters) (op : Opcode) : Bool :=
  (Instr.li 0 :: plainInstrs).any (fun i => opcodeOf c i == op)

/-- The instruction a logical opcode other than `LI`'s selects (40_fetch_execute_loop.md R114): a
mnemonic where the table has one, else the unassigned opcode itself (30_encoding.md R93). -/
def plainOfOpcode (c : Parameters) (op : Opcode) : Instr :=
  (plainInstrs.find? (fun i => opcodeOf c i == op)).getD (.unassigned op)

end Sys2Proof
end

