-- ==== Sys2Proof/Machine/State.lean ====
section
/-! DEFINITION. The state of the GOVM core as plain data: everything 10_state.md gives the machine,
and four fields of the model's own (marked so). Also the fault causes, the run status, the calls
on the host, and the two closed types a step can stop with. -/

namespace Sys2Proof.Machine

/-! ## Causes, status, host calls -/

/-- The causes of the faults the core raises (60_exceptions.md R260). -/
inductive Cause where
  | stackUnderflow
  | stackOverflow
  | accessViolation
  | stackAccessViolation
  | jumpTargetViolation
  | codeExhausted
  | divideByZero
  | budgetExceeded
  | invalidSyscall
  | syscallStackUnderflow
  deriving DecidableEq, Repr

/-- The outcome of the run so far (10_state.md R28, R29). -/
inductive Status where
  /-- From reset until the run ends. -/
  | running
  /-- Ended by the `HLT` syscall (44_syscall.md R236). -/
  | halted
  /-- Ended by `raise c` (40_fetch_execute_loop.md R121). -/
  | fault (c : Cause)
  /-- Ended by a host capability that reported failure (44_syscall.md R235). -/
  | hostFault
  deriving DecidableEq, Repr

/-- A call the dispatcher makes on a host capability (44_syscall.md R232 to R234). -/
inductive HostCall where
  | emitByte (b : Byte)
  | requestByte
  | dump
  | openFile (path : List Byte) (mode : Word)
  | closeFile (handle : Word)
  | read1 (handle : Word)
  | write1 (handle : Word) (b : Byte)
  deriving DecidableEq, Repr

/-- Why the model takes no step. The core's own faults are states, not this: `raise` answers a next
state whose `status` says the cause (60_exceptions.md R268). -/
inductive Fault where
  /-- Raised by `step` alone, when `status` is not `running`: once the run has ended the engine takes
  no further step and no state changes (10_state.md R29; 93_implementation_defined.md V5). Safe. -/
  | runEnded
  deriving DecidableEq, Repr

/-- What the model gives no meaning. -/
inductive Refusal where
  /-- Raised by `exec`'s arm of an instruction that has no meaning yet. No arm does: every row of
  the opcode table has its meaning. Safe. -/
  | notModelled (mnemonic : String)
  deriving DecidableEq, Repr

/-! ## Memories -/

/-- A byte space held sparsely: an unlisted offset reads as 0 (10_state.md R32, R37 for the data
space). -/
abbrev Memory := List Host.Cell

/-- The stack space held sparsely by slot: the listed slots are those written since reset; an
unlisted slot `i` holds `Config.stackReset i` (10_state.md R27, R37). -/
abbrev StackSpace := List (Nat × Word)

/-- The canonical form of a byte space: offsets strictly rising, and no entry equal to the 0 that an
unlisted offset reads as. -/
abbrev Memory.wf (m : Memory) : Prop :=
  m.Pairwise (fun x y => x.1 < y.1) ∧ ∀ c ∈ m, c.2 ≠ 0

/-- The canonical form of the stack space: slots strictly rising. An unlisted slot has no written
word, so no entry equals what it stands for. -/
abbrev StackSpace.wf (m : StackSpace) : Prop := m.Pairwise (fun x y => x.1 < y.1)

/-! ## The state -/

/-- The state of the core. -/
structure State where
  /-- Register 0, A (R20). -/
  aft : Word
  /-- Register 1, B (R20). -/
  bur : Word
  /-- Register 2, C (R20). -/
  con : Word
  /-- Register 3, D (R20). -/
  dis : Word
  /-- Register 4, E: the stack pointer, the number of live words (R20, R22). -/
  sp : Word
  /-- Register 5, F: the base pointer, with no implicit use (R20, R21). -/
  bp : Word
  /-- The program counter, a nibble index with no wrap-around (R24, R25). -/
  pc : Nat
  /-- The did-jump flag (R26). -/
  jf : Bool
  /-- The endianness mode: false little, true big (R28). -/
  big : Bool
  /-- Bytes in the code segment (R28). -/
  csSize : Word
  /-- Bytes in the declared data segment (R28). -/
  dsSize : Word
  /-- Bytes in the host-extra region (R28). -/
  extraLen : Nat
  /-- The run's outcome (R28, R29). -/
  status : Status
  /-- The number of steps begun in this run (R30). -/
  icount : Nat
  /-- The code space `C` (R31). -/
  code : Memory
  /-- The data space `D` (R32). -/
  data : Memory
  /-- The stack space `S` (R27). -/
  stack : StackSpace
  /-- `S_GETS`, the buffer only the `GETS` syscall reads (00_scope.md R7, R34). -/
  sGets : List Byte
  /-- The MODEL's own: the implementation parameters (00_scope.md R8), which no step changes; held
  here so that what is said of every state is said of every value of them (log 46). -/
  params : Parameters
  /-- The MODEL's own: how many unspecified shift results have been produced (log 2). -/
  freeIdx : Nat
  /-- The MODEL's own: the calls made on the host so far, oldest first (log 4). -/
  hostLog : List HostCall
  /-- The MODEL's own: the answers the host gives to the coming calls, first one first (log 4). -/
  hostReplies : List HostAnswer
  deriving DecidableEq, Repr

/-- The machine right after reset: the values of 10_state.md R37, with no image loaded. What R37
takes from the image (`pc`, `big`, the sizes, the code and data bytes) is zero or empty here
(DESIGN CHOICE, log 5); `loadImage` (Machine/Loader.lean) gives the start state of an image. The
parameters have their defaults. -/
def State.reset : State where
  aft := 0
  bur := 0
  con := 0
  dis := 0
  sp := 0
  bp := 0
  pc := 0
  jf := false
  big := false
  csSize := 0
  dsSize := 0
  extraLen := 0
  status := .running
  icount := 0
  code := []
  data := []
  stack := []
  sGets := []
  params := defaultParameters
  freeIdx := 0
  hostLog := []
  hostReplies := []

end Sys2Proof.Machine
end

