-- ==== Sys2Proof/Machine/Ops.lean ====
section
/-! DEFINITION. The named operations over registers, memories and the host, the one operation that
takes a fault, and the frame of a step around `Execute`. Every instruction's meaning is built from
these, from Flags.lean and from Operands.lean. -/

namespace Sys2Proof.Machine

/-- What executing an instruction answers. -/
abbrev Result := Host.Outcome State Fault Refusal

/-! ## Numbers (00_scope.md R9) -/

/-- `toS(w)`: the signed reading of a word. -/
abbrev toS (w : Word) : Int := w.toInt

/-- `wrap16(z)`: the word congruent to `z` modulo 65536. -/
abbrev wrap16 (z : Int) : Word := BitVec.ofInt 16 z

/-- `zext_8(b)`: the byte zero-extended to a word. -/
abbrev zext8 (b : Byte) : Word := b.setWidth 16

/-- `sext_8(b)`: the byte sign-extended to a word. -/
abbrev sext8 (b : Byte) : Word := b.signExtend 16

/-- `v[7:0]`. -/
abbrev lowByte (v : Word) : Byte := v.extractLsb' 0 8

/-- `v[15:8]`. -/
abbrev highByte (v : Word) : Byte := v.extractLsb' 8 8

/-! ## Sparse storage -/

/-- The value listed at `a`, if any. -/
def lookupCell {α : Type} : List (Nat × α) → Nat → Option α
  | [], _ => none
  | (k, v) :: m, a => if a = k then some v else lookupCell m a

/-- Lists `v` at `a`, in place of what is listed there, keeping the addresses rising. -/
def insertCell {α : Type} : List (Nat × α) → Nat → α → List (Nat × α)
  | [], a, v => [(a, v)]
  | (k, u) :: m, a, v =>
    if a < k then (a, v) :: (k, u) :: m
    else if a = k then (a, v) :: m
    else (k, u) :: insertCell m a v

/-- Unlists `a`. -/
def eraseCell {α : Type} (m : List (Nat × α)) (a : Nat) : List (Nat × α) :=
  m.filter (fun c => c.1 != a)

/-- One byte of a byte space; an unlisted offset reads as 0. -/
def Memory.read (m : Memory) (a : Nat) : Byte := (lookupCell m a).getD 0

/-- Stores one byte; storing 0 removes the entry, so the canonical form is kept. -/
def Memory.write (m : Memory) (a : Nat) (b : Byte) : Memory :=
  if b = 0 then eraseCell m a else insertCell m a b

/-- The byte space that holds `bs` from offset `base` on, and zero elsewhere. -/
def Memory.ofBytes : Nat → List Byte → Memory
  | _, [] => []
  | base, b :: bs =>
    if b = 0 then Memory.ofBytes (base + 1) bs else (base, b) :: Memory.ofBytes (base + 1) bs

/-! ## The data space (20_memory.md R53, R55, R56) -/

/-- `D[a]`. -/
def State.dataByte (s : State) (a : Nat) : Byte := Memory.read s.data a

/-- `MemRead(a, 1)` (R55). -/
def State.memRead1 (s : State) (a : Nat) : Byte := s.dataByte a

/-- `MemRead(a, 2)` in the mode's byte order (R53). Little as least significant first: PRESUMED
(log 40). -/
def State.memRead2 (s : State) (a : Nat) : Word :=
  if s.big then s.dataByte a ++ s.dataByte (a + 1) else s.dataByte (a + 1) ++ s.dataByte a

/-- `MemWrite(a, 1, v)`: the upper byte of `v` is dropped (R56). -/
def State.memWrite1 (s : State) (a : Nat) (v : Word) : State :=
  { s with data := Memory.write s.data a (lowByte v) }

/-- `MemWrite(a, 2, v)` in the mode's byte order (R56). -/
def State.memWrite2 (s : State) (a : Nat) (v : Word) : State :=
  if s.big then
    { s with data := Memory.write (Memory.write s.data a (highByte v)) (a + 1) (lowByte v) }
  else
    { s with data := Memory.write (Memory.write s.data a (lowByte v)) (a + 1) (highByte v) }

/-- The offset of an access of `n` bytes at the address word `w`, read as signed, when the whole
access lies below `limit` (20_memory.md R51, R57 to R60). -/
def accessAt (w : Word) (n limit : Nat) : Option Nat :=
  if 0 ≤ toS w ∧ (toS w).toNat + n ≤ limit then some (toS w).toNat else none

/-- The bound of `LB` (R57). -/
def State.byteLoadLimit (s : State) : Nat := s.dsSize.toNat + s.extraLen

/-- The bound of `LW`: the host-extra region does not extend it (R58; 90_conflicts.md C1). -/
def State.wordLoadLimit (s : State) : Nat := s.dsSize.toNat

/-- The bound of `SB` and `SW` (R59, R60). -/
def State.storeLimit (s : State) : Nat :=
  if s.params.storeReachesExtra then s.dsSize.toNat + s.extraLen else s.dsSize.toNat

/-! ## The stack space (10_state.md R22, R27) -/

/-- `S[i]`. A slot nothing has written holds the free value `Config.stackReset i`. -/
def State.slot (s : State) (i : Nat) : Word := (lookupCell s.stack i).getD (Config.stackReset i)

/-- `S[i] <- v`. -/
def State.setSlot (s : State) (i : Nat) (v : Word) : State :=
  { s with stack := insertCell s.stack i v }

/-- `sp` read as a number (R22). -/
def State.depth (s : State) : Nat := s.sp.toNat

/-- `sp <- n`. -/
def State.setDepth (s : State) (n : Nat) : State := { s with sp := BitVec.ofNat 16 n }

/-- The slot of a stack-memory access at the index word `w`, read as signed (20_memory.md R51,
R61). -/
def stackIndex (w : Word) : Option Nat :=
  if 0 ≤ toS w ∧ (toS w).toNat < Config.stackSlots then some (toS w).toNat else none

/-! ## The register file (10_state.md R20) -/

/-- The six registers. -/
inductive Reg where
  | aft | bur | con | dis | sp | bp
  deriving DecidableEq, Repr

/-- The index of a register, its offset in each register-transfer class (R20, R220, D29). -/
def Reg.index : Reg → Nat
  | .aft => 0 | .bur => 1 | .con => 2 | .dis => 3 | .sp => 4 | .bp => 5

/-- `x[i]`. -/
def State.readReg (s : State) : Reg → Word
  | .aft => s.aft | .bur => s.bur | .con => s.con | .dis => s.dis | .sp => s.sp | .bp => s.bp

/-- `x[i] <- v`. -/
def State.writeReg (s : State) (r : Reg) (v : Word) : State :=
  match r with
  | .aft => { s with aft := v }
  | .bur => { s with bur := v }
  | .con => { s with con := v }
  | .dis => { s with dis := v }
  | .sp => { s with sp := v }
  | .bp => { s with bp := v }

/-! ## Ending the run

There is no handler, no saved register, no vector and no return (60_exceptions.md R268, R270), so
taking an exception is this one operation and nothing stands beside it. -/

/-- `raise c` (40_fetch_execute_loop.md R121; 60_exceptions.md R268): the run ends with the cause in
`status` and nothing else changes. The step it happens in also undoes what the step itself did
before (`finishStep`, 00_scope.md R11). -/
def raise (c : Cause) (s : State) : Result := .next { s with status := .fault c }

/-- `HostFail` (44_syscall.md R235). -/
def hostFail (s : State) : Result := .next { s with status := .hostFault }

/-- `status <- Halted` (44_syscall.md R236). -/
def halt (s : State) : Result := .next { s with status := .halted }

/-! ## Calls on the host (10_state.md R34; 44_syscall.md R232 to R234) -/

/-- What the host answers to the next call: the next supplied answer, or a free value. -/
def State.hostAnswer (s : State) : HostAnswer :=
  match s.hostReplies with
  | r :: _ => r
  | [] => Config.hostReply s.hostLog.length

/-- The state after the call `c`, which took one answer. -/
def State.afterCall (s : State) (c : HostCall) : State :=
  { s with hostLog := s.hostLog ++ [c], hostReplies := s.hostReplies.tail }

/-- The state after a call that has no answer: the diagnostic dump (R234). -/
def State.afterDump (s : State) : State := { s with hostLog := s.hostLog ++ [.dump] }

/-- Whether the host reports success. -/
def answeredOk : HostAnswer → Bool
  | .ok _ => true
  | .fail => false

/-- The one byte the host answers; an answer that is not exactly one byte counts as failure
(R232, R233). -/
def answeredByte : HostAnswer → Option Byte
  | .ok v => if v < 256 then some (BitVec.ofNat 8 v) else none
  | .fail => none

/-- The handle the host answers, unless it is rejected as too large (R233, R241). -/
def answeredHandle : HostAnswer → Option Nat
  | .ok h => if h < Config.handleLimit then some h else none
  | .fail => none

/-! ## The step around `Execute` (40_fetch_execute_loop.md R112, R115) -/

/-- The state `Execute` runs in: the step is counted, `pc` is the index of the instruction's last
nibble, and the jump flag is clear (R24, R112, R113). -/
def State.beginStep (s : State) (last : Nat) : State :=
  { s with icount := s.icount + 1, pc := last, jf := false }

/-- The end of a step that began in `s` and whose `Execute` left `t`. A run that goes on advances
`pc` by one nibble unless the instruction jumped (R115). A run that has halted keeps what `Execute`
left. A fault or a host failure undoes the step but for `status` and what the host was asked
(00_scope.md R11; 44_syscall.md R235; 60_exceptions.md R269). For a host failure R235 undoes the
stack and memory changes and says nothing of `icount` and `jf`: that they too are as before the step,
as after a fault, is a DESIGN CHOICE of the model (log 45), unsafe. -/
def finishStep (s t : State) : State :=
  match t.status with
  | .running => if t.jf then t else { t with pc := t.pc + 1 }
  | .halted => t
  | .fault _ | .hostFault =>
    { s with status := t.status, hostLog := t.hostLog, hostReplies := t.hostReplies }

end Sys2Proof.Machine
end

