-- ==== Sys2Proof/Machine/Flags.lean ====
section
/-! DEFINITION. There are no condition codes (10_state.md R23): a comparison leaves a word 0 or 1 on
the stack, and the one flag is the did-jump flag (R26). The result computations of the arithmetic
and logic instructions stand here, on exact integers narrowed at the end (42_stack_and_alu.md
R180). -/

namespace Sys2Proof.Machine

/-- The word a comparison pushes (42_stack_and_alu.md R184). -/
def boolWord (b : Bool) : Word := if b then 1 else 0

/-- A taken control transfer: `pc <- t; jf <- 1` (43_control_and_registers.md R200 to R202). -/
def State.jumpTo (s : State) (t : Nat) : State := { s with pc := t, jf := true }

/-- Whether the integer `t` is a valid jump target (43_control_and_registers.md R203). -/
def State.validTarget (s : State) (t : Int) : Bool :=
  decide (0 ≤ t ∧ t.toNat / 2 < s.csSize.toNat)

/-- The target of `JMP`: the absolute value, taken in integers wider than a word (R200, D19). -/
def absTarget (w : Word) : Int := (toS w).natAbs

/-- The target of `JZ` and `CALL`: the word as it is, unless the parameter makes them take the
absolute value too (R201, R202, `ABS_ONLY_JMP`). -/
def State.plainTarget (s : State) (w : Word) : Int :=
  if s.params.absOnlyJmp then toS w else absTarget w

/-! ## Results (42_stack_and_alu.md R164 to R179) -/

/-- R164. -/
def addWords (a b : Word) : Word := wrap16 (toS a + toS b)

/-- R165. -/
def subWords (a b : Word) : Word := wrap16 (toS a - toS b)

/-- R166. -/
def mulWords (a b : Word) : Word := wrap16 (toS a * toS b)

/-- R167 for a divisor other than zero: the quotient rounded toward zero; -32768 / -1 wraps. -/
def divWords (a b : Word) : Word := wrap16 ((toS a).tdiv (toS b))

/-- R171: the complement of the bitwise or. PRESUMED (log 40). -/
def norWords (a b : Word) : Word := ~~~(a ||| b)

/-- Whether a shift count is in 0 to 15 (R172, R173). -/
def shiftInRange (n : Word) : Bool := decide (0 ≤ toS n ∧ toS n ≤ 15)

/-- R172 for a count in range. -/
def shlWords (a n : Word) : Word := wrap16 (toS a * 2 ^ (toS n).toNat)

/-- R173 for a count in range: the signed value divided by a power of two and floored when the shift
is arithmetic (`SHR_ARITHMETIC`), else zeros shifted in. -/
def shrWords (arithmetic : Bool) (a n : Word) : Word :=
  if arithmetic then wrap16 ((toS a).fdiv (2 ^ (toS n).toNat)) else a >>> (toS n).toNat

/-- R174: logical negation. -/
def notWord (a : Word) : Word := boolWord (a == 0)

/-- R175. -/
def equWords (a b : Word) : Word := boolWord (a == b)

/-- R176. -/
def loeWords (a b : Word) : Word := boolWord (decide (toS a ≤ toS b))

/-- R177. -/
def goeWords (a b : Word) : Word := boolWord (decide (toS b ≤ toS a))

/-- R178. -/
def ltWords (a b : Word) : Word := boolWord (decide (toS a < toS b))

/-- R179. -/
def gtWords (a b : Word) : Word := boolWord (decide (toS b < toS a))

end Sys2Proof.Machine
end

