-- ==== Sys2Proof/Machine/Operands.lean ====
section
/-! DEFINITION. Operands come from the evaluation stack: the stack primitives of
40_fetch_execute_loop.md R116 to R120 and the shapes several instructions share. -/

namespace Sys2Proof.Machine

/-! ## Primitives -/

/-- `Top(i)`: the word `i` below the top (R118). -/
def State.top (s : State) (i : Nat) : Word := s.slot (s.depth - 1 - i)

/-- `Top(i) <- v` (R118). -/
def State.setTop (s : State) (i : Nat) (v : Word) : State := s.setSlot (s.depth - 1 - i) v

/-- `sp <- sp - k`: the slots keep their words (10_state.md R27). -/
def State.drop (s : State) (k : Nat) : State := s.setDepth (s.depth - k)

/-- `S[sp] <- v; sp <- sp + 1` (R119), the room being there. -/
def State.pushed (s : State) (v : Word) : State := (s.setSlot s.depth v).setDepth (s.depth + 1)

/-- `Need(k)`, then `go` (R116). -/
def need (k : Nat) (s : State) (go : Result) : Result :=
  if s.depth < k then raise .stackUnderflow s else go

/-- The dispatcher's own operand check, then `go` (44_syscall.md R246). -/
def needSyscall (k : Nat) (s : State) (go : Result) : Result :=
  if s.depth < k then raise .syscallStackUnderflow s else go

/-- `Room(k)`, then `go` (R117). -/
def room (k : Nat) (s : State) (go : Result) : Result :=
  if Config.stackSlots < s.depth + k then raise .stackOverflow s else go

/-- `Push(v)` (R119). -/
def push (v : Word) (s : State) : Result := room 1 s (.next (s.pushed v))

/-! ## Shapes -/

/-- `( a -- f(a) )`: one word replaced in place. -/
def unary (f : Word → Word) (s : State) : Result := need 1 s (.next (s.setTop 0 (f (s.top 0))))

/-- The two operands of a binary instruction replaced by `r`: `sp <- sp - 1; Top(0) <- r`
(42_stack_and_alu.md R183). The vacated slot keeps the right operand. -/
def State.replacePair (s : State) (r : Word) : State := (s.drop 1).setTop 0 r

/-- `Binary(f)` with `a = Top(1)` on the left and `b = Top(0)` on the right (R182, R183). -/
def binary (f : Word → Word → Word) (s : State) : Result :=
  need 2 s (.next (s.replacePair (f (s.top 1) (s.top 0))))

/-- A binary shift: `f` for a count in 0 to 15; otherwise the result is the next unspecified word and
the instruction completes all the same (R172, R173). -/
def shiftBy (f : Word → Word → Word) (s : State) : Result :=
  need 2 s
    (if shiftInRange (s.top 0) then .next (s.replacePair (f (s.top 1) (s.top 0)))
     else .next { s.replacePair (Config.shiftOor s.freeIdx) with freeIdx := s.freeIdx + 1 })

/-- The value operand of `SB`, `SW` and `SWS` (41_immediate_and_memory.md R144, R145, R147,
`STORE_VALUE_ON_TOP`). -/
def State.storeValue (s : State) : Word := if s.params.storeValueOnTop then s.top 0 else s.top 1

/-- The address or index operand of `SB`, `SW` and `SWS`. -/
def State.storeAddr (s : State) : Word := if s.params.storeValueOnTop then s.top 1 else s.top 0

/-- The condition operand of `JZ` (43_control_and_registers.md R201, `JZ_COND_ON_TOP`). -/
def State.jzCond (s : State) : Word := if s.params.jzCondOnTop then s.top 0 else s.top 1

/-- The target operand of `JZ`. -/
def State.jzTarget (s : State) : Word := if s.params.jzCondOnTop then s.top 1 else s.top 0

/-- Pop into a register other than `sp` (43_control_and_registers.md R220). -/
def popInto (r : Reg) (s : State) : Result := need 1 s (.next ((s.writeReg r (s.top 0)).drop 1))

/-- Push from a register: the value is read before the push changes anything (R216, R220). -/
def pushFrom (r : Reg) (s : State) : Result := push (s.readReg r) s

/-- Writes `k` zero words from slot `i` up (42_stack_and_alu.md R181). -/
def State.zeroSlots (s : State) (i : Nat) : Nat → State
  | 0 => s
  | k + 1 => (s.setSlot i 0).zeroSlots (i + 1) k

/-- Writes bytes, each zero-extended, one to a slot, from slot `d` down (44_syscall.md R240). -/
def State.copyDown (s : State) (d : Nat) : List Byte → State
  | [] => s
  | b :: bs => (s.setSlot d (zext8 b)).copyDown (d - 1) bs

end Sys2Proof.Machine
end

