-- ==== Sys2Proof/Machine/Arith.lean ====
section
/-! DEFINITION. Arithmetic and logic (42_stack_and_alu.md R164 to R174): `a = Top(1)` on the left,
`b = Top(0)` on the right (R182). -/

namespace Sys2Proof.Machine

/-- `ADD` (R164). -/
def execAdd (s : State) : Result := binary addWords s

/-- `SUB` (R165). -/
def execSub (s : State) : Result := binary subWords s

/-- `MUL` (R166). -/
def execMul (s : State) : Result := binary mulWords s

/-- `DIV` (R167): a zero divisor is a fault that leaves both operands. -/
def execDiv (s : State) : Result :=
  need 2 s <| if s.top 0 = 0 then raise .divideByZero s else binary divWords s

/-- `AND` (R168), bit by bit. PRESUMED (log 40). -/
def execAnd (s : State) : Result := binary (fun a b => a &&& b) s

/-- `OR` (R169), bit by bit. PRESUMED (log 40). -/
def execOr (s : State) : Result := binary (fun a b => a ||| b) s

/-- `XOR` (R170), bit by bit. PRESUMED (log 40). -/
def execXor (s : State) : Result := binary (fun a b => a ^^^ b) s

/-- `NOR` (R171). -/
def execNor (s : State) : Result := binary norWords s

/-- `SHL` (R172). -/
def execShl (s : State) : Result := shiftBy shlWords s

/-- `SHR` (R173). -/
def execShr (s : State) : Result := shiftBy (shrWords s.params.shrArithmetic) s

/-- `NOT` (R174). -/
def execNot (s : State) : Result := unary notWord s

end Sys2Proof.Machine
end

