-- ==== Sys2Proof/Machine/Compare.lean ====
section
/-! DEFINITION. Comparisons (42_stack_and_alu.md R175 to R179, R184). -/

namespace Sys2Proof.Machine

/-- `EQU` (R175). -/
def execEqu (s : State) : Result := binary equWords s

/-- `LOE` (R176). -/
def execLoe (s : State) : Result := binary loeWords s

/-- `GOE` (R177). -/
def execGoe (s : State) : Result := binary goeWords s

/-- `LT` (R178). -/
def execLt (s : State) : Result := binary ltWords s

/-- `GT` (R179). -/
def execGt (s : State) : Result := binary gtWords s

end Sys2Proof.Machine
end

