-- ==== Sys2Proof/Machine/Control.lean ====
section
/-! DEFINITION. Control transfer, no-operation and the unassigned opcodes
(43_control_and_registers.md R200 to R204, R218, R219). `pc` is the index of the instruction's last
nibble while these run (10_state.md R24). -/

namespace Sys2Proof.Machine

/-- `JMP` (R200). -/
def execJmp (s : State) : Result :=
  need 1 s <|
    if s.validTarget (absTarget (s.top 0)) then
      .next ((s.drop 1).jumpTo (absTarget (s.top 0)).toNat)
    else raise .jumpTargetViolation s

/-- `JZ` (R201): both operands go either way; the target is validated only when the jump is taken. -/
def execJz (s : State) : Result :=
  need 2 s <|
    if s.jzCond = 0 then
      if s.validTarget (s.plainTarget s.jzTarget) then
        .next ((s.drop 2).jumpTo (s.plainTarget s.jzTarget).toNat)
      else raise .jumpTargetViolation s
    else .next (s.drop 2)

/-- `CALL` (R202): the target is replaced by the return address `pc + 1` as a word. -/
def execCall (s : State) : Result :=
  need 1 s <|
    if s.validTarget (s.plainTarget (s.top 0)) then
      .next ((s.setTop 0 (wrap16 (s.pc + 1))).jumpTo (s.plainTarget (s.top 0)).toNat)
    else raise .jumpTargetViolation s

/-- `NOP` (R218). -/
def execNop (s : State) : Result := .next s

/-- An unassigned opcode (R219): its effect is that of `NOP`, whatever its number. -/
def execUnassigned (_op : Opcode) (s : State) : Result := .next s

end Sys2Proof.Machine
end

