-- ==== Sys2Proof/Machine/LoadStore.lean ====
section
/-! DEFINITION. Immediate load, data-memory and stack-memory instructions
(41_immediate_and_memory.md). -/

namespace Sys2Proof.Machine

/-- `LI imm` (R140). The four immediate nibbles have been fetched with the instruction, so running
out of code there comes before the overflow checked here (40_fetch_execute_loop.md R122). -/
def execLi (imm : Word) (s : State) : Result := push imm s

/-- `LB` (R142). -/
def execLb (s : State) : Result :=
  need 1 s <|
    match accessAt (s.top 0) 1 s.byteLoadLimit with
    | none => raise .accessViolation s
    | some a =>
      .next (s.setTop 0
        (if s.params.lbSignExtend then sext8 (s.memRead1 a) else zext8 (s.memRead1 a)))

/-- `LW` (R143). -/
def execLw (s : State) : Result :=
  need 1 s <|
    match accessAt (s.top 0) 2 s.wordLoadLimit with
    | none => raise .accessViolation s
    | some a => .next (s.setTop 0 (s.memRead2 a))

/-- `SB` (R144). -/
def execSb (s : State) : Result :=
  need 2 s <|
    match accessAt s.storeAddr 1 s.storeLimit with
    | none => raise .accessViolation s
    | some a => .next ((s.memWrite1 a s.storeValue).drop 2)

/-- `SW` (R145). -/
def execSw (s : State) : Result :=
  need 2 s <|
    match accessAt s.storeAddr 2 s.storeLimit with
    | none => raise .accessViolation s
    | some a => .next ((s.memWrite2 a s.storeValue).drop 2)

/-- `LWS` (R146). -/
def execLws (s : State) : Result :=
  need 1 s <|
    match stackIndex (s.top 0) with
    | none => raise .stackAccessViolation s
    | some i => .next (s.setTop 0 (s.slot i))

/-- `SWS` (R147): the slot is written after the operands are removed. -/
def execSws (s : State) : Result :=
  need 2 s <|
    match stackIndex s.storeAddr with
    | none => raise .stackAccessViolation s
    | some i => .next ((s.drop 2).setSlot i s.storeValue)

end Sys2Proof.Machine
end

