-- ==== Sys2Proof/Machine/RegMove.lean ====
section
/-! DEFINITION. Register transfer (43_control_and_registers.md R206 to R217, R220). -/

namespace Sys2Proof.Machine

/-- `MOVA` (R206). -/
def execMova (s : State) : Result := popInto .aft s

/-- `MOVB` (R207). -/
def execMovb (s : State) : Result := popInto .bur s

/-- `MOVC` (R208). -/
def execMovc (s : State) : Result := popInto .con s

/-- `MOVD` (R209). -/
def execMovd (s : State) : Result := popInto .dis s

/-- `MOVE` (R210): the word popped replaces `sp`; a word outside 0 to 8192 faults with the cause that
names the side it is out on. -/
def execMove (s : State) : Result :=
  need 1 s <|
    if toS (s.top 0) < 0 then raise .stackUnderflow s
    else if Config.stackSlots < (toS (s.top 0)).toNat then raise .stackOverflow s
    else .next (s.writeReg .sp (s.top 0))

/-- `MOVF` (R211). -/
def execMovf (s : State) : Result := popInto .bp s

/-- `AMOV` (R212). -/
def execAmov (s : State) : Result := pushFrom .aft s

/-- `BMOV` (R213). -/
def execBmov (s : State) : Result := pushFrom .bur s

/-- `CMOV` (R214). -/
def execCmov (s : State) : Result := pushFrom .con s

/-- `DMOV` (R215). -/
def execDmov (s : State) : Result := pushFrom .dis s

/-- `EMOV` (R216): pushes the depth before the push. -/
def execEmov (s : State) : Result := pushFrom .sp s

/-- `FMOV` (R217). -/
def execFmov (s : State) : Result := pushFrom .bp s

end Sys2Proof.Machine
end

