-- ==== Sys2Proof/Machine/StackMove.lean ====
section
/-! DEFINITION. Stack manipulation and stack growth (42_stack_and_alu.md R160 to R163, R181). -/

namespace Sys2Proof.Machine

/-- `POP` (R160). -/
def execPop (s : State) : Result := need 1 s (.next (s.drop 1))

/-- `DUP` (R161): underflow is checked before overflow. -/
def execDup (s : State) : Result := need 1 s (push (s.top 0) s)

/-- `ROT` (R162): `( a b -- b a )`. -/
def execRot (s : State) : Result := need 2 s (.next ((s.setTop 1 (s.top 0)).setTop 0 (s.top 1)))

/-- `ROT3` (R163): `( a b c -- b c a )`, or the other direction under the parameter's other value. -/
def execRot3 (s : State) : Result :=
  need 3 s <|
    if s.params.rot3ThirdToTop then
      .next (((s.setTop 2 (s.top 1)).setTop 1 (s.top 0)).setTop 0 (s.top 2))
    else .next (((s.setTop 2 (s.top 0)).setTop 1 (s.top 2)).setTop 0 (s.top 1))

/-- `SALLOC` (R181): the count is replaced by `n + 1` zero words. -/
def execSalloc (s : State) : Result :=
  need 1 s <|
    if toS (s.top 0) < -1 then raise .stackUnderflow s
    else
      let count := (toS (s.top 0) + 1).toNat
      if Config.stackSlots < s.depth - 1 + count then raise .stackOverflow s
      else .next ((s.zeroSlots (s.depth - 1) count).setDepth (s.depth - 1 + count))

end Sys2Proof.Machine
end

