-- ==== Sys2Proof/Machine/Syscall.lean ====
section
/-! DEFINITION. The `SYSCALL` instruction and the nine services of the dispatcher (44_syscall.md).
`SYSCALL` does not pop the word that carries the code, so it is on top when a service runs. -/

namespace Sys2Proof.Machine

/-- The syscalls (R231). -/
inductive Service where
  | hlt | putc | getc | info | gets | openFile | closeFile | fgetc | fputc
  deriving DecidableEq, Repr

/-- The services, in the order of R231. -/
def services : List Service :=
  [.hlt, .putc, .getc, .info, .gets, .openFile, .closeFile, .fgetc, .fputc]

/-- The number of a syscall under `SYSNUM` (R231). -/
def serviceNumber (t : SyscallNumbers) : Service → Byte
  | .hlt => t.hlt
  | .putc => t.putc
  | .getc => t.getc
  | .info => t.info
  | .gets => t.gets
  | .openFile => t.openFile
  | .closeFile => t.closeFile
  | .fgetc => t.fgetc
  | .fputc => t.fputc

/-- The syscall a code selects under `SYSNUM`, if any (R231, R245). -/
def serviceOfCode (t : SyscallNumbers) (code : Byte) : Option Service :=
  services.find? (fun v => serviceNumber t v == code)

/-- `HLT` (R236). -/
def serveHlt (s : State) : Result := halt s

/-- `PUTC` (R237). -/
def servePutc (s : State) : Result :=
  needSyscall 2 s <|
    let t := s.afterCall (.emitByte (lowByte (s.top 1)))
    if answeredOk s.hostAnswer then .next t else hostFail t

/-- `GETC` (R238): the host is asked before the room is checked (D33). -/
def serveGetc (s : State) : Result :=
  let t := s.afterCall .requestByte
  match answeredByte s.hostAnswer with
  | some b => push (zext8 b) t
  | none => hostFail t

/-- `INFO` (R239). -/
def serveInfo (s : State) : Result := .next s.afterDump

/-- The bytes `GETS` copies (R240). -/
def State.getsBytes (s : State) : List Byte := s.sGets.take Config.getsCap

/-- `GETS` (R240, D24). -/
def serveGets (s : State) : Result :=
  needSyscall 2 s <|
    match stackIndex (s.top 1) with
    | none => raise .stackOverflow s
    | some d =>
      if d + 1 < s.getsBytes.length then raise .stackOverflow s
      else .next ((s.drop 2).copyDown d s.getsBytes)

/-- The bytes from `p` to the first zero among `n` bytes, without it; none when there is none
(R241). -/
def readPath (m : Memory) (p : Nat) : Nat → Option (List Byte)
  | 0 => none
  | n + 1 =>
    if Memory.read m p = 0 then some []
    else (readPath m (p + 1) n).map (Memory.read m p :: ·)

/-- The path operand of `OPEN` at the pointer word `w`: inside the declared data segment, with its
terminator there too (R241). -/
def State.pathAt (s : State) (w : Word) : Option (List Byte) :=
  match accessAt w 1 s.dsSize.toNat with
  | none => none
  | some p => readPath s.data p (s.dsSize.toNat - p)

/-- `OPEN` (R241, D25). -/
def serveOpen (s : State) : Result :=
  needSyscall 3 s <|
    match s.pathAt (s.top 2) with
    | none => hostFail s
    | some path =>
      let t := s.afterCall (.openFile path (s.top 1))
      match answeredHandle s.hostAnswer with
      | none => hostFail t
      | some h => push (wrap16 h) (t.drop 3)

/-- `CLOSE` (R242): the answer is ignored. -/
def serveClose (s : State) : Result :=
  needSyscall 2 s (.next ((s.afterCall (.closeFile (s.top 1))).drop 2))

/-- `FGETC` (R243): a failed or short read pushes -1. -/
def serveFgetc (s : State) : Result :=
  needSyscall 2 s <|
    push (match answeredByte s.hostAnswer with | some b => zext8 b | none => 0xFFFF)
      ((s.afterCall (.read1 (s.top 1))).drop 2)

/-- `FPUTC` (R244): pushes 0 on success, -1 on failure. -/
def serveFputc (s : State) : Result :=
  needSyscall 3 s <|
    push (if answeredOk s.hostAnswer then 0 else 0xFFFF)
      ((s.afterCall (.write1 (s.top 1) (lowByte (s.top 2)))).drop 3)

/-- `Dispatch(code)` (R231, R245). -/
def dispatch (code : Byte) (s : State) : Result :=
  match serviceOfCode s.params.sysnum code with
  | some .hlt => serveHlt s
  | some .putc => servePutc s
  | some .getc => serveGetc s
  | some .info => serveInfo s
  | some .gets => serveGets s
  | some .openFile => serveOpen s
  | some .closeFile => serveClose s
  | some .fgetc => serveFgetc s
  | some .fputc => serveFputc s
  | none => raise .invalidSyscall s

/-- `SYSCALL` (R230): the code is the low byte of the top word. -/
def execSyscall (s : State) : Result := need 1 s (dispatch (lowByte (s.top 0)) s)

end Sys2Proof.Machine
end

