-- ==== Sys2Proof/Machine/Dispatch.lean ====
section
/-! DEFINITION. `Execute(op)` (40_fetch_execute_loop.md R114): one arm per instruction, in the order
of spec/opcode_table.json. -/

namespace Sys2Proof.Machine

/-- The effect of an instruction in a state whose `pc` is the index of the instruction's last nibble
and whose jump flag is clear (R112). -/
def exec (i : Instr) (s : State) : Host.Outcome State Fault Refusal :=
  match i with
  | .li imm => Sys2Proof.Machine.execLi imm s
  | .lb => Sys2Proof.Machine.execLb s
  | .lw => Sys2Proof.Machine.execLw s
  | .lws => Sys2Proof.Machine.execLws s
  | .sws => Sys2Proof.Machine.execSws s
  | .sb => Sys2Proof.Machine.execSb s
  | .sw => Sys2Proof.Machine.execSw s
  | .pop => Sys2Proof.Machine.execPop s
  | .dup => Sys2Proof.Machine.execDup s
  | .rot => Sys2Proof.Machine.execRot s
  | .rot3 => Sys2Proof.Machine.execRot3 s
  | .add => Sys2Proof.Machine.execAdd s
  | .sub => Sys2Proof.Machine.execSub s
  | .mul => Sys2Proof.Machine.execMul s
  | .div => Sys2Proof.Machine.execDiv s
  | .and => Sys2Proof.Machine.execAnd s
  | .or => Sys2Proof.Machine.execOr s
  | .xor => Sys2Proof.Machine.execXor s
  | .nor => Sys2Proof.Machine.execNor s
  | .shl => Sys2Proof.Machine.execShl s
  | .shr => Sys2Proof.Machine.execShr s
  | .not => Sys2Proof.Machine.execNot s
  | .equ => Sys2Proof.Machine.execEqu s
  | .loe => Sys2Proof.Machine.execLoe s
  | .goe => Sys2Proof.Machine.execGoe s
  | .lt => Sys2Proof.Machine.execLt s
  | .gt => Sys2Proof.Machine.execGt s
  | .salloc => Sys2Proof.Machine.execSalloc s
  | .jmp => Sys2Proof.Machine.execJmp s
  | .jz => Sys2Proof.Machine.execJz s
  | .call => Sys2Proof.Machine.execCall s
  | .mova => Sys2Proof.Machine.execMova s
  | .movb => Sys2Proof.Machine.execMovb s
  | .movc => Sys2Proof.Machine.execMovc s
  | .movd => Sys2Proof.Machine.execMovd s
  | .move => Sys2Proof.Machine.execMove s
  | .movf => Sys2Proof.Machine.execMovf s
  | .amov => Sys2Proof.Machine.execAmov s
  | .bmov => Sys2Proof.Machine.execBmov s
  | .cmov => Sys2Proof.Machine.execCmov s
  | .dmov => Sys2Proof.Machine.execDmov s
  | .emov => Sys2Proof.Machine.execEmov s
  | .fmov => Sys2Proof.Machine.execFmov s
  | .syscall => Sys2Proof.Machine.execSyscall s
  | .nop => Sys2Proof.Machine.execNop s
  | .unassigned op => Sys2Proof.Machine.execUnassigned op s

end Sys2Proof.Machine
end

