-- ==== Sys2Proof/WellFormed.lean ====
section
/-! DEFINITION. When a term of `Instr` is an instruction of the machine. Every 16-bit immediate is
legal (41_immediate_and_memory.md R140), so the one check is on the unassigned row: its opcode is
one that `OPC` gives to no mnemonic (30_encoding.md R93). -/

namespace Sys2Proof

/-- The well-formed instructions under an opcode table. An `unassigned` term whose opcode belongs to
a mnemonic is ill-formed: those bits are that mnemonic's. -/
def Instr.wf (c : Parameters) : Instr → Bool
  | .unassigned op => !assigned c op
  | .li _ => true
  | .lb => true | .lw => true | .lws => true | .sws => true | .sb => true | .sw => true
  | .pop => true | .dup => true | .rot => true | .rot3 => true
  | .add => true | .sub => true | .mul => true | .div => true
  | .and => true | .or => true | .xor => true | .nor => true
  | .shl => true | .shr => true | .not => true
  | .equ => true | .loe => true | .goe => true | .lt => true | .gt => true
  | .salloc => true
  | .jmp => true | .jz => true | .call => true
  | .mova => true | .movb => true | .movc => true | .movd => true | .move => true | .movf => true
  | .amov => true | .bmov => true | .cmov => true | .dmov => true | .emov => true | .fmov => true
  | .syscall => true | .nop => true

end Sys2Proof
end

