-- ==== Sys2Proof/Decode.lean ====
section
/-! DEFINITION. The nibble stream, the assembly of a logical opcode, the decoder and the encoder
(30_encoding.md R80 to R96). The decoder is total on every nibble string; the one thing it rejects
is a stream that ends inside an instruction, and it says so by name (R94). -/

namespace Sys2Proof

/-! ## Nibbles and bytes -/

/-- Whether the mode lays the even nibble index in the low half of a byte (R81). -/
def lowHalfFirst (c : Parameters) (big : Bool) : Bool := big != c.nibbleLowFirstInLittle

/-- The nibble at index `p`, given the code byte that holds it (R81). -/
def selectNibble (c : Parameters) (big : Bool) (p : Nat) (b : Byte) : Nibble :=
  if (p % 2 == 0) == lowHalfFirst c big then b.extractLsb' 0 4 else b.extractLsb' 4 4

/-- The byte that holds the nibble `even` at an even index and `odd` at the index after it (R87). -/
def pairByte (c : Parameters) (big : Bool) (even odd : Nibble) : Byte :=
  if lowHalfFirst c big then odd ++ even else even ++ odd

/-- `b` with the nibble at index `p` replaced; the other half stays (inverse of R81). -/
def replaceNibble (c : Parameters) (big : Bool) (p : Nat) (b : Byte) (n : Nibble) : Byte :=
  if p % 2 = 0 then pairByte c big n (selectNibble c big 1 b)
  else pairByte c big (selectNibble c big 0 b) n

/-- The nibbles of a byte string in stream order (R80). -/
def nibblesOfBytes (c : Parameters) (big : Bool) : List Byte → List Nibble
  | [] => []
  | b :: bs => selectNibble c big 0 b :: selectNibble c big 1 b :: nibblesOfBytes c big bs

/-- Lays nibbles at consecutive indices from an even one; the half-byte an odd number of nibbles
leaves over is 0 (R87). -/
def packNibbles (c : Parameters) (big : Bool) : List Nibble → List Byte
  | [] => []
  | [a] => [pairByte c big a 0]
  | a :: b :: ns => pairByte c big a b :: packNibbles c big ns

/-! ## The decoder -/

/-- What decoding a nibble string answers. -/
inductive Decoded where
  /-- An instruction and the number of nibbles it takes. -/
  | instr (i : Instr) (len : Nat)
  /-- The stream ends inside the instruction: the engine raises `CodeExhausted`
  (40_fetch_execute_loop.md R110). -/
  | exhausted
  deriving DecidableEq, Repr

/-- The logical opcode at the head of a nibble string, how many nibbles it takes and what follows
(R83): `op = n0[2:0] | (n1 << 3)` when bit 3 of `n0` is set, else `op = n0`. -/
def assembleOp : List Nibble → Option (Opcode × Nat × List Nibble)
  | [] => none
  | n0 :: rest =>
    if n0.getLsbD 3 then
      match rest with
      | [] => none
      | n1 :: rest => some ((n0.setWidth 7 &&& (7 : Opcode)) ||| (n1.setWidth 7 <<< 3), 2, rest)
    else some (n0.setWidth 7, 1, rest)

/-- The `LI` immediate from its four nibbles in stream order (R86). -/
def immOfNibbles (c : Parameters) (big : Bool) (i0 i1 i2 i3 : Nibble) : Word :=
  if big != c.liLowFirstInLittle then i3 ++ i2 ++ i1 ++ i0 else i0 ++ i1 ++ i2 ++ i3

/-- The decoder (40_fetch_execute_loop.md R111 with the immediate of R140): the instruction at the
head of a nibble string and its length in nibbles (R85). -/
def decode (c : Parameters) (big : Bool) (ns : List Nibble) : Decoded :=
  match assembleOp ns with
  | none => .exhausted
  | some (op, n, rest) =>
    if op = opcodeOf c (.li 0) then
      match rest with
      | i0 :: i1 :: i2 :: i3 :: _ => .instr (.li (immOfNibbles c big i0 i1 i2 i3)) (n + 4)
      | _ => .exhausted
    else .instr (plainOfOpcode c op) n

/-- The decoder on code bytes, from the first nibble of the first byte. -/
def decodeBytes (c : Parameters) (big : Bool) (bs : List Byte) : Decoded :=
  decode c big (nibblesOfBytes c big bs)

/-! ## The encoder -/

/-- The two-nibble form of an opcode: `8 | v[2:0]` then `v[6:3]` (R87; for `v < 8` it is the
non-canonical form of R88). -/
def encOpLong (v : Opcode) : List Nibble :=
  [8 ||| (v.setWidth 4 &&& 7), (v >>> 3).setWidth 4]

/-- `enc_op` (R87): the canonical opcode nibbles. -/
def encOp (v : Opcode) : List Nibble := if v.toNat < 8 then [v.setWidth 4] else encOpLong v

/-- `enc_imm` (R87): the four nibbles of an immediate in stream order. -/
def encImm (c : Parameters) (big : Bool) (w : Word) : List Nibble :=
  let lowFirst := [w.extractLsb' 0 4, w.extractLsb' 4 4, w.extractLsb' 8 4, w.extractLsb' 12 4]
  if big != c.liLowFirstInLittle then lowFirst else lowFirst.reverse

/-- The nibbles after the opcode: `LI` has its immediate, nothing else has any (R84). -/
def operandNibbles (c : Parameters) (big : Bool) : Instr → List Nibble
  | .li imm => encImm c big imm
  | .unassigned _ => []
  | .lb => [] | .lw => [] | .lws => [] | .sws => [] | .sb => [] | .sw => []
  | .pop => [] | .dup => [] | .rot => [] | .rot3 => []
  | .add => [] | .sub => [] | .mul => [] | .div => []
  | .and => [] | .or => [] | .xor => [] | .nor => [] | .shl => [] | .shr => [] | .not => []
  | .equ => [] | .loe => [] | .goe => [] | .lt => [] | .gt => [] | .salloc => []
  | .jmp => [] | .jz => [] | .call => []
  | .mova => [] | .movb => [] | .movc => [] | .movd => [] | .move => [] | .movf => []
  | .amov => [] | .bmov => [] | .cmov => [] | .dmov => [] | .emov => [] | .fmov => []
  | .syscall => [] | .nop => []

/-- The canonical nibbles of an instruction (R84, R87). -/
def encode (c : Parameters) (big : Bool) (i : Instr) : List Nibble :=
  encOp (opcodeOf c i) ++ operandNibbles c big i

/-- The same instruction with its opcode in two nibbles (R88). -/
def encodeLong (c : Parameters) (big : Bool) (i : Instr) : List Nibble :=
  encOpLong (opcodeOf c i) ++ operandNibbles c big i

/-- The canonical code bytes of an instruction laid from an even nibble index (R87). -/
def encodeBytes (c : Parameters) (big : Bool) (i : Instr) : List Byte :=
  packNibbles c big (encode c big i)

/-! ## Words of spec/opcode_table.json -/

/-- The nibbles, in stream order, of an instruction numbered as the table numbers it (R96, log 6).
A mnemonic's row numbers the 7-bit logical opcode in bits 6 to 0, with bit 7 clear; the row
`UNASSIGNED` numbers its two nibbles as the byte `1ooo oooo`, first nibble in bits 7 to 4. Later
nibbles count on from bit 8, four bits each; bits at or above `nbits` are 0. -/
def tableNibbles (nbits w : Nat) : List Nibble :=
  let w := w % 2 ^ nbits
  let opNibbles :=
    if w.testBit 7 then [BitVec.ofNat 4 (w >>> 4), BitVec.ofNat 4 w] else encOp (BitVec.ofNat 7 w)
  opNibbles ++ [BitVec.ofNat 4 (w >>> 8), BitVec.ofNat 4 (w >>> 12), BitVec.ofNat 4 (w >>> 16),
    BitVec.ofNat 4 (w >>> 20), 0]

/-- The instruction the decoder reads from a table word laid out as code bytes in little mode, the
mode of `State.reset`; none where it refuses. -/
def decodeTableWord (nbits w : Nat) : Option Instr :=
  match decodeBytes Machine.defaultParameters false
      (packNibbles Machine.defaultParameters false (tableNibbles nbits w)) with
  | .instr i _ => some i
  | .exhausted => none

end Sys2Proof
end

