-- ==== Sys2Proof/Machine/Fetch.lean ====
section
/-! DEFINITION. The Fetch/Decode Unit over the code space (40_fetch_execute_loop.md R110, R111), and
the placing of an instruction where the next step fetches it. -/

namespace Sys2Proof.Machine

/-- `C[k]`. -/
def State.codeByte (s : State) (k : Nat) : Byte := Memory.read s.code k

/-- `FetchNibble(p)` (R110): none stands for `raise CodeExhausted`. -/
def State.fetchNibble (s : State) (p : Nat) : Option Nibble :=
  if p / 2 < s.csSize.toNat then some (selectNibble s.params s.big p (s.codeByte (p / 2))) else none

/-- The nibbles at `p`, `p + 1`, ... up to `n` of them, as far as the code segment reaches. -/
def State.fetchFrom (s : State) (p : Nat) : Nat → List Nibble
  | 0 => []
  | n + 1 =>
    match s.fetchNibble p with
    | none => []
    | some b => b :: s.fetchFrom (p + 1) n

/-- The nibbles an instruction at `pc` can take. Fetching has no side effect (20_memory.md R66), so
reading more than the instruction needs is not observable (log 39). -/
def State.codeWindow (s : State) : List Nibble := s.fetchFrom s.pc Config.maxNibbles

/-- `C` with the nibble at index `p` replaced. -/
def State.setCodeNibble (s : State) (p : Nat) (n : Nibble) : State :=
  { s with code := Memory.write s.code (p / 2) (replaceNibble s.params s.big p (s.codeByte (p / 2)) n) }

/-- `C` with nibbles laid from index `p` on. -/
def State.setCodeNibbles (s : State) (p : Nat) : List Nibble → State
  | [] => s
  | n :: ns => (s.setCodeNibble p n).setCodeNibbles (p + 1) ns

/-- The code segment made long enough to hold the nibble at index `p`, as far as a 16-bit `cs_size`
goes. -/
def State.coverNibble (s : State) (p : Nat) : State :=
  { s with csSize := BitVec.ofNat 16 (max s.csSize.toNat (min (p / 2 + 1) 65535)) }

/-- The state with an instruction of spec/opcode_table.json, numbered as the table numbers it, laid
at `pc` in the state's mode and nibble order, and the code segment long enough for it. -/
def State.placeTableWord (s : State) (nbits w : Nat) : State :=
  let ns := (tableNibbles nbits w).take Config.maxNibbles
  (s.setCodeNibbles s.pc ns).coverNibble (s.pc + Config.maxNibbles - 1)

end Sys2Proof.Machine
end

