-- ==== Sys2Proof/Machine/Step.lean ====
section
/-! DEFINITION. One step of the engine (40_fetch_execute_loop.md R112). -/

namespace Sys2Proof.Machine

/-- `Step()` (R112): while the run goes on, the budget is checked before anything else (R113), the
instruction at `pc` is fetched and decoded (R111), executed with `pc` on its last nibble, and the
step is finished (R115). A run that has ended takes no step (10_state.md R29). -/
def step (s : State) : Host.Outcome State Fault Refusal :=
  match s.status with
  | .running =>
    if Config.budget ≤ s.icount then raise .budgetExceeded s
    else
      match decode s.params s.big s.codeWindow with
      | .exhausted => raise .codeExhausted s
      | .instr i len =>
        match exec i (s.beginStep (s.pc + len - 1)) with
        | .next t => .next (finishStep s t)
        | .fault r => .fault r
        | .refused r => .refused r
  | .halted => .fault .runEnded
  | .fault _ => .fault .runEnded
  | .hostFault => .fault .runEnded

/-- The state with an opcode-table instruction where the next step fetches: at `pc`, in the state's
mode, the code segment made long enough to hold it. Nothing else changes (log 6). -/
def State.withFetchWord (s : State) (nbits w : Nat) : State := s.placeTableWord nbits w

end Sys2Proof.Machine
end

