-- ==== Sys2Proof/Machine/Loader.lean ====
section
/-! DEFINITION. The start of a run: the image and the Image Loader's checks (70_reset_and_hazards.md
R293, R294), which produce the reset state of 10_state.md R37, and the run result of
60_exceptions.md R262. The loader is a boot agent outside the core (00_scope.md R5, D31); no step
uses it. -/

namespace Sys2Proof.Machine

/-- The load errors (60_exceptions.md R263). -/
inductive LoadError where
  | badHeader
  | badFormat
  | truncatedImage
  | invalidLayout
  | invalidEntryPoint
  deriving DecidableEq, Repr

/-- What the loader answers. -/
inductive Loaded where
  /-- The image is accepted and the core takes its first step from `s`. -/
  | started (s : State)
  /-- The image is rejected and the core never leaves reset (R263). -/
  | rejected (e : LoadError)
  deriving DecidableEq, Repr

/-- The magic tag "GOVM" (R293). The codes are ASCII: PRESUMED (log 36). -/
def imageMagic : List Byte := [0x47, 0x4F, 0x56, 0x4D]

/-- A 16-bit header field from its two bytes in the order they lie (R293). -/
def imageField (big : Bool) (b0 b1 : Byte) : Word := if big then b0 ++ b1 else b1 ++ b0

/-- The header fields the core starts from (R293). -/
structure Header where
  big : Bool
  csSize : Word
  dsSize : Word
  iSize : Word
  entryPc : Word
  deriving DecidableEq, Repr

/-- The reset state of 10_state.md R37 for an accepted image, on a machine with the parameters `c`:
`code` and `init` are the code and init-data bytes. -/
def startState (c : Parameters) (h : Header) (code init sData sGets : List Byte) : State :=
  { State.reset with
    pc := h.entryPc.toNat
    big := h.big
    csSize := h.csSize
    dsSize := h.dsSize
    extraLen := sData.length
    code := Memory.ofBytes 0 code
    data := Memory.ofBytes 0 init ++ Memory.ofBytes h.dsSize.toNat sData
    sGets := sGets
    params := c }

/-- Steps 7 to 9 of R294: the code and init-data bytes that follow the header. -/
def loadBody (c : Parameters) (h : Header) (body sData sGets : List Byte) : Loaded :=
  if body.length < h.csSize.toNat then .rejected .truncatedImage
  else
    let init := body.drop h.csSize.toNat
    if init.length < h.iSize.toNat then .rejected .truncatedImage
    else
      .started (startState c h (body.take h.csSize.toNat) (init.take h.iSize.toNat) sData sGets)

/-- Steps 3 to 5 of R294: the sizes, the reserved field, which is ignored, and the entry point. -/
def loadFields (c : Parameters) (big : Bool) (bytes sData sGets : List Byte) : Loaded :=
  match bytes with
  | c0 :: c1 :: d0 :: d1 :: i0 :: i1 :: _ :: _ :: rest =>
    let ds := imageField big d0 d1
    let i := imageField big i0 i1
    if ds.toNat < i.toNat then .rejected .invalidLayout
    else
      match rest with
      | e0 :: e1 :: body =>
        let h : Header := ⟨big, imageField big c0 c1, ds, i, imageField big e0 e1⟩
        if h.csSize.toNat ≤ h.entryPc.toNat / 2 then .rejected .invalidEntryPoint
        else loadBody c h body sData sGets
      | _ => .rejected .truncatedImage
  | _ => .rejected .truncatedImage

/-- Step 2 of R294: the endian byte. A short read of it is `TruncatedImage`, as the spec reads it
(log 36). -/
def loadEndian (c : Parameters) (bytes sData sGets : List Byte) : Loaded :=
  match bytes with
  | [] => .rejected .truncatedImage
  | e :: rest =>
    if e = 0x10 then loadFields c false rest sData sGets
    else if e = 0x11 then loadFields c true rest sData sGets
    else .rejected .badFormat

/-- The loader (R294): the machine's parameters, the image bytes and the two auxiliary buffers
(R290). -/
def loadImage (c : Parameters) (image sData sGets : List Byte) : Loaded :=
  if image.take 4 = imageMagic then loadEndian c (image.drop 4) sData sGets
  else .rejected .badHeader

/-! ## The run result (60_exceptions.md R262) -/

/-- `STATUS` for the fault causes (R262). -/
def causeCode (t : StatusNumbers) : Cause → Int
  | .stackUnderflow => t.stackUnderflow
  | .stackOverflow => t.stackOverflow
  | .accessViolation => t.accessViolation
  | .stackAccessViolation => t.stackAccessViolation
  | .jumpTargetViolation => t.jumpTargetViolation
  | .codeExhausted => t.codeExhausted
  | .divideByZero => t.divideByZero
  | .budgetExceeded => t.budgetExceeded
  | .invalidSyscall => t.invalidSyscall
  | .syscallStackUnderflow => t.syscallStackUnderflow

/-- `STATUS` for the load errors (R262, R263). -/
def loadErrorCode (t : StatusNumbers) : LoadError → Int
  | .badHeader => t.badHeader
  | .badFormat => t.badFormat
  | .truncatedImage => t.truncatedImage
  | .invalidLayout => t.invalidLayout
  | .invalidEntryPoint => t.invalidEntryPoint

/-- The run result integer; none while the run goes on (R262). -/
def runResult (t : StatusNumbers) : Status → Option Int
  | .running => none
  | .halted => some t.halted
  | .fault c => some (causeCode t c)
  | .hostFault => some t.hostFault

end Sys2Proof.Machine
end

