-- ==== Sys2Proof/Safety.lean ====
section
/-! DEFINITION. What a safe run is, and the words the statements are written in: the invariant of the
machine, what an instruction leaves unchanged, and how many operands each instruction reads. -/

namespace Sys2Proof.Machine

/-! ## Registers and their moves -/

/-- The instruction that pops into a register (10_state.md R20). -/
def popInstr : Reg → Instr
  | .aft => .mova | .bur => .movb | .con => .movc | .dis => .movd | .sp => .move | .bp => .movf

/-- The instruction that pushes from a register (10_state.md R20). -/
def pushInstr : Reg → Instr
  | .aft => .amov | .bur => .bmov | .con => .cmov | .dis => .dmov | .sp => .emov | .bp => .fmov

/-- The five registers that only their own two instructions touch (10_state.md R21). -/
def plainRegs : List Reg := [.aft, .bur, .con, .dis, .bp]

/-! ## The parameters -/

/-- What the source fixes about the three tables of 00_scope.md R8, whatever their numbers; that the
syscall numbers are distinct is DEDUCED (log 46). The Boolean parameters may have any values. -/
structure LegalParameters (c : Parameters) : Prop where
  /-- Distinct mnemonics have distinct numbers (30_encoding.md R89 d). -/
  opcodes_distinct : ((Instr.li 0 :: plainInstrs).map (opcodeOf c)).Nodup
  /-- The move-to opcodes are consecutive in register index (R89 a). -/
  moves_to : ∀ r, (opcodeOf c (popInstr r)).toNat = c.opc.mova.toNat + r.index
  /-- The move-from opcodes are consecutive in register index (R89 b). -/
  moves_from : ∀ r, (opcodeOf c (pushInstr r)).toNat = c.opc.amov.toNat + r.index
  /-- One number selects one syscall (44_syscall.md R231). -/
  syscalls_distinct : (services.map (serviceNumber c.sysnum)).Nodup
  /-- The one syscall number of the source (R231). -/
  hlt_zero : c.sysnum.hlt = 0
  /-- The normal halt is 0 (60_exceptions.md R262). -/
  halted_zero : c.result.halted = 0
  /-- A fault is positive (R262). -/
  faults_positive : ∀ d, 0 < causeCode c.result d
  /-- A load error is positive (R262). -/
  loadErrors_positive : ∀ e, 0 < loadErrorCode c.result e
  /-- The host failure is the negative sentinel (R262). -/
  hostFault_negative : c.result.hostFault < 0

/-- The two operands of `SB`, `SW`, `SWS` or `JZ`: the first named is on top and the second beneath it,
or, under the other value of the parameter, the other way round (00_scope.md R8,
`STORE_VALUE_ON_TOP` and `JZ_COND_ON_TOP`). -/
abbrev OperandPair (firstOnTop : Bool) (first second : Word) (s : State) : Prop :=
  if firstOnTop then s.top 0 = first ∧ s.top 1 = second else s.top 1 = first ∧ s.top 0 = second

/-- The low byte of the top word is the number of the service (44_syscall.md R230, R231). -/
abbrev Requests (v : Service) (s : State) : Prop :=
  (s.top 0).toNat % 256 = (serviceNumber s.params.sysnum v).toNat

/-! ## The invariant and the end of a run -/

/-- What holds at the start of every step of a run (10_state.md R22, R25, R36): `sp` in 0 to 8192,
`pc` and `icount` in their ranges, each memory in canonical form and inside its own space; and the
parameters are legal. -/
structure Invariant (s : State) : Prop where
  depth_le : s.depth ≤ Config.stackSlots
  pc_le : s.pc ≤ 131070
  icount_le : s.icount ≤ Config.budget
  code_wf : Memory.wf s.code
  data_wf : Memory.wf s.data
  stack_wf : StackSpace.wf s.stack
  code_inside : ∀ c ∈ s.code, c.1 < s.csSize.toNat
  data_inside : ∀ c ∈ s.data, c.1 < s.dsSize.toNat + s.extraLen
  stack_inside : ∀ c ∈ s.stack, c.1 < Config.stackSlots
  params_legal : LegalParameters s.params

/-- `k` steps from `s` lead to `t` and the run is over there (R29, 40_fetch_execute_loop.md R123). -/
def EndsAt (k : Nat) (s t : State) : Prop :=
  Sys2Proof.core.run k s = .next t ∧ t.status ≠ .running

/-- A safe run: it ends by `HLT` and by nothing else. -/
def EndsSafely (s : State) : Prop := ∃ k t, EndsAt k s t ∧ t.status = .halted

/-! ## What an instruction leaves unchanged -/

/-- No address of a space. -/
def nowhere : Nat → Prop := fun _ => False

/-- From `s` to `t` nothing changes but the registers in `regs`, the stack slots in `slots` and the
data bytes in `bytes`; `pc`, `jf`, the host and the free values are spoken of apart. -/
structure Frame (regs : List Reg) (slots bytes : Nat → Prop) (s t : State) : Prop where
  regs_same : ∀ r, r ∉ regs → t.readReg r = s.readReg r
  slots_same : ∀ j, ¬ slots j → t.slot j = s.slot j
  bytes_same : ∀ a, ¬ bytes a → t.dataByte a = s.dataByte a
  code_same : ∀ k, Memory.read t.code k = Memory.read s.code k
  big_same : t.big = s.big
  csSize_same : t.csSize = s.csSize
  dsSize_same : t.dsSize = s.dsSize
  extraLen_same : t.extraLen = s.extraLen
  sGets_same : t.sGets = s.sGets
  params_same : t.params = s.params
  icount_same : t.icount = s.icount
  status_same : t.status = s.status

/-- The instruction did not jump: `pc` is where it was and `jf` as it was. -/
structure NoJump (s t : State) : Prop where
  pc_same : t.pc = s.pc
  jf_same : t.jf = s.jf

/-- The host was not called. -/
structure NoHostCall (s t : State) : Prop where
  hostLog_same : t.hostLog = s.hostLog
  hostReplies_same : t.hostReplies = s.hostReplies

/-- One call `c` was made on the host and one answer was taken. -/
structure OneHostCall (c : HostCall) (s t : State) : Prop where
  hostLog_eq : t.hostLog = s.hostLog ++ [c]
  hostReplies_eq : t.hostReplies = s.hostReplies.tail

/-- No unspecified value was produced. -/
def NoFreeValue (s t : State) : Prop := t.freeIdx = s.freeIdx

/-- The instruction went straight on, asked nothing of the host and produced no unspecified value. -/
def Plain (s t : State) : Prop := NoJump s t ∧ NoHostCall s t ∧ NoFreeValue s t

/-! ## The usual stack effects -/

/-- `( -- v )`: one word pushed, and nothing else but `sp` and its slot changes. -/
def Pushed (v : Word) (s t : State) : Prop :=
  t.depth = s.depth + 1 ∧ t.slot s.depth = v ∧ Frame [.sp] (· = s.depth) nowhere s t

/-- `( a -- v )`: the top word replaced in place, and nothing else changes. -/
def TopReplaced (v : Word) (s t : State) : Prop :=
  t.sp = s.sp ∧ t.top 0 = v ∧ Frame [] (· = s.depth - 1) nowhere s t

/-- `( a b -- r )`: two words replaced by one, in the slot that held the left operand; nothing else
changes. -/
def PairReplaced (r : Word) (s t : State) : Prop :=
  t.depth = s.depth - 1 ∧ t.top 0 = r ∧ Frame [.sp] (· = s.depth - 2) nowhere s t

/-- `k` words removed; every slot keeps its word and nothing else changes. -/
def Dropped (k : Nat) (s t : State) : Prop :=
  t.depth = s.depth - k ∧ Frame [.sp] nowhere nowhere s t

/-- `raise c` as the instruction's answer: `status` alone changes. -/
def Raises (c : Cause) (i : Instr) (s : State) : Prop :=
  exec i s = .next { s with status := .fault c }

/-! ## Tables the statements use -/

/-- How many words an instruction reads from the stack before anything else
(40_fetch_execute_loop.md R116; 60_exceptions.md R260). -/
def wordsRead : Instr → Nat
  | .li _ => 0
  | .lb => 1 | .lw => 1 | .lws => 1
  | .sws => 2 | .sb => 2 | .sw => 2
  | .pop => 1 | .dup => 1 | .rot => 2 | .rot3 => 3
  | .add => 2 | .sub => 2 | .mul => 2 | .div => 2
  | .and => 2 | .or => 2 | .xor => 2 | .nor => 2 | .shl => 2 | .shr => 2 | .not => 1
  | .equ => 2 | .loe => 2 | .goe => 2 | .lt => 2 | .gt => 2
  | .salloc => 1
  | .jmp => 1 | .jz => 2 | .call => 1
  | .mova => 1 | .movb => 1 | .movc => 1 | .movd => 1 | .move => 1 | .movf => 1
  | .amov => 0 | .bmov => 0 | .cmov => 0 | .dmov => 0 | .emov => 0 | .fmov => 0
  | .syscall => 1 | .nop => 0 | .unassigned _ => 0

/-- The instructions that push one word without reading more than they put back
(40_fetch_execute_loop.md R117; 60_exceptions.md R260). -/
def pushers (imm : Word) : List Instr :=
  [.li imm, .dup, .amov, .bmov, .cmov, .dmov, .emov, .fmov]

/-- The byte of an image at an offset, 0 past its end (70_reset_and_hazards.md R293). -/
def imageByte (image : List Byte) (k : Nat) : Byte := image.getD k 0

/-- The 16-bit header field of an image at an offset, in the order of the image's own endian byte
(70_reset_and_hazards.md R293). -/
def imageWord (image : List Byte) (o : Nat) : Word :=
  imageField (imageByte image 4 == 0x11) (imageByte image o) (imageByte image (o + 1))

end Sys2Proof.Machine
end

