-- ==== Sys2Proof/Certificates/Slice0/Obligations.lean ====
section
/-! DEFINITION. The statements for the provers. Each is about the machine of the spec, not about a
program; the words they are written in are those of Safety.lean. Each holds for every value of the
parameters of 00_scope.md R8, which a state holds (log 46), unless it names a value; so none rests on
a default. Where a clause rests on another of the spec's own decisions (D<n> of
spec/92_eei_decisions.md) or on a choice of the model, the docstring names the decision or the log
entry. -/

open Sys2Proof Sys2Proof.Machine

/-! ## Encoding and decoding -/

/-- Decode and encode agree, for every well-formed instruction with every operand, in both modes, under
all legal parameters, whatever nibbles follow (spec/30_encoding.md sections 2 to 4; R87 is the spec's
derivation). -/
def Obligations.DecodeOfEncode : Prop :=
  ∀ (c : Parameters) (big : Bool) (i : Instr) (rest : List Nibble), LegalParameters c →
    i.wf c = true → decode c big (encode c big i ++ rest) = .instr i (encode c big i).length

/-- The same over code bytes: the nibbles packed two to a byte by the mode and unpacked again
(spec/30_encoding.md sections 1 to 3). -/
def Obligations.DecodeOfEncodedBytes : Prop :=
  ∀ (c : Parameters) (big : Bool) (i : Instr) (rest : List Byte), LegalParameters c →
    i.wf c = true →
    decodeBytes c big (encodeBytes c big i ++ rest) = .instr i (encode c big i).length

/-- The two-nibble form of an opcode means the same as its canonical form, and is one nibble longer
for an opcode below 8 (spec/30_encoding.md section 3, R88, derived there). -/
def Obligations.LongFormDecodesAlike : Prop :=
  ∀ (c : Parameters) (big : Bool) (i : Instr) (rest : List Nibble), LegalParameters c →
    i.wf c = true →
    decode c big (encodeLong c big i ++ rest) = .instr i (encodeLong c big i).length ∧
    (encodeLong c big i).length =
      (encode c big i).length + (if (opcodeOf c i).toNat < 8 then 1 else 0)

/-- No nibble string is illegal: with six nibbles at hand every one decodes to a well-formed
instruction of one to six nibbles, whatever the opcode table (spec/30_encoding.md section 5, R94,
derived there). -/
def Obligations.EveryNibbleStringDecodes : Prop :=
  ∀ (c : Parameters) (big : Bool) (ns : List Nibble), 6 ≤ ns.length →
    ∃ i n, decode c big ns = .instr i n ∧ i.wf c = true ∧ 1 ≤ n ∧ n ≤ 6

/-- The first nibble of an instruction: bit 3 announces a second nibble, bits 2:0 are the low three
bits of the logical opcode, and the second nibble gives the four bits above them (R82). -/
def Obligations.OpcodeNibblesAssemble : Prop :=
  ∀ (n0 n1 : Nibble) (rest : List Nibble),
    (n0.getLsbD 3 = true → ∃ op, assembleOp (n0 :: n1 :: rest) = some (op, 2, rest) ∧
      op.toNat = n0.toNat % 8 + 8 * n1.toNat) ∧
    (n0.getLsbD 3 = false → ∃ op, assembleOp (n0 :: n1 :: rest) = some (op, 1, n1 :: rest) ∧
      op.toNat = n0.toNat)

/-- Code bytes written out from the tables of spec/30_encoding.md, at least one string for each class
of R90 and one for the unassigned opcodes, decode to the instructions they stand for under the default
parameters: the opcode table is D6 (log 11), the nibble places D1 and D2 (log 9, log 10). -/
def Obligations.SpecBytesDecode : Prop :=
  decodeBytes defaultParameters false [0x40, 0x23, 0x01] = .instr (.li 0x1234) 5 ∧
  decodeBytes defaultParameters true [0x01, 0x23, 0x40] = .instr (.li 0x1234) 5 ∧
  decodeBytes defaultParameters false [0x08, 0x34, 0x12] = .instr (.li 0x1234) 6 ∧
  decodeBytes defaultParameters false [0x01] = .instr .lb 1 ∧
  decodeBytes defaultParameters true [0x30] = .instr .lws 1 ∧
  decodeBytes defaultParameters false [0x05] = .instr .sb 1 ∧
  decodeBytes defaultParameters true [0x60] = .instr .sw 1 ∧
  decodeBytes defaultParameters false [0x0F] = .instr .pop 2 ∧
  decodeBytes defaultParameters true [0xB1] = .instr .add 2 ∧
  decodeBytes defaultParameters false [0x3A] = .instr .gt 2 ∧
  decodeBytes defaultParameters true [0xB3] = .instr .salloc 2 ∧
  decodeBytes defaultParameters false [0x3C] = .instr .jmp 2 ∧
  decodeBytes defaultParameters false [0x4B] = .instr .move 2 ∧
  decodeBytes defaultParameters true [0xB5] = .instr .syscall 2 ∧
  decodeBytes defaultParameters false [0x5C] = .instr .nop 2 ∧
  decodeBytes defaultParameters false [0xFF] = .instr (.unassigned 127) 2

/-- What the fetch unit reads: the nibble `j` places after `pc` is there exactly when its byte is
below `cs_size`, and it is the high half of that byte when the index is odd in little mode or even
in big mode, else the low half, or the reverse under the other value of `NIBBLE_LOW_FIRST_IN_LITTLE`
(spec/30_encoding.md section 1, R81, and 40_fetch_execute_loop.md section 1; the check on every fetch
is D10, log 19). -/
def Obligations.FetchSelectsNibbles : Prop :=
  ∀ (s : State) (j : Nat) (n : Nibble), j < 6 →
    (s.codeWindow[j]? = some n ↔
      (s.pc + j) / 2 < s.csSize.toNat ∧
      n.toNat = (if (decide ((s.pc + j) % 2 = 1) != s.big) = s.params.nibbleLowFirstInLittle
        then (s.codeByte ((s.pc + j) / 2)).toNat / 16
        else (s.codeByte ((s.pc + j) / 2)).toNat % 16))

/-! ## The step -/

/-- A step runs the decoded instruction: with `pc` on the instruction's last nibble, the step counted
and the jump flag clear, `exec` answers a state, and the step ends as spec/40_fetch_execute_loop.md
section 2 says: `pc` advances by one unless the instruction jumped or the run ended, and a fault or
a host failure leaves `status`, and what the host was asked, as the only change (D11, D26: log 22,
log 34; for `icount` and `jf` after a host failure log 45). -/
def Obligations.StepRunsTheDecodedInstruction : Prop :=
  ∀ (s : State) (i : Instr) (len : Nat),
    s.status = .running → s.icount < Config.budget →
    decode s.params s.big s.codeWindow = .instr i len →
    ∃ t, exec i { s with icount := s.icount + 1, pc := s.pc + len - 1, jf := false } = .next t ∧
      (t.status = .running → t.jf = false → step s = .next { t with pc := t.pc + 1 }) ∧
      (t.status = .running → t.jf = true → step s = .next t) ∧
      (t.status = .halted → step s = .next t) ∧
      (∀ c, t.status = .fault c → step s =
        .next { s with status := .fault c, hostLog := t.hostLog, hostReplies := t.hostReplies }) ∧
      (t.status = .hostFault → step s =
        .next { s with status := .hostFault, hostLog := t.hostLog, hostReplies := t.hostReplies })

/-- No instruction is refused and none stops the model: every one answers a next state in every
state (spec/40_fetch_execute_loop.md section 2, the last arm of `Execute` is total;
spec/30_encoding.md section 5). -/
def Obligations.EveryInstructionAnswersNext : Prop :=
  ∀ (i : Instr) (s : State), ∃ t, exec i s = .next t

/-- The faults that come before an instruction's own, whatever the stack holds. The budget is checked
first, before any fetch (D22, log 29). A fetch at or past the end of the code raises `CodeExhausted`
(D10, log 19): for the first nibble, for the second nibble of an extended opcode, and for any of the
four immediate nibbles of an `LI`, in its one-nibble and in its two-nibble form. So an `LI` that runs
out of code on a full stack raises `CodeExhausted` and not `StackOverflow` (R140, R122 item 3; the
order is D11, log 22). All leave everything but `status` as it was. -/
def Obligations.BudgetThenCodeEnd : Prop :=
  ∀ s : State, s.status = .running →
    (Config.budget ≤ s.icount → step s = .next { s with status := .fault .budgetExceeded }) ∧
    (s.icount < Config.budget → s.csSize.toNat ≤ s.pc / 2 →
      step s = .next { s with status := .fault .codeExhausted }) ∧
    (∀ n0 : Nibble, s.icount < Config.budget → s.fetchNibble s.pc = some n0 →
      n0.getLsbD 3 = true → s.csSize.toNat ≤ (s.pc + 1) / 2 →
      step s = .next { s with status := .fault .codeExhausted }) ∧
    (∀ n0 : Nibble, s.icount < Config.budget → s.fetchNibble s.pc = some n0 →
      n0.getLsbD 3 = false → n0.toNat = (opcodeOf s.params (.li 0)).toNat →
      s.csSize.toNat ≤ (s.pc + 4) / 2 →
      step s = .next { s with status := .fault .codeExhausted }) ∧
    (∀ n0 n1 : Nibble, s.icount < Config.budget → s.fetchNibble s.pc = some n0 →
      s.fetchNibble (s.pc + 1) = some n1 → n0.getLsbD 3 = true →
      n0.toNat % 8 + 8 * n1.toNat = (opcodeOf s.params (.li 0)).toNat →
      s.csSize.toNat ≤ (s.pc + 5) / 2 →
      step s = .next { s with status := .fault .codeExhausted })

/-- The run's status (R29): a run that has ended takes no step (the model's answer is the fault
`runEnded`, log 23); from a running state only `SYSCALL` with code 0 makes it `Halted`, and only
`SYSCALL` makes it `HostFault`, with `PUTC`, `GETC` or `OPEN`. -/
def Obligations.StatusChangesOnlyAsNamed : Prop :=
  State.reset.status = .running ∧
  (∀ s : State, s.status ≠ .running → step s = .fault .runEnded) ∧
  (∀ (i : Instr) (s t : State), LegalParameters s.params → s.status = .running →
    exec i s = .next t →
    (t.status = .halted → i = .syscall ∧ (s.top 0).toNat % 256 = 0) ∧
    (t.status = .hostFault → i = .syscall ∧
      (Requests .putc s ∨ Requests .getc s ∨ Requests .openFile s)))

/-- Faults are precise: a step that ends in a fault or in a host failure changes nothing but `status`
and what the host was asked, which is at most one call (spec/60_exceptions.md section 4; D11, log
22; that a host failure leaves `icount` and `jf` too is log 45). -/
def Obligations.FaultsArePrecise : Prop :=
  ∀ s t : State, step s = .next t →
    ((∃ c, t.status = .fault c) ∨ t.status = .hostFault) →
    t = { s with status := t.status, hostLog := t.hostLog, hostReplies := t.hostReplies } ∧
    (t.hostLog = s.hostLog ∧ t.hostReplies = s.hostReplies ∨
      ∃ c, t.hostLog = s.hostLog ++ [c] ∧ t.hostReplies = s.hostReplies.tail)

/-- The instruction counter (R30): 0 at reset; one more after every step that does not end in a
fault or host failure, as it was after one that does (D11, log 22; for a host failure log 45); and no
instruction can read it. -/
def Obligations.InstructionCounterCounts : Prop :=
  State.reset.icount = 0 ∧
  (∀ s t : State, step s = .next t →
    (t.status = .running ∨ t.status = .halted → t.icount = s.icount + 1) ∧
    ((∃ c, t.status = .fault c) ∨ t.status = .hostFault → t.icount = s.icount)) ∧
  (∀ (i : Instr) (s t : State) (n : Nat), exec i s = .next t →
    exec i { s with icount := n } = .next { t with icount := n })

/-- Every run ends, from any running state: after at most the steps the budget leaves and one more,
which faults (spec/40_fetch_execute_loop.md sections 2 and 4; the exact count is D22, log 29). -/
def Obligations.EveryRunEndsWithinTheBudget : Prop :=
  ∀ s : State, s.status = .running →
    ∃ k t, k ≤ (Config.budget - s.icount) + 1 ∧ EndsAt k s t

/-- Every step keeps the invariant (spec/10_state.md section 7): `sp` in 0 to 8192, `pc` and `icount`
in range, each memory canonical and inside its space, the parameters legal. -/
def Obligations.StepKeepsInvariant : Prop :=
  ∀ s t : State, Invariant s → step s = .next t → Invariant t

/-- The invariant holds at `State.reset`, whose configuration is the model's choice (log 5). -/
def Obligations.InvariantAtReset : Prop := Invariant State.reset

/-- Whatever image the loader accepts, on a machine with legal parameters, the start state has the
invariant, runs, and can fetch its first nibble (spec/70_reset_and_hazards.md section 2, R295, derived
there). -/
def Obligations.LoadedStateIsSound : Prop :=
  ∀ (c : Parameters) (image sData sGets : List Byte) (s : State), LegalParameters c →
    loadImage c image sData sGets = .started s →
    Invariant s ∧ s.status = .running ∧ 1 ≤ s.csSize.toNat ∧ (s.fetchNibble s.pc).isSome = true

/-- No step writes code (R71), the configuration of the run (R7, R28, R36, R52) or the parameters (R8):
they are after every step what they were before it. -/
def Obligations.CodeAndConfigurationConstant : Prop :=
  ∀ s t : State, step s = .next t →
    t.code = s.code ∧ t.big = s.big ∧ t.csSize = s.csSize ∧ t.dsSize = s.dsSize ∧
    t.extraLen = s.extraLen ∧ t.sGets = s.sGets ∧ t.params = s.params

/-- `aft`, `bur`, `con`, `dis` and `bp` are written only by their own move-to instruction and read
only by their own move-from instruction: any other instruction leaves the register, and does the
same whatever the register holds (spec/10_state.md section 1, R21, derived there). -/
def Obligations.RegistersPrivateToTheirMoves : Prop :=
  ∀ r ∈ plainRegs, ∀ (i : Instr) (s t : State), i ≠ popInstr r → exec i s = .next t →
    t.readReg r = s.readReg r ∧
    (i ≠ pushInstr r → ∀ v, exec i (s.writeReg r v) = .next (t.writeReg r v))

/-- Each kind of effect belongs to its instructions: only `SB` and `SW` write the data space and only
`SYSCALL` calls the host (spec/20_memory.md section 1, 10_state.md section 6). The other two clauses
are in the model's terms. Only `JMP`, `JZ` and `CALL` set `pc` or the jump flag while they execute:
`LI`, which by R140 moves `pc` over its immediate as it executes, has its nibbles read with the opcode
here (log 39). And only `SHL` and `SHR` advance `freeIdx`, the model's own counter of unspecified
shift results (log 2); a word that `LWS` reads from a slot nothing has written is unspecified too, but
it is a value of `Config.stackReset` (log 1) and is not counted. -/
def Obligations.EffectsBelongToTheirInstructions : Prop :=
  ∀ (i : Instr) (s t : State), exec i s = .next t →
    (i ≠ .sb → i ≠ .sw → t.data = s.data) ∧
    (i ≠ .syscall → NoHostCall s t) ∧
    (i ≠ .jmp → i ≠ .jz → i ≠ .call → NoJump s t) ∧
    (i ≠ .shl → i ≠ .shr → NoFreeValue s t)

/-- The data space is read only by `LB`, `LW` and `SYSCALL`: any other instruction but a store does
the same whatever the data space holds (spec/20_memory.md section 1). The stores are left out because
they change it; that they read nothing else of it is in `SbStoresByte` and `SwStoresWord`. -/
def Obligations.DataReadOnlyByItsInstructions : Prop :=
  ∀ (i : Instr) (s t : State) (m : Memory), i ∉ [.lb, .lw, .sb, .sw, .syscall] →
    exec i s = .next t → exec i { s with data := m } = .next { t with data := m }

/-! ## Operand faults -/

/-- `Need` (R116): an instruction whose operands are not there faults with `StackUnderflow` before it
does anything else. -/
def Obligations.TooFewOperandsUnderflow : Prop :=
  ∀ (i : Instr) (s : State), s.depth < wordsRead i → Raises .stackUnderflow i s

/-- `Room` (R117): an instruction that pushes onto the full stack, `sp = 8192`, ends the run with
`StackOverflow`, and on a stack of fewer words it goes on. The shared check says the same for a push
of any number of words. -/
def Obligations.PushOntoFullStackOverflows : Prop :=
  (∀ (imm : Word) (i : Instr) (s : State), i ∈ pushers imm → wordsRead i ≤ s.depth →
    (8192 ≤ s.depth → ∃ t, exec i s = .next t ∧ t.status = .fault .stackOverflow) ∧
    (s.depth < 8192 → ∃ t, exec i s = .next t ∧ t.status = s.status)) ∧
  (∀ (k : Nat) (s : State) (go : Result),
    (8192 < s.depth + k → ∃ t, room k s go = .next t ∧ t.status = .fault .stackOverflow) ∧
    (s.depth + k ≤ 8192 → room k s go = go))

/-! ## Immediate and memory -/

/-- `LI` pushes its immediate (R140; the place of the top is D3, log 8). -/
def Obligations.LiPushesImmediate : Prop :=
  ∀ (imm : Word) (s : State), s.depth < 8192 →
    ∃ t, exec (.li imm) s = .next t ∧ Pushed imm s t ∧ Plain s t

/-- The bounds of the loads (R57, R58): `LB` at a signed address inside `ds_size + extra_len`
completes and elsewhere raises `AccessViolation`; `LW` is held wholly inside `ds_size`. The signed
reading is D18, the place of the top D3, and that nothing else changes D11 (log 18, log 8, log
22). -/
def Obligations.LoadBounds : Prop :=
  ∀ s : State, 1 ≤ s.depth →
    (if 0 ≤ (s.top 0).toInt ∧ (s.top 0).toInt < s.dsSize.toNat + s.extraLen
      then ∃ t, exec .lb s = .next t ∧ t.status = s.status
      else Raises .accessViolation .lb s) ∧
    (if 0 ≤ (s.top 0).toInt ∧ (s.top 0).toInt + 1 < s.dsSize.toNat
      then ∃ t, exec .lw s = .next t ∧ t.status = s.status
      else Raises .accessViolation .lw s)

/-- `LB` replaces its address by the byte there, sign-extended if `LB_SIGN_EXTEND` and else
zero-extended (R142). -/
def Obligations.LbLoadsByte : Prop :=
  ∀ (s : State) (a : Nat), 1 ≤ s.depth → (s.top 0).toInt = a →
    a < s.dsSize.toNat + s.extraLen →
    ∃ t v, exec .lb s = .next t ∧ TopReplaced v s t ∧ Plain s t ∧
      v.toNat = (s.dataByte a).toNat +
        (if s.params.lbSignExtend = true ∧ 128 ≤ (s.dataByte a).toNat then 65280 else 0)

/-- `LW` replaces its address by the word there, in the mode's byte order, aligned or not (R143;
which byte is the low one in little mode is PRESUMED by the spec, log 40). -/
def Obligations.LwLoadsWord : Prop :=
  ∀ (s : State) (a : Nat), 1 ≤ s.depth → (s.top 0).toInt = a → a + 1 < s.dsSize.toNat →
    ∃ t v, exec .lw s = .next t ∧ TopReplaced v s t ∧ Plain s t ∧
      v.toNat = (if s.big
        then 256 * (s.dataByte a).toNat + (s.dataByte (a + 1)).toNat
        else 256 * (s.dataByte (a + 1)).toNat + (s.dataByte a).toNat)

/-- `SB` stores the low byte of its value at its address and removes both; an address outside
`ds_size`, widened by `extra_len` if `STORE_REACHES_EXTRA`, faults (R144, R59). Which operand is on top
is `STORE_VALUE_ON_TOP`. The signed reading is D18, the removal D17 (log 18, log 26). -/
def Obligations.SbStoresByte : Prop :=
  ∀ (s : State) (v w : Word) (limit : Nat), 2 ≤ s.depth →
    OperandPair s.params.storeValueOnTop v w s →
    limit = s.dsSize.toNat + (if s.params.storeReachesExtra then s.extraLen else 0) →
    (∀ a, accessAt w 1 limit = some a →
      ∃ t, exec .sb s = .next t ∧ t.depth = s.depth - 2 ∧ Plain s t ∧
        Frame [.sp] nowhere (· = a) s t ∧ w.toInt = a ∧ (t.dataByte a).toNat = v.toNat % 256) ∧
    (0 ≤ w.toInt → w.toInt < limit → ∃ a, accessAt w 1 limit = some a) ∧
    (¬ (0 ≤ w.toInt ∧ w.toInt < limit) → Raises .accessViolation .sb s)

/-- `SW` stores its value at its address, in the mode's byte order, and removes both; a word not wholly
inside `ds_size`, widened by `extra_len` if `STORE_REACHES_EXTRA`, faults (R145, R60). Which operand is
on top is `STORE_VALUE_ON_TOP`. The signed reading is D18, the removal D17 (log 18, log 26); little as
low byte first is PRESUMED (log 40). -/
def Obligations.SwStoresWord : Prop :=
  ∀ (s : State) (v w : Word) (limit : Nat), 2 ≤ s.depth →
    OperandPair s.params.storeValueOnTop v w s →
    limit = s.dsSize.toNat + (if s.params.storeReachesExtra then s.extraLen else 0) →
    (∀ a, accessAt w 2 limit = some a →
      ∃ t, exec .sw s = .next t ∧ t.depth = s.depth - 2 ∧ Plain s t ∧
        Frame [.sp] nowhere (fun b => b = a ∨ b = a + 1) s t ∧ w.toInt = a ∧
        (s.big = false → (t.dataByte a).toNat = v.toNat % 256 ∧
          (t.dataByte (a + 1)).toNat = v.toNat / 256) ∧
        (s.big = true → (t.dataByte a).toNat = v.toNat / 256 ∧
          (t.dataByte (a + 1)).toNat = v.toNat % 256)) ∧
    (0 ≤ w.toInt → w.toInt + 1 < limit → ∃ a, accessAt w 2 limit = some a) ∧
    (¬ (0 ≤ w.toInt ∧ w.toInt + 1 < limit) → Raises .accessViolation .sw s)

/-- A mixed-width access sees bytes (spec/20_memory.md section 2, the last sentence of R56, derived
there). What `SW` stores, `LW` at the same address reads back whole and `LB`, zero-extending, reads back
at either of its two bytes, in either mode. Two bytes written by two `SB`, the lower or the higher
first, are assembled by `LW` in the mode's order. Little as low byte first is PRESUMED (log 40). -/
def Obligations.StoredWordReadsBack : Prop :=
  (∀ (s t u : State) (x w : Word) (a : Nat), 2 ≤ s.depth →
    OperandPair s.params.storeValueOnTop x w s → w.toInt = a → a + 1 < s.dsSize.toNat →
    exec .sw s = .next t → 1 ≤ u.depth →
    u.data = t.data → u.big = t.big → u.dsSize = t.dsSize → u.extraLen = t.extraLen →
    ((u.top 0).toInt = a → ∃ v, exec .lw u = .next v ∧ v.top 0 = x) ∧
    (u.params.lbSignExtend = false →
      ((u.top 0).toInt = a → ∃ v, exec .lb u = .next v ∧
        (v.top 0).toNat = if s.big then x.toNat / 256 else x.toNat % 256) ∧
      ((u.top 0).toInt = a + 1 → ∃ v, exec .lb u = .next v ∧
        (v.top 0).toNat = if s.big then x.toNat % 256 else x.toNat / 256))) ∧
  (∀ (s t p q u : State) (x w y z : Word) (a : Nat),
    2 ≤ s.depth → OperandPair s.params.storeValueOnTop x w s → w.toInt = a →
    exec .sb s = .next t →
    2 ≤ p.depth → OperandPair p.params.storeValueOnTop y z p → z.toInt = a + 1 →
    exec .sb p = .next q →
    (p.data = t.data ∧ u.data = q.data ∨ s.data = q.data ∧ u.data = t.data) →
    a + 1 < s.dsSize.toNat → p.dsSize = s.dsSize → u.dsSize = s.dsSize →
    1 ≤ u.depth → (u.top 0).toInt = a →
    ∃ v, exec .lw u = .next v ∧
      (v.top 0).toNat = if u.big then 256 * (x.toNat % 256) + y.toNat % 256
        else 256 * (y.toNat % 256) + x.toNat % 256)

/-- The bound of stack-memory accesses (R61): a signed index in 0 to 8191 completes, and any other
raises `StackAccessViolation`. Where the index word of `SWS` lies is `STORE_VALUE_ON_TOP`. The signed
reading is D18 (log 18). -/
def Obligations.StackAccessBounds : Prop :=
  ∀ s : State,
    (1 ≤ s.depth → if 0 ≤ (s.top 0).toInt ∧ (s.top 0).toInt < 8192
      then ∃ t, exec .lws s = .next t ∧ t.status = s.status
      else Raises .stackAccessViolation .lws s) ∧
    (∀ v w : Word, 2 ≤ s.depth → OperandPair s.params.storeValueOnTop v w s →
      if 0 ≤ w.toInt ∧ w.toInt < 8192
      then ∃ t, exec .sws s = .next t ∧ t.status = s.status
      else Raises .stackAccessViolation .sws s)

/-- `LWS` replaces its index by the word in that slot, live or not, whatever `sp` is (R146; D17, log
26; a slot nothing has written holds a free value, log 1). -/
def Obligations.LwsReadsSlot : Prop :=
  ∀ (s : State) (i : Nat), 1 ≤ s.depth → (s.top 0).toInt = i → i < 8192 →
    ∃ t, exec .lws s = .next t ∧ TopReplaced (s.slot i) s t ∧ Plain s t

/-- `SWS` removes its operands and then writes the slot, which may be one of theirs (R147; D17, log
26). Which operand is on top is `STORE_VALUE_ON_TOP`. -/
def Obligations.SwsWritesSlot : Prop :=
  ∀ (s : State) (v w : Word), 2 ≤ s.depth → OperandPair s.params.storeValueOnTop v w s →
    ∀ i, stackIndex w = some i →
    ∃ t, exec .sws s = .next t ∧ t.depth = s.depth - 2 ∧ t.slot i = v ∧ w.toInt = i ∧
      Frame [.sp] (· = i) nowhere s t ∧ Plain s t

/-! ## Stack, arithmetic, logic, comparisons -/

/-- `POP` drops the top word, which stays in its slot, and `DUP` pushes a copy of it (R160, R161; the
slots are D3, log 8). -/
def Obligations.PopAndDup : Prop :=
  ∀ s : State, 1 ≤ s.depth →
    (∃ t, exec .pop s = .next t ∧ Dropped 1 s t ∧ Plain s t) ∧
    (s.depth < 8192 → ∃ t, exec .dup s = .next t ∧ Pushed (s.top 0) s t ∧ Plain s t)

/-- `ROT` swaps the top two words; `ROT3` brings the third word to the top, or, under the other value of
`ROT3_THIRD_TO_TOP`, takes the top word to the third place (R162, R163); and three of them restore the
stack. -/
def Obligations.RotAndRot3 : Prop :=
  ∀ s : State,
    (2 ≤ s.depth → ∃ t, exec .rot s = .next t ∧ t.sp = s.sp ∧ t.top 0 = s.top 1 ∧
      t.top 1 = s.top 0 ∧ Plain s t ∧
      Frame [] (fun j => j = s.depth - 1 ∨ j = s.depth - 2) nowhere s t) ∧
    (3 ≤ s.depth → ∃ t u v, exec .rot3 s = .next t ∧ t.sp = s.sp ∧ Plain s t ∧
      (if s.params.rot3ThirdToTop
        then t.top 0 = s.top 2 ∧ t.top 1 = s.top 0 ∧ t.top 2 = s.top 1
        else t.top 2 = s.top 0 ∧ t.top 0 = s.top 1 ∧ t.top 1 = s.top 2) ∧
      Frame [] (fun j => s.depth - 3 ≤ j ∧ j < s.depth) nowhere s t ∧
      exec .rot3 t = .next u ∧ exec .rot3 u = .next v ∧ ∀ j, v.slot j = s.slot j)

/-- `SALLOC` replaces its count `n` by `n + 1` zero words, so the depth grows by `n`; a count below
-1 underflows (D21, log 28) and one that does not fit overflows, with nothing written (R181). -/
def Obligations.SallocReservesZeros : Prop :=
  ∀ (s : State) (n : Int), 1 ≤ s.depth → (s.top 0).toInt = n →
    (-1 ≤ n → s.depth + n ≤ 8192 → ∃ t, exec .salloc s = .next t ∧ (t.depth : Int) = s.depth + n ∧
      (∀ j : Nat, s.depth - 1 ≤ j → (j : Int) < s.depth + n → t.slot j = 0) ∧ Plain s t ∧
      Frame [.sp] (fun j => s.depth - 1 ≤ j ∧ (j : Int) < s.depth + n) nowhere s t) ∧
    (n < -1 → Raises .stackUnderflow .salloc s) ∧
    (-1 ≤ n → 8192 < s.depth + n → Raises .stackOverflow .salloc s)

/-- `ADD`, `SUB` and `MUL` wrap modulo 65536, with the second word from the top on the left, and the
result is the same whether the words are read as signed or as unsigned (R164 to R166, R180; the
order of `SUB` is D12, log 25). -/
def Obligations.AddSubMulWrap : Prop :=
  ∀ s : State, 2 ≤ s.depth →
    (∃ t r, exec .add s = .next t ∧ PairReplaced r s t ∧ Plain s t ∧
      r.toNat = ((s.top 1).toNat + (s.top 0).toNat) % 65536 ∧
      (r.toInt - ((s.top 1).toInt + (s.top 0).toInt)) % 65536 = 0) ∧
    (∃ t r, exec .sub s = .next t ∧ PairReplaced r s t ∧ Plain s t ∧
      r.toNat = ((s.top 1).toNat + 65536 - (s.top 0).toNat) % 65536 ∧
      (r.toInt - ((s.top 1).toInt - (s.top 0).toInt)) % 65536 = 0) ∧
    (∃ t r, exec .mul s = .next t ∧ PairReplaced r s t ∧ Plain s t ∧
      r.toNat = ((s.top 1).toNat * (s.top 0).toNat) % 65536 ∧
      (r.toInt - (s.top 1).toInt * (s.top 0).toInt) % 65536 = 0)

/-- `DIV` rounds toward zero: the quotient and a remainder smaller than the divisor, on the side of
the dividend, make up the dividend. -32768 / -1 wraps to -32768 and a zero divisor faults with both
operands left (R167; D12, D23: log 25, log 30). -/
def Obligations.DivTruncatesTowardZero : Prop :=
  ∀ s : State, 2 ≤ s.depth →
    ((s.top 0).toInt = 0 → Raises .divideByZero .div s) ∧
    ((s.top 0).toInt ≠ 0 → ∃ t r, exec .div s = .next t ∧ PairReplaced r s t ∧ Plain s t ∧
      ((s.top 1).toInt = -32768 ∧ (s.top 0).toInt = -1 → r.toInt = -32768) ∧
      (¬ ((s.top 1).toInt = -32768 ∧ (s.top 0).toInt = -1) →
        ∃ m : Int, (s.top 1).toInt = r.toInt * (s.top 0).toInt + m ∧
          m.natAbs < ((s.top 0).toInt).natAbs ∧ 0 ≤ m * (s.top 1).toInt))

/-- `AND`, `OR`, `XOR` and `NOR` act bit by bit on the 16 bits (R168 to R171; that they do is from
general knowledge, log 40). -/
def Obligations.LogicActsBitByBit : Prop :=
  ∀ s : State, 2 ≤ s.depth → ∃ ta tr tx tn ra ro rx rn,
    exec .and s = .next ta ∧ PairReplaced ra s ta ∧ Plain s ta ∧
    exec .or s = .next tr ∧ PairReplaced ro s tr ∧ Plain s tr ∧
    exec .xor s = .next tx ∧ PairReplaced rx s tx ∧ Plain s tx ∧
    exec .nor s = .next tn ∧ PairReplaced rn s tn ∧ Plain s tn ∧
    ∀ k, k < 16 →
      ra.getLsbD k = ((s.top 1).getLsbD k && (s.top 0).getLsbD k) ∧
      ro.getLsbD k = ((s.top 1).getLsbD k || (s.top 0).getLsbD k) ∧
      rx.getLsbD k = ((s.top 1).getLsbD k != (s.top 0).getLsbD k) ∧
      rn.getLsbD k = !((s.top 1).getLsbD k || (s.top 0).getLsbD k)

/-- The shifts. By a count `k` in 0 to 15 `SHL` multiplies by a power of two modulo 65536, and `SHR`
divides the signed word and rounds toward minus infinity, or, if not `SHR_ARITHMETIC`, divides the
unsigned word (R172, R173; operand order D12, log 25). By any other count both complete, with the next
unspecified word as the result, whatever it is (log 2). -/
def Obligations.ShiftsComplete : Prop :=
  ∀ s : State, 2 ≤ s.depth →
    (∀ k : Nat, (s.top 0).toInt = k → k ≤ 15 →
      (∃ t r, exec .shl s = .next t ∧ PairReplaced r s t ∧ Plain s t ∧
        r.toNat = ((s.top 1).toNat * 2 ^ k) % 65536) ∧
      (∃ t r, exec .shr s = .next t ∧ PairReplaced r s t ∧ Plain s t ∧
        (if s.params.shrArithmetic
          then r.toInt * 2 ^ k ≤ (s.top 1).toInt ∧ (s.top 1).toInt < (r.toInt + 1) * 2 ^ k
          else r.toNat = (s.top 1).toNat / 2 ^ k))) ∧
    ((s.top 0).toInt < 0 ∨ 15 < (s.top 0).toInt → ∀ i ∈ [Instr.shl, Instr.shr],
      ∃ t, exec i s = .next t ∧ PairReplaced (Config.shiftOor s.freeIdx) s t ∧ NoJump s t ∧
        NoHostCall s t ∧ t.freeIdx = s.freeIdx + 1)

/-- `NOT` is logical: 1 for a zero word and 0 for any other (R174; the slot is D3, log 8). -/
def Obligations.NotIsLogical : Prop :=
  ∀ s : State, 1 ≤ s.depth →
    ∃ t, exec .not s = .next t ∧ TopReplaced (if (s.top 0).toNat = 0 then 1 else 0) s t ∧ Plain s t

/-- The comparisons (R184): signed, the second word from the top on the left, 1 when the relation
holds and 0 when it does not; no flag is written. -/
def Obligations.ComparisonsAreSigned : Prop :=
  ∀ (s : State) (a b : Int), 2 ≤ s.depth → (s.top 1).toInt = a → (s.top 0).toInt = b →
    (∃ t, exec .equ s = .next t ∧ PairReplaced (if a = b then 1 else 0) s t ∧ Plain s t) ∧
    (∃ t, exec .loe s = .next t ∧ PairReplaced (if a ≤ b then 1 else 0) s t ∧ Plain s t) ∧
    (∃ t, exec .goe s = .next t ∧ PairReplaced (if a ≥ b then 1 else 0) s t ∧ Plain s t) ∧
    (∃ t, exec .lt s = .next t ∧ PairReplaced (if a < b then 1 else 0) s t ∧ Plain s t) ∧
    (∃ t, exec .gt s = .next t ∧ PairReplaced (if a > b then 1 else 0) s t ∧ Plain s t)

/-! ## Control flow and register moves -/

/-- `JMP` goes to the absolute value of its target, which is removed; a target at or past the end of
the code faults (R200, R203; the absolute value of -32768 is D19, log 20). -/
def Obligations.JmpTakesAbsoluteValue : Prop :=
  ∀ s : State, 1 ≤ s.depth →
    ((s.top 0).toInt.natAbs < 2 * s.csSize.toNat → ∃ t, exec .jmp s = .next t ∧
      t.pc = (s.top 0).toInt.natAbs ∧ t.jf = true ∧ Dropped 1 s t ∧ NoHostCall s t ∧
      NoFreeValue s t) ∧
    (2 * s.csSize.toNat ≤ (s.top 0).toInt.natAbs → Raises .jumpTargetViolation .jmp s)

/-- `JZ` removes both operands, goes to the target when the condition is zero and falls through
otherwise; the target is validated only when the jump is taken (R201, R203; D32, log 37). Which operand
is on top is `JZ_COND_ON_TOP`, and whether the target is taken as it is or by its absolute value
`ABS_ONLY_JMP`. -/
def Obligations.JzJumpsOnZero : Prop :=
  ∀ (s : State) (cond w : Word) (target : Int), 2 ≤ s.depth →
    OperandPair s.params.jzCondOnTop cond w s →
    target = (if s.params.absOnlyJmp then w.toInt else (w.toInt.natAbs : Int)) →
    (cond.toNat ≠ 0 → ∃ t, exec .jz s = .next t ∧ Dropped 2 s t ∧ Plain s t) ∧
    (cond.toNat = 0 → 0 ≤ target → target < 2 * s.csSize.toNat →
      ∃ t, exec .jz s = .next t ∧ (t.pc : Int) = target ∧ t.jf = true ∧ Dropped 2 s t ∧
        NoHostCall s t ∧ NoFreeValue s t) ∧
    (cond.toNat = 0 → ¬ (0 ≤ target ∧ target < 2 * s.csSize.toNat) →
      Raises .jumpTargetViolation .jz s)

/-- `CALL` replaces its target by the return address `pc + 1` modulo 65536 and goes to the target,
taken as it is or, if not `ABS_ONLY_JMP`, by its absolute value (R202, R203; D9, log 21). -/
def Obligations.CallLeavesReturnAddress : Prop :=
  ∀ (s : State) (target : Int), 1 ≤ s.depth →
    target = (if s.params.absOnlyJmp then (s.top 0).toInt else ((s.top 0).toInt.natAbs : Int)) →
    (0 ≤ target → target < 2 * s.csSize.toNat → ∃ t v, exec .call s = .next t ∧
      (t.pc : Int) = target ∧ t.jf = true ∧ v.toNat = (s.pc + 1) % 65536 ∧
      TopReplaced v s t ∧ NoHostCall s t ∧ NoFreeValue s t) ∧
    (¬ (0 ≤ target ∧ target < 2 * s.csSize.toNat) → Raises .jumpTargetViolation .call s)

/-- A `JMP` on the word a `CALL` left resumes after the call when the return address is at most
32768; one of 32769 to 65535 leads, if anywhere, to 65536 less the address
(spec/43_control_and_registers.md section 1, R204, derived there). -/
def Obligations.JmpOnReturnAddressReturns : Prop :=
  ∀ s t u : State, 1 ≤ s.depth → exec .call s = .next t → s.status = .running →
    t.status = .running → 1 ≤ u.depth → u.top 0 = t.top 0 →
    (s.pc + 1 ≤ 32768 → s.pc + 1 < 2 * u.csSize.toNat →
      ∃ v, exec .jmp u = .next v ∧ v.pc = s.pc + 1 ∧ v.jf = true) ∧
    (32769 ≤ s.pc + 1 → s.pc + 1 ≤ 65535 → 65536 - (s.pc + 1) < 2 * u.csSize.toNat →
      ∃ v, exec .jmp u = .next v ∧ v.pc = 65536 - (s.pc + 1) ∧ v.jf = true)

/-- The register moves but `MOVE`: pop into the register, or push from it, all 16 bits kept
(R206 to R209, R211 to R217, R220; the indices are D29, `EMOV` pushing the depth before the push is
D20: log 27, log 35). -/
def Obligations.RegisterMoves : Prop :=
  ∀ (r : Reg) (s : State),
    (r ∈ plainRegs → 1 ≤ s.depth → ∃ t, exec (popInstr r) s = .next t ∧
      t.depth = s.depth - 1 ∧ t.readReg r = s.top 0 ∧ Frame [.sp, r] nowhere nowhere s t ∧
      Plain s t) ∧
    (s.depth < 8192 → ∃ t, exec (pushInstr r) s = .next t ∧ Pushed (s.readReg r) s t ∧ Plain s t)

/-- `MOVE` makes the top word the depth, whatever the depth was, when it is in 0 to 8192; below it
underflows and above it overflows (R210; D20, log 27). `EMOV` then `MOVE` restores `sp`, from the
empty stack too. -/
def Obligations.MoveSetsTheDepth : Prop :=
  ∀ s : State,
    (∀ v : Int, 1 ≤ s.depth → (s.top 0).toInt = v →
      (0 ≤ v → v ≤ 8192 → ∃ t, exec .move s = .next t ∧ (t.depth : Int) = v ∧
        Frame [.sp] nowhere nowhere s t ∧ Plain s t) ∧
      (v < 0 → Raises .stackUnderflow .move s) ∧
      (8192 < v → Raises .stackOverflow .move s)) ∧
    (s.depth < 8192 → ∃ t u, exec .emov s = .next t ∧ exec .move t = .next u ∧ u.sp = s.sp)

/-- `NOP` and every unassigned opcode change nothing at all; the step that runs them only counts and
advances `pc` (R218, R219). -/
def Obligations.NopAndUnassignedDoNothing : Prop :=
  ∀ (s : State) (i : Instr) (len : Nat), (i = .nop ∨ ∃ op, i = .unassigned op) →
    exec i s = .next s ∧
    (s.status = .running → s.icount < Config.budget →
      decode s.params s.big s.codeWindow = .instr i len →
      step s = .next { s with icount := s.icount + 1, jf := false, pc := s.pc + len })

/-! ## Syscalls

The code is the low byte of the top word, which stays where it is (R230). `Requests` says that it is
the number of a service under the state's own `SYSNUM`; where two services could share a number, the
parameters are asked to be legal. -/

/-- `HLT`, code 0, ends the run with everything else as it was, and the step leaves `pc` on the last
nibble of the `SYSCALL` (D26, log 34); `INFO` asks for a dump and changes nothing (R236, R239; D34, log
24). -/
def Obligations.HltEndsAndInfoOnlyDumps : Prop :=
  ∀ s : State, LegalParameters s.params → 1 ≤ s.depth →
    ((s.top 0).toNat % 256 = 0 →
      exec .syscall s = .next { s with status := .halted } ∧
      (∀ (s' : State) (len : Nat), s'.status = .running → s'.icount < Config.budget →
        decode s'.params s'.big s'.codeWindow = .instr .syscall len →
        s = { s' with icount := s'.icount + 1, pc := s'.pc + len - 1, jf := false } →
        step s' = .next { s with status := .halted })) ∧
    (Requests .info s →
      exec .syscall s = .next { s with hostLog := s.hostLog ++ [.dump] })

/-- `PUTC` sends the low byte of the second word and leaves both words; `GETC` pushes the byte the
host answers, zero-extended, over the code word (R237, R238; D33, log 33). -/
def Obligations.PutcSendsAndGetcReceives : Prop :=
  ∀ s : State, LegalParameters s.params →
    (2 ≤ s.depth → Requests .putc s → answeredOk s.hostAnswer = true →
      ∃ t b, exec .syscall s = .next t ∧ b.toNat = (s.top 1).toNat % 256 ∧
        OneHostCall (.emitByte b) s t ∧ t.sp = s.sp ∧ Frame [] nowhere nowhere s t ∧ NoJump s t ∧
        NoFreeValue s t) ∧
    (∀ b : Nat, 1 ≤ s.depth → s.depth < 8192 → Requests .getc s →
      s.hostAnswer = .ok b → b < 256 →
      ∃ t v, exec .syscall s = .next t ∧ v.toNat = b ∧ Pushed v s t ∧
        OneHostCall .requestByte s t ∧ NoJump s t ∧ NoFreeValue s t) ∧
    (1 ≤ s.depth → 8192 ≤ s.depth → Requests .getc s →
      (∃ b, s.hostAnswer = .ok b ∧ b < 256) →
      ∃ t, exec .syscall s = .next t ∧ t.status = .fault .stackOverflow ∧
        OneHostCall .requestByte s t)

/-- `GETS` removes the code word and the slot index `d` under it and copies at most 90 bytes of
`S_GETS`, one to a slot, zero-extended, from slot `d` downward; a slot outside the stack space
faults with `StackOverflow` (R240; D24, log 31). -/
def Obligations.GetsCopiesDownward : Prop :=
  ∀ (s : State) (len : Nat), LegalParameters s.params → 2 ≤ s.depth → Requests .gets s →
    len = min s.sGets.length 90 →
    (∀ d, stackIndex (s.top 1) = some d → len ≤ d + 1 →
      ∃ t, exec .syscall s = .next t ∧ t.depth = s.depth - 2 ∧ (s.top 1).toInt = d ∧
        (∀ k b, k < len → s.sGets[k]? = some b → (t.slot (d - k)).toNat = b.toNat) ∧
        Frame [.sp] (fun j => j ≤ d ∧ d < j + len) nowhere s t ∧ Plain s t) ∧
    ((s.top 1).toInt < 0 ∨ 8192 ≤ (s.top 1).toInt ∨ (s.top 1).toInt + 1 < len →
      Raises .stackOverflow .syscall s)

/-- `OPEN` reads a path up to its terminator, both inside the declared data segment, passes it and
the mode word to the host, and puts the handle in place of its three words (R241; D25, log 32). -/
def Obligations.OpenPushesHandle : Prop :=
  ∀ (s : State) (p : Nat) (path : List Byte) (h : Nat),
    LegalParameters s.params → 3 ≤ s.depth → s.depth ≤ 8192 → Requests .openFile s →
    (s.top 2).toInt = p →
    (∀ k b, path[k]? = some b → s.dataByte (p + k) = b ∧ b ≠ 0) →
    s.dataByte (p + path.length) = 0 → p + path.length < s.dsSize.toNat →
    s.hostAnswer = .ok h → h < 65536 →
    ∃ t, exec .syscall s = .next t ∧ t.depth = s.depth - 2 ∧ (t.top 0).toNat = h ∧
      OneHostCall (.openFile path (s.top 1)) s t ∧ NoJump s t ∧ NoFreeValue s t ∧
      Frame [.sp] (· = s.depth - 3) nowhere s t

/-- `CLOSE` removes the code word and the handle and ignores the answer; `FGETC` puts in their place
the byte read, or -1; `FPUTC` puts 0 or -1 in place of the code word, the handle and the value
(R242 to R244; the operand order of `FPUTC` is D25, log 32). An answer to `FGETC` that is no byte
counts as a failure and pushes -1 (log 44). -/
def Obligations.FileSyscallsComplete : Prop :=
  ∀ s : State, LegalParameters s.params → s.depth ≤ 8192 →
    (2 ≤ s.depth → Requests .closeFile s →
      ∃ t, exec .syscall s = .next t ∧ Dropped 2 s t ∧ OneHostCall (.closeFile (s.top 1)) s t ∧
        NoJump s t ∧ NoFreeValue s t) ∧
    (2 ≤ s.depth → Requests .fgetc s →
      ∃ t r, exec .syscall s = .next t ∧ PairReplaced r s t ∧ OneHostCall (.read1 (s.top 1)) s t ∧
        NoJump s t ∧ NoFreeValue s t ∧
        (∀ b : Nat, s.hostAnswer = .ok b → b < 256 → r.toNat = b) ∧
        (∀ v : Nat, s.hostAnswer = .ok v → 256 ≤ v → r.toInt = -1) ∧
        (s.hostAnswer = .fail → r.toInt = -1)) ∧
    (3 ≤ s.depth → Requests .fputc s →
      ∃ t b, exec .syscall s = .next t ∧ b.toNat = (s.top 2).toNat % 256 ∧
        t.depth = s.depth - 2 ∧ Frame [.sp] (· = s.depth - 3) nowhere s t ∧
        OneHostCall (.write1 (s.top 1) b) s t ∧ NoJump s t ∧ NoFreeValue s t ∧
        (∀ v, s.hostAnswer = .ok v → (t.top 0).toInt = 0) ∧
        (s.hostAnswer = .fail → (t.top 0).toInt = -1))

/-- Where `SYSCALL` stops the run: a code that is no service's raises `InvalidSyscall`; a service with
too few words raises `SyscallStackUnderflow`; a host that reports failure to `PUTC` or `GETC`, or answers
`GETC` with more than one byte, ends it as a host failure that leaves the core as it was (R232, R235,
R245, R246; log 44). -/
def Obligations.SyscallStops : Prop :=
  ∀ s : State, LegalParameters s.params → 1 ≤ s.depth →
    ((∀ v, ¬ Requests v s) → Raises .invalidSyscall .syscall s) ∧
    (∀ v ∈ [Service.putc, .gets, .closeFile, .fgetc], s.depth < 2 → Requests v s →
      Raises .syscallStackUnderflow .syscall s) ∧
    (∀ v ∈ [Service.openFile, .fputc], s.depth < 3 → Requests v s →
      Raises .syscallStackUnderflow .syscall s) ∧
    (2 ≤ s.depth → Requests .putc s → s.hostAnswer = .fail →
      ∃ t b, exec .syscall s = .next t ∧ b.toNat = (s.top 1).toNat % 256 ∧
        t = { s with
          status := .hostFault
          hostLog := s.hostLog ++ [.emitByte b]
          hostReplies := s.hostReplies.tail }) ∧
    (Requests .getc s → (s.hostAnswer = .fail ∨ ∃ v, s.hostAnswer = .ok v ∧ 256 ≤ v) →
      exec .syscall s = .next
        { s with
          status := .hostFault
          hostLog := s.hostLog ++ [.requestByte]
          hostReplies := s.hostReplies.tail })

/-- The four failures of `OPEN` all end the run as a host failure with nothing popped: a pointer
outside the declared data segment, no terminator in it, a host that reports failure, and a handle of
65536 or more; the host is asked in the last two only (R241; that each has this outcome is D25, log
32). -/
def Obligations.OpenFailuresEndTheRun : Prop :=
  ∀ s : State, LegalParameters s.params → 3 ≤ s.depth → Requests .openFile s →
    ((s.top 2).toInt < 0 ∨ s.dsSize.toNat ≤ (s.top 2).toInt →
      exec .syscall s = .next { s with status := .hostFault }) ∧
    (∀ p : Nat, (s.top 2).toInt = p →
      (∀ j, p ≤ j → j < s.dsSize.toNat → s.dataByte j ≠ 0) →
      exec .syscall s = .next { s with status := .hostFault }) ∧
    (∀ (p : Nat) (path : List Byte), (s.top 2).toInt = p →
      (∀ k b, path[k]? = some b → s.dataByte (p + k) = b ∧ b ≠ 0) →
      s.dataByte (p + path.length) = 0 → p + path.length < s.dsSize.toNat →
      (s.hostAnswer = .fail ∨ ∃ h, s.hostAnswer = .ok h ∧ 65536 ≤ h) →
      exec .syscall s = .next
        { s with
          status := .hostFault
          hostLog := s.hostLog ++ [.openFile path (s.top 1)]
          hostReplies := s.hostReplies.tail })

/-! ## The start of a run, and memories as data -/

/-- The start state of an accepted image, on a machine with any parameters (spec/10_state.md section 8
and 70_reset_and_hazards.md section 2). Each stack slot holds the free value the model has for it there (D5, log 1). The zero of
`sp` is D3 (log 8), that of the other registers, `jf` and `icount` D4 (log 7), the loader D31 (log
36). -/
def Obligations.LoaderMakesTheResetState : Prop :=
  ∀ (c : Parameters) (image sData sGets : List Byte) (s : State),
    loadImage c image sData sGets = .started s →
    s.params = c ∧ s.big = (imageByte image 4 == 0x11) ∧ s.csSize = imageWord image 5 ∧
    s.dsSize = imageWord image 7 ∧ s.pc = (imageWord image 13).toNat ∧
    s.extraLen = sData.length ∧ s.sGets = sGets ∧
    (∀ k, k < s.csSize.toNat → s.codeByte k = imageByte image (15 + k)) ∧
    (∀ k, k < (imageWord image 9).toNat →
      s.dataByte k = imageByte image (15 + s.csSize.toNat + k)) ∧
    (∀ k, (imageWord image 9).toNat ≤ k → k < s.dsSize.toNat → s.dataByte k = 0) ∧
    (∀ k b, sData[k]? = some b → s.dataByte (s.dsSize.toNat + k) = b) ∧
    (∀ i, s.slot i = Config.stackReset i) ∧
    (∀ r, s.readReg r = 0) ∧ s.status = .running ∧ s.icount = 0 ∧ s.jf = false

/-- The loader accepts exactly the images that pass the checks of spec/70_reset_and_hazards.md
section 2, and whatever it rejects it rejects by one of the five load errors (D31, log 36). -/
def Obligations.LoaderAcceptsExactly : Prop :=
  ∀ (c : Parameters) (image sData sGets : List Byte),
    (∃ s, loadImage c image sData sGets = .started s) ↔
      image.take 4 = [0x47, 0x4F, 0x56, 0x4D] ∧ 15 ≤ image.length ∧
      (imageByte image 4 = 0x10 ∨ imageByte image 4 = 0x11) ∧
      (imageWord image 9).toNat ≤ (imageWord image 7).toNat ∧
      (imageWord image 13).toNat / 2 < (imageWord image 5).toNat ∧
      15 + (imageWord image 5).toNat + (imageWord image 9).toNat ≤ image.length

/-- Equal memories are equal data: two canonical byte spaces that read alike everywhere are the same
list (the model's representation, log 38). -/
def Obligations.CanonicalMemoriesAreEqualData : Prop :=
  ∀ m n : Memory, Memory.wf m → Memory.wf n → (∀ a, Memory.read m a = Memory.read n a) → m = n

/-- The run result (R262): there is one exactly when the run has ended, and its sign tells the three
kinds of end apart, under every legal `STATUS`. -/
def Obligations.RunResultSignTellsTheEnd : Prop :=
  ∀ (c : Parameters) (st : Status), LegalParameters c →
    (runResult c.result st = none ↔ st = .running) ∧
    (∀ r, runResult c.result st = some r →
      (r = 0 ↔ st = .halted) ∧ (0 < r ↔ ∃ d, st = .fault d) ∧ (r < 0 ↔ st = .hostFault))
end

