-- ==== Sys2Proof/Laws/Cells.lean ====
section
/-! SUPPORT. Sparse storage: reading after a write, and the canonical form, which every operation
keeps. The read laws hold of any list, canonical or not. -/

namespace Sys2Proof.Machine

variable {α : Type}

/-! ## Reading after a write -/

theorem lookupCell_insertCell (m : List (Nat × α)) (a b : Nat) (v : α) :
    lookupCell (insertCell m a v) b = if b = a then some v else lookupCell m b := by
  induction m with
  | nil => simp [insertCell, lookupCell]
  | cons c m ih =>
    obtain ⟨k, u⟩ := c
    simp only [insertCell]
    split
    · simp [lookupCell]
    · split
      · subst_vars; simp only [lookupCell]; split <;> rfl
      · simp only [lookupCell, ih]
        by_cases h1 : b = k <;> by_cases h2 : b = a <;> simp_all

theorem lookupCell_eraseCell (m : List (Nat × α)) (a b : Nat) :
    lookupCell (eraseCell m a) b = if b = a then none else lookupCell m b := by
  induction m with
  | nil => simp [eraseCell, lookupCell]
  | cons c m ih =>
    obtain ⟨k, u⟩ := c
    simp only [eraseCell] at ih ⊢
    by_cases hk : k = a
    · subst hk
      simp only [List.filter_cons, bne_self_eq_false, Bool.false_eq_true, if_false, ih, lookupCell]
      by_cases hb : b = k <;> simp [hb]
    · have : (k != a) = true := by simpa using hk
      simp only [List.filter_cons, this, if_true, lookupCell, ih]
      by_cases hb : b = k
      · subst hb; simp [hk]
      · simp [hb]

/-- One byte read after one byte written, at the same offset or another. -/
theorem Memory.read_write (m : Memory) (a b : Nat) (v : Byte) :
    Memory.read (Memory.write m a v) b = if b = a then v else Memory.read m b := by
  unfold Memory.read Memory.write
  split
  · rw [lookupCell_eraseCell]; split <;> simp_all
  · rw [lookupCell_insertCell]; split <;> simp

/-! ## What an operation can list -/

theorem mem_insertCell {m : List (Nat × α)} {a : Nat} {v : α} {c : Nat × α}
    (h : c ∈ insertCell m a v) : c = (a, v) ∨ c ∈ m := by
  induction m with
  | nil => simpa [insertCell] using h
  | cons d m ih =>
    simp only [insertCell] at h
    split at h
    · simpa using h
    · split at h
      · rcases List.mem_cons.1 h with h | h
        · exact .inl h
        · exact .inr (List.mem_cons_of_mem _ h)
      · rcases List.mem_cons.1 h with h | h
        · exact .inr (h ▸ List.mem_cons_self)
        · exact (ih h).imp_right (List.mem_cons_of_mem _)

theorem mem_eraseCell {m : List (Nat × α)} {a : Nat} {c : Nat × α} (h : c ∈ eraseCell m a) :
    c ∈ m := (List.mem_filter.1 h).1

theorem Memory.mem_write {m : Memory} {a : Nat} {v : Byte} {c : Host.Cell}
    (h : c ∈ Memory.write m a v) : c.1 = a ∨ c ∈ m := by
  unfold Memory.write at h
  split at h
  · exact .inr (mem_eraseCell h)
  · exact (mem_insertCell h).imp_left fun e => by rw [e]

/-! ## The canonical form -/

theorem insertCell_rising {m : List (Nat × α)} (a : Nat) (v : α)
    (h : m.Pairwise (fun x y => x.1 < y.1)) :
    (insertCell m a v).Pairwise (fun x y => x.1 < y.1) := by
  induction m with
  | nil => simp [insertCell]
  | cons d m ih =>
    obtain ⟨k, u⟩ := d
    rw [List.pairwise_cons] at h
    simp only [insertCell]
    split
    · rename_i hak
      refine List.pairwise_cons.2 ⟨fun c hc => ?_, List.pairwise_cons.2 h⟩
      rcases List.mem_cons.1 hc with rfl | hc
      · exact hak
      · exact lt_trans hak (h.1 c hc)
    · split
      · subst_vars; exact List.pairwise_cons.2 ⟨h.1, h.2⟩
      · refine List.pairwise_cons.2 ⟨fun c hc => ?_, ih h.2⟩
        rcases mem_insertCell hc with rfl | hc
        · show k < a; omega
        · exact h.1 c hc

theorem eraseCell_rising {m : List (Nat × α)} (a : Nat)
    (h : m.Pairwise (fun x y => x.1 < y.1)) : (eraseCell m a).Pairwise (fun x y => x.1 < y.1) :=
  h.sublist List.filter_sublist

/-- A write keeps the canonical form of a byte space. -/
theorem Memory.wf_write {m : Memory} (a : Nat) (v : Byte) (h : Memory.wf m) :
    Memory.wf (Memory.write m a v) := by
  unfold Memory.write
  split
  · exact ⟨eraseCell_rising a h.1, fun c hc => h.2 c (mem_eraseCell hc)⟩
  · rename_i hv
    refine ⟨insertCell_rising a v h.1, fun c hc => ?_⟩
    rcases mem_insertCell hc with rfl | hc
    · exact hv
    · exact h.2 c hc

/-- A write keeps the canonical form of the stack space. -/
theorem StackSpace.wf_insert {m : StackSpace} (i : Nat) (v : Word) (h : StackSpace.wf m) :
    StackSpace.wf (insertCell m i v) := insertCell_rising i v h

theorem Memory.mem_ofBytes {base : Nat} {bs : List Byte} {c : Host.Cell}
    (h : c ∈ Memory.ofBytes base bs) : base ≤ c.1 ∧ c.1 < base + bs.length ∧ c.2 ≠ 0 := by
  induction bs generalizing base with
  | nil => simp [Memory.ofBytes] at h
  | cons b bs ih =>
    simp only [Memory.ofBytes] at h
    split at h
    · have := ih h
      exact ⟨by omega, by simp only [List.length_cons]; omega, this.2.2⟩
    · rename_i hb
      rcases List.mem_cons.1 h with rfl | h
      · exact ⟨le_refl _, by simp, hb⟩
      · have := ih h
        exact ⟨by omega, by simp only [List.length_cons]; omega, this.2.2⟩

/-- A byte string laid out is canonical. -/
theorem Memory.wf_ofBytes (base : Nat) (bs : List Byte) : Memory.wf (Memory.ofBytes base bs) := by
  refine ⟨?_, fun c hc => (Memory.mem_ofBytes hc).2.2⟩
  induction bs generalizing base with
  | nil => simp [Memory.ofBytes]
  | cons b bs ih =>
    simp only [Memory.ofBytes]
    split
    · exact ih _
    · exact List.pairwise_cons.2 ⟨fun c hc => by
        have := Memory.mem_ofBytes hc; show base < c.1; omega, ih _⟩

theorem lookupCell_of_all_ne {m : List (Nat × α)} {a : Nat} (h : ∀ c ∈ m, c.1 ≠ a) :
    lookupCell m a = none := by
  induction m with
  | nil => rfl
  | cons c m ih =>
    obtain ⟨k, u⟩ := c
    have hk : a ≠ k := fun e => h (k, u) List.mem_cons_self e.symm
    simp only [lookupCell, hk, if_false]
    exact ih fun c hc => h c (List.mem_cons_of_mem _ hc)

/-- What a byte string laid out reads as: its own bytes, and 0 elsewhere. -/
theorem Memory.read_ofBytes (base : Nat) (bs : List Byte) (a : Nat) :
    Memory.read (Memory.ofBytes base bs) a = if base ≤ a then bs.getD (a - base) 0 else 0 := by
  induction bs generalizing base with
  | nil => simp [Memory.ofBytes, Memory.read, lookupCell]
  | cons b bs ih =>
    have hlow : a < base + 1 → Memory.read (Memory.ofBytes (base + 1) bs) a = 0 := by
      intro h; rw [ih]; simp; omega
    simp only [Memory.ofBytes]
    by_cases ha : a = base
    · subst ha
      split
      · rename_i hb; rw [hlow (by omega)]; simp [hb]
      · simp [Memory.read, lookupCell]
    · have hrest : (if b = 0 then Memory.ofBytes (base + 1) bs
          else (base, b) :: Memory.ofBytes (base + 1) bs).read a =
          Memory.read (Memory.ofBytes (base + 1) bs) a := by
        split
        · rfl
        · simp [Memory.read, lookupCell, ha]
      rw [hrest, ih]
      by_cases h : base ≤ a
      · have h1 : base + 1 ≤ a := by omega
        obtain ⟨d, rfl⟩ : ∃ d, a = base + 1 + d := ⟨a - (base + 1), by omega⟩
        simp only [h1, h, if_true]
        rw [show base + 1 + d - (base + 1) = d by omega, show base + 1 + d - base = d + 1 by omega]
        simp
      · simp [h, show ¬ base + 1 ≤ a by omega]

/-- Reading from two byte spaces side by side: the first wins where it lists something. -/
theorem lookupCell_append (m n : List (Nat × α)) (a : Nat) :
    lookupCell (m ++ n) a = (lookupCell m a).or (lookupCell n a) := by
  induction m with
  | nil => simp [lookupCell]
  | cons c m ih =>
    obtain ⟨k, u⟩ := c
    simp only [List.cons_append, lookupCell]
    split
    · simp
    · exact ih

end Sys2Proof.Machine
end

