-- ==== Sys2Proof/Laws/State.lean ====
section
/-! SUPPORT. The field of each named update of a state, one lemma per field, true by `rfl`, so that no
proof unfolds a record update. -/

namespace Sys2Proof.Machine

variable (s : State)

/-! ### setSlot -/

@[simp] theorem State.setSlot_aft (i : Nat) (v : Word) : (s.setSlot i v).aft = s.aft := rfl
@[simp] theorem State.setSlot_bur (i : Nat) (v : Word) : (s.setSlot i v).bur = s.bur := rfl
@[simp] theorem State.setSlot_con (i : Nat) (v : Word) : (s.setSlot i v).con = s.con := rfl
@[simp] theorem State.setSlot_dis (i : Nat) (v : Word) : (s.setSlot i v).dis = s.dis := rfl
@[simp] theorem State.setSlot_sp (i : Nat) (v : Word) : (s.setSlot i v).sp = s.sp := rfl
@[simp] theorem State.setSlot_bp (i : Nat) (v : Word) : (s.setSlot i v).bp = s.bp := rfl
@[simp] theorem State.setSlot_pc (i : Nat) (v : Word) : (s.setSlot i v).pc = s.pc := rfl
@[simp] theorem State.setSlot_jf (i : Nat) (v : Word) : (s.setSlot i v).jf = s.jf := rfl
@[simp] theorem State.setSlot_big (i : Nat) (v : Word) : (s.setSlot i v).big = s.big := rfl
@[simp] theorem State.setSlot_csSize (i : Nat) (v : Word) : (s.setSlot i v).csSize = s.csSize := rfl
@[simp] theorem State.setSlot_dsSize (i : Nat) (v : Word) : (s.setSlot i v).dsSize = s.dsSize := rfl
@[simp] theorem State.setSlot_extraLen (i : Nat) (v : Word) :
    (s.setSlot i v).extraLen = s.extraLen := rfl
@[simp] theorem State.setSlot_status (i : Nat) (v : Word) : (s.setSlot i v).status = s.status := rfl
@[simp] theorem State.setSlot_icount (i : Nat) (v : Word) : (s.setSlot i v).icount = s.icount := rfl
@[simp] theorem State.setSlot_code (i : Nat) (v : Word) : (s.setSlot i v).code = s.code := rfl
@[simp] theorem State.setSlot_data (i : Nat) (v : Word) : (s.setSlot i v).data = s.data := rfl
@[simp] theorem State.setSlot_stack (i : Nat) (v : Word) :
    (s.setSlot i v).stack = insertCell s.stack i v := rfl
@[simp] theorem State.setSlot_sGets (i : Nat) (v : Word) : (s.setSlot i v).sGets = s.sGets := rfl
@[simp] theorem State.setSlot_params (i : Nat) (v : Word) : (s.setSlot i v).params = s.params := rfl
@[simp] theorem State.setSlot_freeIdx (i : Nat) (v : Word) :
    (s.setSlot i v).freeIdx = s.freeIdx := rfl
@[simp] theorem State.setSlot_hostLog (i : Nat) (v : Word) :
    (s.setSlot i v).hostLog = s.hostLog := rfl
@[simp] theorem State.setSlot_hostReplies (i : Nat) (v : Word) :
    (s.setSlot i v).hostReplies = s.hostReplies := rfl

/-! ### setDepth -/

@[simp] theorem State.setDepth_aft (n : Nat) : (s.setDepth n).aft = s.aft := rfl
@[simp] theorem State.setDepth_bur (n : Nat) : (s.setDepth n).bur = s.bur := rfl
@[simp] theorem State.setDepth_con (n : Nat) : (s.setDepth n).con = s.con := rfl
@[simp] theorem State.setDepth_dis (n : Nat) : (s.setDepth n).dis = s.dis := rfl
@[simp] theorem State.setDepth_sp (n : Nat) : (s.setDepth n).sp = BitVec.ofNat 16 n := rfl
@[simp] theorem State.setDepth_bp (n : Nat) : (s.setDepth n).bp = s.bp := rfl
@[simp] theorem State.setDepth_pc (n : Nat) : (s.setDepth n).pc = s.pc := rfl
@[simp] theorem State.setDepth_jf (n : Nat) : (s.setDepth n).jf = s.jf := rfl
@[simp] theorem State.setDepth_big (n : Nat) : (s.setDepth n).big = s.big := rfl
@[simp] theorem State.setDepth_csSize (n : Nat) : (s.setDepth n).csSize = s.csSize := rfl
@[simp] theorem State.setDepth_dsSize (n : Nat) : (s.setDepth n).dsSize = s.dsSize := rfl
@[simp] theorem State.setDepth_extraLen (n : Nat) : (s.setDepth n).extraLen = s.extraLen := rfl
@[simp] theorem State.setDepth_status (n : Nat) : (s.setDepth n).status = s.status := rfl
@[simp] theorem State.setDepth_icount (n : Nat) : (s.setDepth n).icount = s.icount := rfl
@[simp] theorem State.setDepth_code (n : Nat) : (s.setDepth n).code = s.code := rfl
@[simp] theorem State.setDepth_data (n : Nat) : (s.setDepth n).data = s.data := rfl
@[simp] theorem State.setDepth_stack (n : Nat) : (s.setDepth n).stack = s.stack := rfl
@[simp] theorem State.setDepth_sGets (n : Nat) : (s.setDepth n).sGets = s.sGets := rfl
@[simp] theorem State.setDepth_params (n : Nat) : (s.setDepth n).params = s.params := rfl
@[simp] theorem State.setDepth_freeIdx (n : Nat) : (s.setDepth n).freeIdx = s.freeIdx := rfl
@[simp] theorem State.setDepth_hostLog (n : Nat) : (s.setDepth n).hostLog = s.hostLog := rfl
@[simp] theorem State.setDepth_hostReplies (n : Nat) :
    (s.setDepth n).hostReplies = s.hostReplies := rfl

/-! ### setTop -/

@[simp] theorem State.setTop_aft (i : Nat) (v : Word) : (s.setTop i v).aft = s.aft := rfl
@[simp] theorem State.setTop_bur (i : Nat) (v : Word) : (s.setTop i v).bur = s.bur := rfl
@[simp] theorem State.setTop_con (i : Nat) (v : Word) : (s.setTop i v).con = s.con := rfl
@[simp] theorem State.setTop_dis (i : Nat) (v : Word) : (s.setTop i v).dis = s.dis := rfl
@[simp] theorem State.setTop_sp (i : Nat) (v : Word) : (s.setTop i v).sp = s.sp := rfl
@[simp] theorem State.setTop_bp (i : Nat) (v : Word) : (s.setTop i v).bp = s.bp := rfl
@[simp] theorem State.setTop_pc (i : Nat) (v : Word) : (s.setTop i v).pc = s.pc := rfl
@[simp] theorem State.setTop_jf (i : Nat) (v : Word) : (s.setTop i v).jf = s.jf := rfl
@[simp] theorem State.setTop_big (i : Nat) (v : Word) : (s.setTop i v).big = s.big := rfl
@[simp] theorem State.setTop_csSize (i : Nat) (v : Word) : (s.setTop i v).csSize = s.csSize := rfl
@[simp] theorem State.setTop_dsSize (i : Nat) (v : Word) : (s.setTop i v).dsSize = s.dsSize := rfl
@[simp] theorem State.setTop_extraLen (i : Nat) (v : Word) :
    (s.setTop i v).extraLen = s.extraLen := rfl
@[simp] theorem State.setTop_status (i : Nat) (v : Word) : (s.setTop i v).status = s.status := rfl
@[simp] theorem State.setTop_icount (i : Nat) (v : Word) : (s.setTop i v).icount = s.icount := rfl
@[simp] theorem State.setTop_code (i : Nat) (v : Word) : (s.setTop i v).code = s.code := rfl
@[simp] theorem State.setTop_data (i : Nat) (v : Word) : (s.setTop i v).data = s.data := rfl
@[simp] theorem State.setTop_stack (i : Nat) (v : Word) :
    (s.setTop i v).stack = insertCell s.stack (s.depth - 1 - i) v := rfl
@[simp] theorem State.setTop_sGets (i : Nat) (v : Word) : (s.setTop i v).sGets = s.sGets := rfl
@[simp] theorem State.setTop_params (i : Nat) (v : Word) : (s.setTop i v).params = s.params := rfl
@[simp] theorem State.setTop_freeIdx (i : Nat) (v : Word) :
    (s.setTop i v).freeIdx = s.freeIdx := rfl
@[simp] theorem State.setTop_hostLog (i : Nat) (v : Word) :
    (s.setTop i v).hostLog = s.hostLog := rfl
@[simp] theorem State.setTop_hostReplies (i : Nat) (v : Word) :
    (s.setTop i v).hostReplies = s.hostReplies := rfl

/-! ### drop -/

@[simp] theorem State.drop_aft (k : Nat) : (s.drop k).aft = s.aft := rfl
@[simp] theorem State.drop_bur (k : Nat) : (s.drop k).bur = s.bur := rfl
@[simp] theorem State.drop_con (k : Nat) : (s.drop k).con = s.con := rfl
@[simp] theorem State.drop_dis (k : Nat) : (s.drop k).dis = s.dis := rfl
@[simp] theorem State.drop_sp (k : Nat) : (s.drop k).sp = BitVec.ofNat 16 (s.depth - k) := rfl
@[simp] theorem State.drop_bp (k : Nat) : (s.drop k).bp = s.bp := rfl
@[simp] theorem State.drop_pc (k : Nat) : (s.drop k).pc = s.pc := rfl
@[simp] theorem State.drop_jf (k : Nat) : (s.drop k).jf = s.jf := rfl
@[simp] theorem State.drop_big (k : Nat) : (s.drop k).big = s.big := rfl
@[simp] theorem State.drop_csSize (k : Nat) : (s.drop k).csSize = s.csSize := rfl
@[simp] theorem State.drop_dsSize (k : Nat) : (s.drop k).dsSize = s.dsSize := rfl
@[simp] theorem State.drop_extraLen (k : Nat) : (s.drop k).extraLen = s.extraLen := rfl
@[simp] theorem State.drop_status (k : Nat) : (s.drop k).status = s.status := rfl
@[simp] theorem State.drop_icount (k : Nat) : (s.drop k).icount = s.icount := rfl
@[simp] theorem State.drop_code (k : Nat) : (s.drop k).code = s.code := rfl
@[simp] theorem State.drop_data (k : Nat) : (s.drop k).data = s.data := rfl
@[simp] theorem State.drop_stack (k : Nat) : (s.drop k).stack = s.stack := rfl
@[simp] theorem State.drop_sGets (k : Nat) : (s.drop k).sGets = s.sGets := rfl
@[simp] theorem State.drop_params (k : Nat) : (s.drop k).params = s.params := rfl
@[simp] theorem State.drop_freeIdx (k : Nat) : (s.drop k).freeIdx = s.freeIdx := rfl
@[simp] theorem State.drop_hostLog (k : Nat) : (s.drop k).hostLog = s.hostLog := rfl
@[simp] theorem State.drop_hostReplies (k : Nat) : (s.drop k).hostReplies = s.hostReplies := rfl

/-! ### pushed -/

@[simp] theorem State.pushed_aft (v : Word) : (s.pushed v).aft = s.aft := rfl
@[simp] theorem State.pushed_bur (v : Word) : (s.pushed v).bur = s.bur := rfl
@[simp] theorem State.pushed_con (v : Word) : (s.pushed v).con = s.con := rfl
@[simp] theorem State.pushed_dis (v : Word) : (s.pushed v).dis = s.dis := rfl
@[simp] theorem State.pushed_sp (v : Word) : (s.pushed v).sp = BitVec.ofNat 16 (s.depth + 1) := rfl
@[simp] theorem State.pushed_bp (v : Word) : (s.pushed v).bp = s.bp := rfl
@[simp] theorem State.pushed_pc (v : Word) : (s.pushed v).pc = s.pc := rfl
@[simp] theorem State.pushed_jf (v : Word) : (s.pushed v).jf = s.jf := rfl
@[simp] theorem State.pushed_big (v : Word) : (s.pushed v).big = s.big := rfl
@[simp] theorem State.pushed_csSize (v : Word) : (s.pushed v).csSize = s.csSize := rfl
@[simp] theorem State.pushed_dsSize (v : Word) : (s.pushed v).dsSize = s.dsSize := rfl
@[simp] theorem State.pushed_extraLen (v : Word) : (s.pushed v).extraLen = s.extraLen := rfl
@[simp] theorem State.pushed_status (v : Word) : (s.pushed v).status = s.status := rfl
@[simp] theorem State.pushed_icount (v : Word) : (s.pushed v).icount = s.icount := rfl
@[simp] theorem State.pushed_code (v : Word) : (s.pushed v).code = s.code := rfl
@[simp] theorem State.pushed_data (v : Word) : (s.pushed v).data = s.data := rfl
@[simp] theorem State.pushed_stack (v : Word) :
    (s.pushed v).stack = insertCell s.stack s.depth v := rfl
@[simp] theorem State.pushed_sGets (v : Word) : (s.pushed v).sGets = s.sGets := rfl
@[simp] theorem State.pushed_params (v : Word) : (s.pushed v).params = s.params := rfl
@[simp] theorem State.pushed_freeIdx (v : Word) : (s.pushed v).freeIdx = s.freeIdx := rfl
@[simp] theorem State.pushed_hostLog (v : Word) : (s.pushed v).hostLog = s.hostLog := rfl
@[simp] theorem State.pushed_hostReplies (v : Word) :
    (s.pushed v).hostReplies = s.hostReplies := rfl

/-! ### replacePair -/

@[simp] theorem State.replacePair_aft (r : Word) : (s.replacePair r).aft = s.aft := rfl
@[simp] theorem State.replacePair_bur (r : Word) : (s.replacePair r).bur = s.bur := rfl
@[simp] theorem State.replacePair_con (r : Word) : (s.replacePair r).con = s.con := rfl
@[simp] theorem State.replacePair_dis (r : Word) : (s.replacePair r).dis = s.dis := rfl
@[simp] theorem State.replacePair_sp (r : Word) :
    (s.replacePair r).sp = BitVec.ofNat 16 (s.depth - 1) := rfl
@[simp] theorem State.replacePair_bp (r : Word) : (s.replacePair r).bp = s.bp := rfl
@[simp] theorem State.replacePair_pc (r : Word) : (s.replacePair r).pc = s.pc := rfl
@[simp] theorem State.replacePair_jf (r : Word) : (s.replacePair r).jf = s.jf := rfl
@[simp] theorem State.replacePair_big (r : Word) : (s.replacePair r).big = s.big := rfl
@[simp] theorem State.replacePair_csSize (r : Word) : (s.replacePair r).csSize = s.csSize := rfl
@[simp] theorem State.replacePair_dsSize (r : Word) : (s.replacePair r).dsSize = s.dsSize := rfl
@[simp] theorem State.replacePair_extraLen (r : Word) :
    (s.replacePair r).extraLen = s.extraLen := rfl
@[simp] theorem State.replacePair_status (r : Word) : (s.replacePair r).status = s.status := rfl
@[simp] theorem State.replacePair_icount (r : Word) : (s.replacePair r).icount = s.icount := rfl
@[simp] theorem State.replacePair_code (r : Word) : (s.replacePair r).code = s.code := rfl
@[simp] theorem State.replacePair_data (r : Word) : (s.replacePair r).data = s.data := rfl
@[simp] theorem State.replacePair_sGets (r : Word) : (s.replacePair r).sGets = s.sGets := rfl
@[simp] theorem State.replacePair_params (r : Word) : (s.replacePair r).params = s.params := rfl
@[simp] theorem State.replacePair_freeIdx (r : Word) : (s.replacePair r).freeIdx = s.freeIdx := rfl
@[simp] theorem State.replacePair_hostLog (r : Word) : (s.replacePair r).hostLog = s.hostLog := rfl
@[simp] theorem State.replacePair_hostReplies (r : Word) :
    (s.replacePair r).hostReplies = s.hostReplies := rfl

/-! ### memWrite1 -/

@[simp] theorem State.memWrite1_aft (a : Nat) (v : Word) : (s.memWrite1 a v).aft = s.aft := rfl
@[simp] theorem State.memWrite1_bur (a : Nat) (v : Word) : (s.memWrite1 a v).bur = s.bur := rfl
@[simp] theorem State.memWrite1_con (a : Nat) (v : Word) : (s.memWrite1 a v).con = s.con := rfl
@[simp] theorem State.memWrite1_dis (a : Nat) (v : Word) : (s.memWrite1 a v).dis = s.dis := rfl
@[simp] theorem State.memWrite1_sp (a : Nat) (v : Word) : (s.memWrite1 a v).sp = s.sp := rfl
@[simp] theorem State.memWrite1_bp (a : Nat) (v : Word) : (s.memWrite1 a v).bp = s.bp := rfl
@[simp] theorem State.memWrite1_pc (a : Nat) (v : Word) : (s.memWrite1 a v).pc = s.pc := rfl
@[simp] theorem State.memWrite1_jf (a : Nat) (v : Word) : (s.memWrite1 a v).jf = s.jf := rfl
@[simp] theorem State.memWrite1_big (a : Nat) (v : Word) : (s.memWrite1 a v).big = s.big := rfl
@[simp] theorem State.memWrite1_csSize (a : Nat) (v : Word) :
    (s.memWrite1 a v).csSize = s.csSize := rfl
@[simp] theorem State.memWrite1_dsSize (a : Nat) (v : Word) :
    (s.memWrite1 a v).dsSize = s.dsSize := rfl
@[simp] theorem State.memWrite1_extraLen (a : Nat) (v : Word) :
    (s.memWrite1 a v).extraLen = s.extraLen := rfl
@[simp] theorem State.memWrite1_status (a : Nat) (v : Word) :
    (s.memWrite1 a v).status = s.status := rfl
@[simp] theorem State.memWrite1_icount (a : Nat) (v : Word) :
    (s.memWrite1 a v).icount = s.icount := rfl
@[simp] theorem State.memWrite1_code (a : Nat) (v : Word) : (s.memWrite1 a v).code = s.code := rfl
@[simp] theorem State.memWrite1_data (a : Nat) (v : Word) :
    (s.memWrite1 a v).data = Memory.write s.data a (lowByte v) := rfl
@[simp] theorem State.memWrite1_stack (a : Nat) (v : Word) :
    (s.memWrite1 a v).stack = s.stack := rfl
@[simp] theorem State.memWrite1_sGets (a : Nat) (v : Word) :
    (s.memWrite1 a v).sGets = s.sGets := rfl
@[simp] theorem State.memWrite1_params (a : Nat) (v : Word) :
    (s.memWrite1 a v).params = s.params := rfl
@[simp] theorem State.memWrite1_freeIdx (a : Nat) (v : Word) :
    (s.memWrite1 a v).freeIdx = s.freeIdx := rfl
@[simp] theorem State.memWrite1_hostLog (a : Nat) (v : Word) :
    (s.memWrite1 a v).hostLog = s.hostLog := rfl
@[simp] theorem State.memWrite1_hostReplies (a : Nat) (v : Word) :
    (s.memWrite1 a v).hostReplies = s.hostReplies := rfl

/-! ### memWrite2 -/

@[simp] theorem State.memWrite2_aft (a : Nat) (v : Word) : (s.memWrite2 a v).aft = s.aft := by
  unfold State.memWrite2; split <;> rfl
@[simp] theorem State.memWrite2_bur (a : Nat) (v : Word) : (s.memWrite2 a v).bur = s.bur := by
  unfold State.memWrite2; split <;> rfl
@[simp] theorem State.memWrite2_con (a : Nat) (v : Word) : (s.memWrite2 a v).con = s.con := by
  unfold State.memWrite2; split <;> rfl
@[simp] theorem State.memWrite2_dis (a : Nat) (v : Word) : (s.memWrite2 a v).dis = s.dis := by
  unfold State.memWrite2; split <;> rfl
@[simp] theorem State.memWrite2_sp (a : Nat) (v : Word) : (s.memWrite2 a v).sp = s.sp := by
  unfold State.memWrite2; split <;> rfl
@[simp] theorem State.memWrite2_bp (a : Nat) (v : Word) : (s.memWrite2 a v).bp = s.bp := by
  unfold State.memWrite2; split <;> rfl
@[simp] theorem State.memWrite2_pc (a : Nat) (v : Word) : (s.memWrite2 a v).pc = s.pc := by
  unfold State.memWrite2; split <;> rfl
@[simp] theorem State.memWrite2_jf (a : Nat) (v : Word) : (s.memWrite2 a v).jf = s.jf := by
  unfold State.memWrite2; split <;> rfl
@[simp] theorem State.memWrite2_big (a : Nat) (v : Word) : (s.memWrite2 a v).big = s.big := by
  unfold State.memWrite2; split <;> rfl
@[simp] theorem State.memWrite2_csSize (a : Nat) (v : Word) :
    (s.memWrite2 a v).csSize = s.csSize := by
  unfold State.memWrite2; split <;> rfl
@[simp] theorem State.memWrite2_dsSize (a : Nat) (v : Word) :
    (s.memWrite2 a v).dsSize = s.dsSize := by
  unfold State.memWrite2; split <;> rfl
@[simp] theorem State.memWrite2_extraLen (a : Nat) (v : Word) :
    (s.memWrite2 a v).extraLen = s.extraLen := by
  unfold State.memWrite2; split <;> rfl
@[simp] theorem State.memWrite2_status (a : Nat) (v : Word) :
    (s.memWrite2 a v).status = s.status := by
  unfold State.memWrite2; split <;> rfl
@[simp] theorem State.memWrite2_icount (a : Nat) (v : Word) :
    (s.memWrite2 a v).icount = s.icount := by
  unfold State.memWrite2; split <;> rfl
@[simp] theorem State.memWrite2_code (a : Nat) (v : Word) : (s.memWrite2 a v).code = s.code := by
  unfold State.memWrite2; split <;> rfl
@[simp] theorem State.memWrite2_stack (a : Nat) (v : Word) : (s.memWrite2 a v).stack = s.stack := by
  unfold State.memWrite2; split <;> rfl
@[simp] theorem State.memWrite2_sGets (a : Nat) (v : Word) : (s.memWrite2 a v).sGets = s.sGets := by
  unfold State.memWrite2; split <;> rfl
@[simp] theorem State.memWrite2_params (a : Nat) (v : Word) : (s.memWrite2 a v).params = s.params := by
  unfold State.memWrite2; split <;> rfl
@[simp] theorem State.memWrite2_freeIdx (a : Nat) (v : Word) :
    (s.memWrite2 a v).freeIdx = s.freeIdx := by
  unfold State.memWrite2; split <;> rfl
@[simp] theorem State.memWrite2_hostLog (a : Nat) (v : Word) :
    (s.memWrite2 a v).hostLog = s.hostLog := by
  unfold State.memWrite2; split <;> rfl
@[simp] theorem State.memWrite2_hostReplies (a : Nat) (v : Word) :
    (s.memWrite2 a v).hostReplies = s.hostReplies := by
  unfold State.memWrite2; split <;> rfl

/-! ### jumpTo -/

@[simp] theorem State.jumpTo_aft (t : Nat) : (s.jumpTo t).aft = s.aft := rfl
@[simp] theorem State.jumpTo_bur (t : Nat) : (s.jumpTo t).bur = s.bur := rfl
@[simp] theorem State.jumpTo_con (t : Nat) : (s.jumpTo t).con = s.con := rfl
@[simp] theorem State.jumpTo_dis (t : Nat) : (s.jumpTo t).dis = s.dis := rfl
@[simp] theorem State.jumpTo_sp (t : Nat) : (s.jumpTo t).sp = s.sp := rfl
@[simp] theorem State.jumpTo_bp (t : Nat) : (s.jumpTo t).bp = s.bp := rfl
@[simp] theorem State.jumpTo_pc (t : Nat) : (s.jumpTo t).pc = t := rfl
@[simp] theorem State.jumpTo_jf (t : Nat) : (s.jumpTo t).jf = true := rfl
@[simp] theorem State.jumpTo_big (t : Nat) : (s.jumpTo t).big = s.big := rfl
@[simp] theorem State.jumpTo_csSize (t : Nat) : (s.jumpTo t).csSize = s.csSize := rfl
@[simp] theorem State.jumpTo_dsSize (t : Nat) : (s.jumpTo t).dsSize = s.dsSize := rfl
@[simp] theorem State.jumpTo_extraLen (t : Nat) : (s.jumpTo t).extraLen = s.extraLen := rfl
@[simp] theorem State.jumpTo_status (t : Nat) : (s.jumpTo t).status = s.status := rfl
@[simp] theorem State.jumpTo_icount (t : Nat) : (s.jumpTo t).icount = s.icount := rfl
@[simp] theorem State.jumpTo_code (t : Nat) : (s.jumpTo t).code = s.code := rfl
@[simp] theorem State.jumpTo_data (t : Nat) : (s.jumpTo t).data = s.data := rfl
@[simp] theorem State.jumpTo_stack (t : Nat) : (s.jumpTo t).stack = s.stack := rfl
@[simp] theorem State.jumpTo_sGets (t : Nat) : (s.jumpTo t).sGets = s.sGets := rfl
@[simp] theorem State.jumpTo_params (t : Nat) : (s.jumpTo t).params = s.params := rfl
@[simp] theorem State.jumpTo_freeIdx (t : Nat) : (s.jumpTo t).freeIdx = s.freeIdx := rfl
@[simp] theorem State.jumpTo_hostLog (t : Nat) : (s.jumpTo t).hostLog = s.hostLog := rfl
@[simp] theorem State.jumpTo_hostReplies (t : Nat) : (s.jumpTo t).hostReplies = s.hostReplies := rfl

/-! ### beginStep -/

@[simp] theorem State.beginStep_aft (last : Nat) : (s.beginStep last).aft = s.aft := rfl
@[simp] theorem State.beginStep_bur (last : Nat) : (s.beginStep last).bur = s.bur := rfl
@[simp] theorem State.beginStep_con (last : Nat) : (s.beginStep last).con = s.con := rfl
@[simp] theorem State.beginStep_dis (last : Nat) : (s.beginStep last).dis = s.dis := rfl
@[simp] theorem State.beginStep_sp (last : Nat) : (s.beginStep last).sp = s.sp := rfl
@[simp] theorem State.beginStep_bp (last : Nat) : (s.beginStep last).bp = s.bp := rfl
@[simp] theorem State.beginStep_pc (last : Nat) : (s.beginStep last).pc = last := rfl
@[simp] theorem State.beginStep_jf (last : Nat) : (s.beginStep last).jf = false := rfl
@[simp] theorem State.beginStep_big (last : Nat) : (s.beginStep last).big = s.big := rfl
@[simp] theorem State.beginStep_csSize (last : Nat) : (s.beginStep last).csSize = s.csSize := rfl
@[simp] theorem State.beginStep_dsSize (last : Nat) : (s.beginStep last).dsSize = s.dsSize := rfl
@[simp] theorem State.beginStep_extraLen (last : Nat) :
    (s.beginStep last).extraLen = s.extraLen := rfl
@[simp] theorem State.beginStep_status (last : Nat) : (s.beginStep last).status = s.status := rfl
@[simp] theorem State.beginStep_icount (last : Nat) :
    (s.beginStep last).icount = s.icount + 1 := rfl
@[simp] theorem State.beginStep_code (last : Nat) : (s.beginStep last).code = s.code := rfl
@[simp] theorem State.beginStep_data (last : Nat) : (s.beginStep last).data = s.data := rfl
@[simp] theorem State.beginStep_stack (last : Nat) : (s.beginStep last).stack = s.stack := rfl
@[simp] theorem State.beginStep_sGets (last : Nat) : (s.beginStep last).sGets = s.sGets := rfl
@[simp] theorem State.beginStep_params (last : Nat) : (s.beginStep last).params = s.params := rfl
@[simp] theorem State.beginStep_freeIdx (last : Nat) : (s.beginStep last).freeIdx = s.freeIdx := rfl
@[simp] theorem State.beginStep_hostLog (last : Nat) : (s.beginStep last).hostLog = s.hostLog := rfl
@[simp] theorem State.beginStep_hostReplies (last : Nat) :
    (s.beginStep last).hostReplies = s.hostReplies := rfl

/-! ### afterCall -/

@[simp] theorem State.afterCall_aft (c : HostCall) : (s.afterCall c).aft = s.aft := rfl
@[simp] theorem State.afterCall_bur (c : HostCall) : (s.afterCall c).bur = s.bur := rfl
@[simp] theorem State.afterCall_con (c : HostCall) : (s.afterCall c).con = s.con := rfl
@[simp] theorem State.afterCall_dis (c : HostCall) : (s.afterCall c).dis = s.dis := rfl
@[simp] theorem State.afterCall_sp (c : HostCall) : (s.afterCall c).sp = s.sp := rfl
@[simp] theorem State.afterCall_bp (c : HostCall) : (s.afterCall c).bp = s.bp := rfl
@[simp] theorem State.afterCall_pc (c : HostCall) : (s.afterCall c).pc = s.pc := rfl
@[simp] theorem State.afterCall_jf (c : HostCall) : (s.afterCall c).jf = s.jf := rfl
@[simp] theorem State.afterCall_big (c : HostCall) : (s.afterCall c).big = s.big := rfl
@[simp] theorem State.afterCall_csSize (c : HostCall) : (s.afterCall c).csSize = s.csSize := rfl
@[simp] theorem State.afterCall_dsSize (c : HostCall) : (s.afterCall c).dsSize = s.dsSize := rfl
@[simp] theorem State.afterCall_extraLen (c : HostCall) :
    (s.afterCall c).extraLen = s.extraLen := rfl
@[simp] theorem State.afterCall_status (c : HostCall) : (s.afterCall c).status = s.status := rfl
@[simp] theorem State.afterCall_icount (c : HostCall) : (s.afterCall c).icount = s.icount := rfl
@[simp] theorem State.afterCall_code (c : HostCall) : (s.afterCall c).code = s.code := rfl
@[simp] theorem State.afterCall_data (c : HostCall) : (s.afterCall c).data = s.data := rfl
@[simp] theorem State.afterCall_stack (c : HostCall) : (s.afterCall c).stack = s.stack := rfl
@[simp] theorem State.afterCall_sGets (c : HostCall) : (s.afterCall c).sGets = s.sGets := rfl
@[simp] theorem State.afterCall_params (c : HostCall) : (s.afterCall c).params = s.params := rfl
@[simp] theorem State.afterCall_freeIdx (c : HostCall) : (s.afterCall c).freeIdx = s.freeIdx := rfl
@[simp] theorem State.afterCall_hostLog (c : HostCall) :
    (s.afterCall c).hostLog = s.hostLog ++ [c] := rfl
@[simp] theorem State.afterCall_hostReplies (c : HostCall) :
    (s.afterCall c).hostReplies = s.hostReplies.tail := rfl

/-! ### afterDump -/

@[simp] theorem State.afterDump_aft : (s.afterDump).aft = s.aft := rfl
@[simp] theorem State.afterDump_bur : (s.afterDump).bur = s.bur := rfl
@[simp] theorem State.afterDump_con : (s.afterDump).con = s.con := rfl
@[simp] theorem State.afterDump_dis : (s.afterDump).dis = s.dis := rfl
@[simp] theorem State.afterDump_sp : (s.afterDump).sp = s.sp := rfl
@[simp] theorem State.afterDump_bp : (s.afterDump).bp = s.bp := rfl
@[simp] theorem State.afterDump_pc : (s.afterDump).pc = s.pc := rfl
@[simp] theorem State.afterDump_jf : (s.afterDump).jf = s.jf := rfl
@[simp] theorem State.afterDump_big : (s.afterDump).big = s.big := rfl
@[simp] theorem State.afterDump_csSize : (s.afterDump).csSize = s.csSize := rfl
@[simp] theorem State.afterDump_dsSize : (s.afterDump).dsSize = s.dsSize := rfl
@[simp] theorem State.afterDump_extraLen : (s.afterDump).extraLen = s.extraLen := rfl
@[simp] theorem State.afterDump_status : (s.afterDump).status = s.status := rfl
@[simp] theorem State.afterDump_icount : (s.afterDump).icount = s.icount := rfl
@[simp] theorem State.afterDump_code : (s.afterDump).code = s.code := rfl
@[simp] theorem State.afterDump_data : (s.afterDump).data = s.data := rfl
@[simp] theorem State.afterDump_stack : (s.afterDump).stack = s.stack := rfl
@[simp] theorem State.afterDump_sGets : (s.afterDump).sGets = s.sGets := rfl
@[simp] theorem State.afterDump_params : (s.afterDump).params = s.params := rfl
@[simp] theorem State.afterDump_freeIdx : (s.afterDump).freeIdx = s.freeIdx := rfl
@[simp] theorem State.afterDump_hostLog : (s.afterDump).hostLog = s.hostLog ++ [.dump] := rfl
@[simp] theorem State.afterDump_hostReplies : (s.afterDump).hostReplies = s.hostReplies := rfl

/-! ### setCodeNibble -/

@[simp] theorem State.setCodeNibble_aft (p : Nat) (n : Nibble) :
    (s.setCodeNibble p n).aft = s.aft := rfl
@[simp] theorem State.setCodeNibble_bur (p : Nat) (n : Nibble) :
    (s.setCodeNibble p n).bur = s.bur := rfl
@[simp] theorem State.setCodeNibble_con (p : Nat) (n : Nibble) :
    (s.setCodeNibble p n).con = s.con := rfl
@[simp] theorem State.setCodeNibble_dis (p : Nat) (n : Nibble) :
    (s.setCodeNibble p n).dis = s.dis := rfl
@[simp] theorem State.setCodeNibble_sp (p : Nat) (n : Nibble) :
    (s.setCodeNibble p n).sp = s.sp := rfl
@[simp] theorem State.setCodeNibble_bp (p : Nat) (n : Nibble) :
    (s.setCodeNibble p n).bp = s.bp := rfl
@[simp] theorem State.setCodeNibble_pc (p : Nat) (n : Nibble) :
    (s.setCodeNibble p n).pc = s.pc := rfl
@[simp] theorem State.setCodeNibble_jf (p : Nat) (n : Nibble) :
    (s.setCodeNibble p n).jf = s.jf := rfl
@[simp] theorem State.setCodeNibble_big (p : Nat) (n : Nibble) :
    (s.setCodeNibble p n).big = s.big := rfl
@[simp] theorem State.setCodeNibble_csSize (p : Nat) (n : Nibble) :
    (s.setCodeNibble p n).csSize = s.csSize := rfl
@[simp] theorem State.setCodeNibble_dsSize (p : Nat) (n : Nibble) :
    (s.setCodeNibble p n).dsSize = s.dsSize := rfl
@[simp] theorem State.setCodeNibble_extraLen (p : Nat) (n : Nibble) :
    (s.setCodeNibble p n).extraLen = s.extraLen := rfl
@[simp] theorem State.setCodeNibble_status (p : Nat) (n : Nibble) :
    (s.setCodeNibble p n).status = s.status := rfl
@[simp] theorem State.setCodeNibble_icount (p : Nat) (n : Nibble) :
    (s.setCodeNibble p n).icount = s.icount := rfl
@[simp] theorem State.setCodeNibble_code (p : Nat) (n : Nibble) :
    (s.setCodeNibble p n).code = Memory.write s.code (p / 2) (replaceNibble s.params s.big p (s.codeByte (p / 2)) n) := rfl
@[simp] theorem State.setCodeNibble_data (p : Nat) (n : Nibble) :
    (s.setCodeNibble p n).data = s.data := rfl
@[simp] theorem State.setCodeNibble_stack (p : Nat) (n : Nibble) :
    (s.setCodeNibble p n).stack = s.stack := rfl
@[simp] theorem State.setCodeNibble_sGets (p : Nat) (n : Nibble) :
    (s.setCodeNibble p n).sGets = s.sGets := rfl
@[simp] theorem State.setCodeNibble_params (p : Nat) (n : Nibble) :
    (s.setCodeNibble p n).params = s.params := rfl
@[simp] theorem State.setCodeNibble_freeIdx (p : Nat) (n : Nibble) :
    (s.setCodeNibble p n).freeIdx = s.freeIdx := rfl
@[simp] theorem State.setCodeNibble_hostLog (p : Nat) (n : Nibble) :
    (s.setCodeNibble p n).hostLog = s.hostLog := rfl
@[simp] theorem State.setCodeNibble_hostReplies (p : Nat) (n : Nibble) :
    (s.setCodeNibble p n).hostReplies = s.hostReplies := rfl

/-! ### coverNibble -/

@[simp] theorem State.coverNibble_aft (p : Nat) : (s.coverNibble p).aft = s.aft := rfl
@[simp] theorem State.coverNibble_bur (p : Nat) : (s.coverNibble p).bur = s.bur := rfl
@[simp] theorem State.coverNibble_con (p : Nat) : (s.coverNibble p).con = s.con := rfl
@[simp] theorem State.coverNibble_dis (p : Nat) : (s.coverNibble p).dis = s.dis := rfl
@[simp] theorem State.coverNibble_sp (p : Nat) : (s.coverNibble p).sp = s.sp := rfl
@[simp] theorem State.coverNibble_bp (p : Nat) : (s.coverNibble p).bp = s.bp := rfl
@[simp] theorem State.coverNibble_pc (p : Nat) : (s.coverNibble p).pc = s.pc := rfl
@[simp] theorem State.coverNibble_jf (p : Nat) : (s.coverNibble p).jf = s.jf := rfl
@[simp] theorem State.coverNibble_big (p : Nat) : (s.coverNibble p).big = s.big := rfl
@[simp] theorem State.coverNibble_csSize (p : Nat) :
    (s.coverNibble p).csSize = BitVec.ofNat 16 (max s.csSize.toNat (min (p / 2 + 1) 65535)) := rfl
@[simp] theorem State.coverNibble_dsSize (p : Nat) : (s.coverNibble p).dsSize = s.dsSize := rfl
@[simp] theorem State.coverNibble_extraLen (p : Nat) :
    (s.coverNibble p).extraLen = s.extraLen := rfl
@[simp] theorem State.coverNibble_status (p : Nat) : (s.coverNibble p).status = s.status := rfl
@[simp] theorem State.coverNibble_icount (p : Nat) : (s.coverNibble p).icount = s.icount := rfl
@[simp] theorem State.coverNibble_code (p : Nat) : (s.coverNibble p).code = s.code := rfl
@[simp] theorem State.coverNibble_data (p : Nat) : (s.coverNibble p).data = s.data := rfl
@[simp] theorem State.coverNibble_stack (p : Nat) : (s.coverNibble p).stack = s.stack := rfl
@[simp] theorem State.coverNibble_sGets (p : Nat) : (s.coverNibble p).sGets = s.sGets := rfl
@[simp] theorem State.coverNibble_params (p : Nat) : (s.coverNibble p).params = s.params := rfl
@[simp] theorem State.coverNibble_freeIdx (p : Nat) : (s.coverNibble p).freeIdx = s.freeIdx := rfl
@[simp] theorem State.coverNibble_hostLog (p : Nat) : (s.coverNibble p).hostLog = s.hostLog := rfl
@[simp] theorem State.coverNibble_hostReplies (p : Nat) :
    (s.coverNibble p).hostReplies = s.hostReplies := rfl

/-! ### writeReg: the fields that are no register -/

@[simp] theorem State.writeReg_pc (r : Reg) (v : Word) : (s.writeReg r v).pc = s.pc := by
  cases r <;> rfl
@[simp] theorem State.writeReg_jf (r : Reg) (v : Word) : (s.writeReg r v).jf = s.jf := by
  cases r <;> rfl
@[simp] theorem State.writeReg_big (r : Reg) (v : Word) : (s.writeReg r v).big = s.big := by
  cases r <;> rfl
@[simp] theorem State.writeReg_csSize (r : Reg) (v : Word) : (s.writeReg r v).csSize = s.csSize := by
  cases r <;> rfl
@[simp] theorem State.writeReg_dsSize (r : Reg) (v : Word) : (s.writeReg r v).dsSize = s.dsSize := by
  cases r <;> rfl
@[simp] theorem State.writeReg_extraLen (r : Reg) (v : Word) : (s.writeReg r v).extraLen = s.extraLen := by
  cases r <;> rfl
@[simp] theorem State.writeReg_status (r : Reg) (v : Word) : (s.writeReg r v).status = s.status := by
  cases r <;> rfl
@[simp] theorem State.writeReg_icount (r : Reg) (v : Word) : (s.writeReg r v).icount = s.icount := by
  cases r <;> rfl
@[simp] theorem State.writeReg_code (r : Reg) (v : Word) : (s.writeReg r v).code = s.code := by
  cases r <;> rfl
@[simp] theorem State.writeReg_data (r : Reg) (v : Word) : (s.writeReg r v).data = s.data := by
  cases r <;> rfl
@[simp] theorem State.writeReg_stack (r : Reg) (v : Word) : (s.writeReg r v).stack = s.stack := by
  cases r <;> rfl
@[simp] theorem State.writeReg_sGets (r : Reg) (v : Word) : (s.writeReg r v).sGets = s.sGets := by
  cases r <;> rfl
@[simp] theorem State.writeReg_params (r : Reg) (v : Word) : (s.writeReg r v).params = s.params := by
  cases r <;> rfl
@[simp] theorem State.writeReg_freeIdx (r : Reg) (v : Word) : (s.writeReg r v).freeIdx = s.freeIdx := by
  cases r <;> rfl
@[simp] theorem State.writeReg_hostLog (r : Reg) (v : Word) : (s.writeReg r v).hostLog = s.hostLog := by
  cases r <;> rfl
@[simp] theorem State.writeReg_hostReplies (r : Reg) (v : Word) : (s.writeReg r v).hostReplies = s.hostReplies := by
  cases r <;> rfl

/-! ### zeroSlots and copyDown: the fields that are not the stack space -/

@[simp] theorem State.zeroSlots_aft (s : State) (i k : Nat) : (s.zeroSlots i k).aft = s.aft := by
  induction k generalizing s i with
  | zero => rfl
  | succ k ih => simp [State.zeroSlots, ih]
@[simp] theorem State.copyDown_aft (s : State) (d : Nat) (bs : List Byte) :
    (s.copyDown d bs).aft = s.aft := by
  induction bs generalizing s d with
  | nil => rfl
  | cons b bs ih => simp [State.copyDown, ih]
@[simp] theorem State.zeroSlots_bur (s : State) (i k : Nat) : (s.zeroSlots i k).bur = s.bur := by
  induction k generalizing s i with
  | zero => rfl
  | succ k ih => simp [State.zeroSlots, ih]
@[simp] theorem State.copyDown_bur (s : State) (d : Nat) (bs : List Byte) :
    (s.copyDown d bs).bur = s.bur := by
  induction bs generalizing s d with
  | nil => rfl
  | cons b bs ih => simp [State.copyDown, ih]
@[simp] theorem State.zeroSlots_con (s : State) (i k : Nat) : (s.zeroSlots i k).con = s.con := by
  induction k generalizing s i with
  | zero => rfl
  | succ k ih => simp [State.zeroSlots, ih]
@[simp] theorem State.copyDown_con (s : State) (d : Nat) (bs : List Byte) :
    (s.copyDown d bs).con = s.con := by
  induction bs generalizing s d with
  | nil => rfl
  | cons b bs ih => simp [State.copyDown, ih]
@[simp] theorem State.zeroSlots_dis (s : State) (i k : Nat) : (s.zeroSlots i k).dis = s.dis := by
  induction k generalizing s i with
  | zero => rfl
  | succ k ih => simp [State.zeroSlots, ih]
@[simp] theorem State.copyDown_dis (s : State) (d : Nat) (bs : List Byte) :
    (s.copyDown d bs).dis = s.dis := by
  induction bs generalizing s d with
  | nil => rfl
  | cons b bs ih => simp [State.copyDown, ih]
@[simp] theorem State.zeroSlots_sp (s : State) (i k : Nat) : (s.zeroSlots i k).sp = s.sp := by
  induction k generalizing s i with
  | zero => rfl
  | succ k ih => simp [State.zeroSlots, ih]
@[simp] theorem State.copyDown_sp (s : State) (d : Nat) (bs : List Byte) :
    (s.copyDown d bs).sp = s.sp := by
  induction bs generalizing s d with
  | nil => rfl
  | cons b bs ih => simp [State.copyDown, ih]
@[simp] theorem State.zeroSlots_bp (s : State) (i k : Nat) : (s.zeroSlots i k).bp = s.bp := by
  induction k generalizing s i with
  | zero => rfl
  | succ k ih => simp [State.zeroSlots, ih]
@[simp] theorem State.copyDown_bp (s : State) (d : Nat) (bs : List Byte) :
    (s.copyDown d bs).bp = s.bp := by
  induction bs generalizing s d with
  | nil => rfl
  | cons b bs ih => simp [State.copyDown, ih]
@[simp] theorem State.zeroSlots_pc (s : State) (i k : Nat) : (s.zeroSlots i k).pc = s.pc := by
  induction k generalizing s i with
  | zero => rfl
  | succ k ih => simp [State.zeroSlots, ih]
@[simp] theorem State.copyDown_pc (s : State) (d : Nat) (bs : List Byte) :
    (s.copyDown d bs).pc = s.pc := by
  induction bs generalizing s d with
  | nil => rfl
  | cons b bs ih => simp [State.copyDown, ih]
@[simp] theorem State.zeroSlots_jf (s : State) (i k : Nat) : (s.zeroSlots i k).jf = s.jf := by
  induction k generalizing s i with
  | zero => rfl
  | succ k ih => simp [State.zeroSlots, ih]
@[simp] theorem State.copyDown_jf (s : State) (d : Nat) (bs : List Byte) :
    (s.copyDown d bs).jf = s.jf := by
  induction bs generalizing s d with
  | nil => rfl
  | cons b bs ih => simp [State.copyDown, ih]
@[simp] theorem State.zeroSlots_big (s : State) (i k : Nat) : (s.zeroSlots i k).big = s.big := by
  induction k generalizing s i with
  | zero => rfl
  | succ k ih => simp [State.zeroSlots, ih]
@[simp] theorem State.copyDown_big (s : State) (d : Nat) (bs : List Byte) :
    (s.copyDown d bs).big = s.big := by
  induction bs generalizing s d with
  | nil => rfl
  | cons b bs ih => simp [State.copyDown, ih]
@[simp] theorem State.zeroSlots_csSize (s : State) (i k : Nat) : (s.zeroSlots i k).csSize = s.csSize := by
  induction k generalizing s i with
  | zero => rfl
  | succ k ih => simp [State.zeroSlots, ih]
@[simp] theorem State.copyDown_csSize (s : State) (d : Nat) (bs : List Byte) :
    (s.copyDown d bs).csSize = s.csSize := by
  induction bs generalizing s d with
  | nil => rfl
  | cons b bs ih => simp [State.copyDown, ih]
@[simp] theorem State.zeroSlots_dsSize (s : State) (i k : Nat) : (s.zeroSlots i k).dsSize = s.dsSize := by
  induction k generalizing s i with
  | zero => rfl
  | succ k ih => simp [State.zeroSlots, ih]
@[simp] theorem State.copyDown_dsSize (s : State) (d : Nat) (bs : List Byte) :
    (s.copyDown d bs).dsSize = s.dsSize := by
  induction bs generalizing s d with
  | nil => rfl
  | cons b bs ih => simp [State.copyDown, ih]
@[simp] theorem State.zeroSlots_extraLen (s : State) (i k : Nat) : (s.zeroSlots i k).extraLen = s.extraLen := by
  induction k generalizing s i with
  | zero => rfl
  | succ k ih => simp [State.zeroSlots, ih]
@[simp] theorem State.copyDown_extraLen (s : State) (d : Nat) (bs : List Byte) :
    (s.copyDown d bs).extraLen = s.extraLen := by
  induction bs generalizing s d with
  | nil => rfl
  | cons b bs ih => simp [State.copyDown, ih]
@[simp] theorem State.zeroSlots_status (s : State) (i k : Nat) : (s.zeroSlots i k).status = s.status := by
  induction k generalizing s i with
  | zero => rfl
  | succ k ih => simp [State.zeroSlots, ih]
@[simp] theorem State.copyDown_status (s : State) (d : Nat) (bs : List Byte) :
    (s.copyDown d bs).status = s.status := by
  induction bs generalizing s d with
  | nil => rfl
  | cons b bs ih => simp [State.copyDown, ih]
@[simp] theorem State.zeroSlots_icount (s : State) (i k : Nat) : (s.zeroSlots i k).icount = s.icount := by
  induction k generalizing s i with
  | zero => rfl
  | succ k ih => simp [State.zeroSlots, ih]
@[simp] theorem State.copyDown_icount (s : State) (d : Nat) (bs : List Byte) :
    (s.copyDown d bs).icount = s.icount := by
  induction bs generalizing s d with
  | nil => rfl
  | cons b bs ih => simp [State.copyDown, ih]
@[simp] theorem State.zeroSlots_code (s : State) (i k : Nat) : (s.zeroSlots i k).code = s.code := by
  induction k generalizing s i with
  | zero => rfl
  | succ k ih => simp [State.zeroSlots, ih]
@[simp] theorem State.copyDown_code (s : State) (d : Nat) (bs : List Byte) :
    (s.copyDown d bs).code = s.code := by
  induction bs generalizing s d with
  | nil => rfl
  | cons b bs ih => simp [State.copyDown, ih]
@[simp] theorem State.zeroSlots_data (s : State) (i k : Nat) : (s.zeroSlots i k).data = s.data := by
  induction k generalizing s i with
  | zero => rfl
  | succ k ih => simp [State.zeroSlots, ih]
@[simp] theorem State.copyDown_data (s : State) (d : Nat) (bs : List Byte) :
    (s.copyDown d bs).data = s.data := by
  induction bs generalizing s d with
  | nil => rfl
  | cons b bs ih => simp [State.copyDown, ih]
@[simp] theorem State.zeroSlots_sGets (s : State) (i k : Nat) : (s.zeroSlots i k).sGets = s.sGets := by
  induction k generalizing s i with
  | zero => rfl
  | succ k ih => simp [State.zeroSlots, ih]
@[simp] theorem State.zeroSlots_params (s : State) (i k : Nat) : (s.zeroSlots i k).params = s.params := by
  induction k generalizing s i with
  | zero => rfl
  | succ k ih => simp [State.zeroSlots, ih]
@[simp] theorem State.copyDown_sGets (s : State) (d : Nat) (bs : List Byte) :
    (s.copyDown d bs).sGets = s.sGets := by
  induction bs generalizing s d with
  | nil => rfl
  | cons b bs ih => simp [State.copyDown, ih]
@[simp] theorem State.copyDown_params (s : State) (d : Nat) (bs : List Byte) :
    (s.copyDown d bs).params = s.params := by
  induction bs generalizing s d with
  | nil => rfl
  | cons b bs ih => simp [State.copyDown, ih]
@[simp] theorem State.zeroSlots_freeIdx (s : State) (i k : Nat) : (s.zeroSlots i k).freeIdx = s.freeIdx := by
  induction k generalizing s i with
  | zero => rfl
  | succ k ih => simp [State.zeroSlots, ih]
@[simp] theorem State.copyDown_freeIdx (s : State) (d : Nat) (bs : List Byte) :
    (s.copyDown d bs).freeIdx = s.freeIdx := by
  induction bs generalizing s d with
  | nil => rfl
  | cons b bs ih => simp [State.copyDown, ih]
@[simp] theorem State.zeroSlots_hostLog (s : State) (i k : Nat) : (s.zeroSlots i k).hostLog = s.hostLog := by
  induction k generalizing s i with
  | zero => rfl
  | succ k ih => simp [State.zeroSlots, ih]
@[simp] theorem State.copyDown_hostLog (s : State) (d : Nat) (bs : List Byte) :
    (s.copyDown d bs).hostLog = s.hostLog := by
  induction bs generalizing s d with
  | nil => rfl
  | cons b bs ih => simp [State.copyDown, ih]
@[simp] theorem State.zeroSlots_hostReplies (s : State) (i k : Nat) : (s.zeroSlots i k).hostReplies = s.hostReplies := by
  induction k generalizing s i with
  | zero => rfl
  | succ k ih => simp [State.zeroSlots, ih]
@[simp] theorem State.copyDown_hostReplies (s : State) (d : Nat) (bs : List Byte) :
    (s.copyDown d bs).hostReplies = s.hostReplies := by
  induction bs generalizing s d with
  | nil => rfl
  | cons b bs ih => simp [State.copyDown, ih]

/-! ### finishStep, by how the step ended -/

@[simp] theorem finishStep_running_straight (t : State) (h : t.status = .running)
    (hj : t.jf = false) : finishStep s t = { t with pc := t.pc + 1 } := by
  simp [finishStep, h, hj]

@[simp] theorem finishStep_running_jumped (t : State) (h : t.status = .running)
    (hj : t.jf = true) : finishStep s t = t := by
  simp [finishStep, h, hj]

@[simp] theorem finishStep_halted (t : State) (h : t.status = .halted) : finishStep s t = t := by
  simp [finishStep, h]

@[simp] theorem finishStep_fault (t : State) (c : Cause) (h : t.status = .fault c) :
    finishStep s t =
      { s with status := .fault c, hostLog := t.hostLog, hostReplies := t.hostReplies } := by
  simp [finishStep, h]

@[simp] theorem finishStep_hostFault (t : State) (h : t.status = .hostFault) :
    finishStep s t =
      { s with status := .hostFault, hostLog := t.hostLog, hostReplies := t.hostReplies } := by
  simp [finishStep, h]

end Sys2Proof.Machine
end

