-- ==== Sys2Proof/Laws/Operands.lean ====
section
/-! SUPPORT. What the shared operations do, said once: reading a slot, a byte, a register or the depth
after an update; the address checks; and, for each operation that can fault, the cases of its
answer. -/

namespace Sys2Proof.Machine

/-! ## Reads that depend on one field only -/

theorem State.slot_congr {s t : State} (h : t.stack = s.stack) (j : Nat) : t.slot j = s.slot j := by
  simp [State.slot, h]

theorem State.dataByte_congr {s t : State} (h : t.data = s.data) (a : Nat) :
    t.dataByte a = s.dataByte a := by simp [State.dataByte, h]

theorem State.depth_congr {s t : State} (h : t.sp = s.sp) : t.depth = s.depth := by
  simp [State.depth, h]

theorem State.depth_lt (s : State) : s.depth < 65536 := s.sp.isLt

/-! ## The stack space -/

@[simp] theorem State.slot_setSlot (s : State) (i j : Nat) (v : Word) :
    (s.setSlot i v).slot j = if j = i then v else s.slot j := by
  simp only [State.slot, State.setSlot_stack, lookupCell_insertCell]
  split <;> simp

@[simp] theorem State.depth_setSlot (s : State) (i : Nat) (v : Word) :
    (s.setSlot i v).depth = s.depth := rfl

@[simp] theorem State.slot_setDepth (s : State) (n j : Nat) : (s.setDepth n).slot j = s.slot j := rfl

@[simp] theorem State.depth_setDepth (s : State) (n : Nat) : (s.setDepth n).depth = n % 65536 := by
  simp [State.depth]

@[simp] theorem State.slot_setTop (s : State) (i j : Nat) (v : Word) :
    (s.setTop i v).slot j = if j = s.depth - 1 - i then v else s.slot j := by
  simp [State.setTop]

@[simp] theorem State.depth_setTop (s : State) (i : Nat) (v : Word) :
    (s.setTop i v).depth = s.depth := rfl

@[simp] theorem State.slot_drop (s : State) (k j : Nat) : (s.drop k).slot j = s.slot j := rfl

@[simp] theorem State.depth_drop (s : State) (k : Nat) : (s.drop k).depth = s.depth - k := by
  have := s.depth_lt
  simp only [State.drop, State.depth_setDepth]; omega

@[simp] theorem State.slot_pushed (s : State) (v : Word) (j : Nat) :
    (s.pushed v).slot j = if j = s.depth then v else s.slot j := by
  simp [State.pushed]

theorem State.depth_pushed (s : State) (v : Word) (h : s.depth < 65535) :
    (s.pushed v).depth = s.depth + 1 := by
  simp only [State.pushed, State.depth_setDepth]; omega

@[simp] theorem State.replacePair_stack (s : State) (r : Word) :
    (s.replacePair r).stack = insertCell s.stack (s.depth - 1 - 1 - 0) r := by
  simp [State.replacePair]

@[simp] theorem State.slot_replacePair (s : State) (r : Word) (j : Nat) :
    (s.replacePair r).slot j = if j = s.depth - 2 then r else s.slot j := by
  simp only [State.replacePair, State.slot_setTop, State.depth_drop, State.slot_drop]
  rw [show s.depth - 1 - 1 - 0 = s.depth - 2 by omega]

@[simp] theorem State.depth_replacePair (s : State) (r : Word) :
    (s.replacePair r).depth = s.depth - 1 := by
  simp [State.replacePair]

theorem State.slot_zeroSlots (s : State) (i k j : Nat) :
    (s.zeroSlots i k).slot j = if i ≤ j ∧ j < i + k then 0 else s.slot j := by
  induction k generalizing s i with
  | zero => simp only [State.zeroSlots]; split <;> first | omega | rfl
  | succ k ih =>
    simp only [State.zeroSlots, ih, State.slot_setSlot]
    by_cases h : j = i
    · subst h; simp
    · by_cases h2 : i + 1 ≤ j ∧ j < i + 1 + k
      · simp [h2, show i ≤ j ∧ j < i + (k + 1) by omega]
      · rw [if_neg h2, if_neg h, if_neg (by omega)]

theorem State.zeroSlots_wf (s : State) (i k : Nat) (h : StackSpace.wf s.stack) :
    StackSpace.wf (s.zeroSlots i k).stack := by
  induction k generalizing s i with
  | zero => exact h
  | succ k ih => exact ih _ _ (StackSpace.wf_insert i 0 h)

theorem State.zeroSlots_mem (s : State) (i k : Nat) {c : Nat × Word}
    (h : c ∈ (s.zeroSlots i k).stack) : i ≤ c.1 ∧ c.1 < i + k ∨ c ∈ s.stack := by
  induction k generalizing s i with
  | zero => exact .inr h
  | succ k ih =>
    rcases ih _ _ h with h | h
    · exact .inl (by omega)
    · rcases mem_insertCell h with rfl | h
      · exact .inl ⟨le_refl _, by omega⟩
      · exact .inr h

/-- What copying bytes downward writes, given that they fit. -/
theorem State.slot_copyDown (s : State) (d : Nat) (bs : List Byte) (hd : bs.length ≤ d + 1)
    (j : Nat) : (s.copyDown d bs).slot j =
      if j ≤ d ∧ d < j + bs.length then zext8 (bs.getD (d - j) 0) else s.slot j := by
  induction bs generalizing s d with
  | nil => simp only [State.copyDown, List.length_nil]; split <;> first | omega | rfl
  | cons b bs ih =>
    simp only [List.length_cons] at hd
    simp only [State.copyDown, List.length_cons]
    by_cases hb : bs = []
    · subst hb
      simp only [State.copyDown, State.slot_setSlot, List.length_nil]
      by_cases h : j = d
      · subst h; simp
      · rw [if_neg h, if_neg (by omega)]
    · have hpos : 0 < bs.length := List.length_pos_of_ne_nil hb
      rw [ih _ (d - 1) (by omega), State.slot_setSlot]
      by_cases h : j = d
      · subst h
        simp [show ¬ (j ≤ j - 1 ∧ j - 1 < j + bs.length) by omega,
          show j ≤ j ∧ j < j + (bs.length + 1) by omega]
      · by_cases h2 : j ≤ d - 1 ∧ d - 1 < j + bs.length
        · have h3 : j ≤ d ∧ d < j + (bs.length + 1) := by omega
          simp only [h2, h3, if_true, and_self]
          obtain ⟨e, rfl⟩ : ∃ e, d = j + 1 + e := ⟨d - j - 1, by omega⟩
          rw [show j + 1 + e - 1 - j = e by omega, show j + 1 + e - j = e + 1 by omega]
          simp
        · rw [if_neg h2, if_neg h, if_neg (by omega)]

theorem State.copyDown_wf (s : State) (d : Nat) (bs : List Byte) (h : StackSpace.wf s.stack) :
    StackSpace.wf (s.copyDown d bs).stack := by
  induction bs generalizing s d with
  | nil => exact h
  | cons b bs ih => exact ih _ _ (StackSpace.wf_insert d _ h)

theorem State.copyDown_mem (s : State) (d : Nat) (bs : List Byte) {c : Nat × Word}
    (h : c ∈ (s.copyDown d bs).stack) : c.1 ≤ d ∨ c ∈ s.stack := by
  induction bs generalizing s d with
  | nil => exact .inr h
  | cons b bs ih =>
    rcases ih _ _ h with h | h
    · exact .inl (by omega)
    · rcases mem_insertCell h with rfl | h
      · exact .inl (le_refl _)
      · exact .inr h

/-! ## The data space -/

@[simp] theorem State.dataByte_memWrite1 (s : State) (a b : Nat) (v : Word) :
    (s.memWrite1 a v).dataByte b = if b = a then lowByte v else s.dataByte b := by
  simp [State.dataByte, Memory.read_write]

theorem State.dataByte_memWrite2 (s : State) (a b : Nat) (v : Word) :
    (s.memWrite2 a v).dataByte b =
      if b = a then (if s.big then highByte v else lowByte v)
      else if b = a + 1 then (if s.big then lowByte v else highByte v)
      else s.dataByte b := by
  unfold State.memWrite2
  by_cases hb : s.big = true
  · simp only [hb, if_true, State.dataByte, Memory.read_write]
    by_cases h1 : b = a + 1 <;> by_cases h2 : b = a <;> simp_all
  · simp only [hb, if_false, State.dataByte, Memory.read_write, Bool.false_eq_true]
    by_cases h1 : b = a + 1 <;> by_cases h2 : b = a <;> simp_all

theorem State.memWrite2_data_wf (s : State) (a : Nat) (v : Word) (h : Memory.wf s.data) :
    Memory.wf (s.memWrite2 a v).data := by
  unfold State.memWrite2
  split <;> exact Memory.wf_write _ _ (Memory.wf_write _ _ h)

theorem State.mem_memWrite2_data {s : State} {a : Nat} {v : Word} {c : Host.Cell}
    (h : c ∈ (s.memWrite2 a v).data) : c.1 = a ∨ c.1 = a + 1 ∨ c ∈ s.data := by
  unfold State.memWrite2 at h
  split at h <;> rcases Memory.mem_write h with h | h <;>
    first | exact .inr (.inl h) | exact (Memory.mem_write h).imp_right .inr

/-! ## Address checks -/

theorem accessAt_eq_some {w : Word} {n limit a : Nat} :
    accessAt w n limit = some a ↔ w.toInt = a ∧ a + n ≤ limit := by
  simp only [accessAt, toS]
  split
  · simp only [Option.some.injEq]; omega
  · simp only [reduceCtorEq, false_iff]; omega

theorem accessAt_eq_none {w : Word} {n limit : Nat} :
    accessAt w n limit = none ↔ ¬ (0 ≤ w.toInt ∧ w.toInt + n ≤ limit) := by
  simp only [accessAt, toS]
  split
  · simp only [reduceCtorEq, false_iff]; omega
  · simp only [true_iff]; omega

theorem stackIndex_eq_some {w : Word} {i : Nat} :
    stackIndex w = some i ↔ w.toInt = i ∧ i < 8192 := by
  have hcap : Config.stackSlots = 8192 := rfl
  simp only [stackIndex, toS]
  split
  · simp only [Option.some.injEq]; omega
  · simp only [reduceCtorEq, false_iff]; omega

theorem stackIndex_eq_none {w : Word} :
    stackIndex w = none ↔ ¬ (0 ≤ w.toInt ∧ w.toInt < 8192) := by
  have hcap : Config.stackSlots = 8192 := rfl
  simp only [stackIndex, toS]
  split
  · simp only [reduceCtorEq, false_iff]; omega
  · simp only [true_iff]; omega

theorem State.validTarget_iff {s : State} {t : Int} :
    s.validTarget t = true ↔ 0 ≤ t ∧ t < 2 * s.csSize.toNat := by
  simp only [State.validTarget, decide_eq_true_eq]; omega

/-! ## Words and numbers -/

theorem toNat_lowByte (v : Word) : (lowByte v).toNat = v.toNat % 256 := by
  simp [lowByte, BitVec.extractLsb'_toNat]

theorem toNat_highByte (v : Word) : (highByte v).toNat = v.toNat / 256 := by
  have := v.isLt
  simp only [highByte, BitVec.extractLsb'_toNat, Nat.shiftRight_eq_div_pow]; omega

theorem toInt_eq_cases (w : Word) :
    w.toNat < 32768 ∧ w.toInt = w.toNat ∨ 32768 ≤ w.toNat ∧ w.toInt = (w.toNat : Int) - 65536 := by
  have := w.isLt
  rw [BitVec.toInt_eq_toNat_cond]; split <;> omega

/-! ## The answers of the operations that can fault -/

theorem need_eq (k : Nat) (s : State) (go : Result) :
    need k s go = if s.depth < k then raise .stackUnderflow s else go := rfl

theorem need_of_le {k : Nat} {s : State} (h : k ≤ s.depth) (go : Result) : need k s go = go := by
  simp [need, show ¬ s.depth < k by omega]

theorem need_of_lt {k : Nat} {s : State} (h : s.depth < k) (go : Result) :
    need k s go = raise .stackUnderflow s := by simp [need, h]

theorem needSyscall_of_le {k : Nat} {s : State} (h : k ≤ s.depth) (go : Result) :
    needSyscall k s go = go := by simp [needSyscall, show ¬ s.depth < k by omega]

theorem needSyscall_of_lt {k : Nat} {s : State} (h : s.depth < k) (go : Result) :
    needSyscall k s go = raise .syscallStackUnderflow s := by simp [needSyscall, h]

theorem push_of_lt {s : State} (v : Word) (h : s.depth < 8192) : push v s = .next (s.pushed v) := by
  simp [push, room, Config.stackSlots, show ¬ 8192 < s.depth + 1 by omega]

theorem push_of_le {s : State} (v : Word) (h : 8192 ≤ s.depth) :
    push v s = raise .stackOverflow s := by
  simp [push, room, Config.stackSlots, show 8192 < s.depth + 1 by omega]

/-- Taking a fault answers a next state in which only `status` has changed. -/
theorem raise_eq_next {c : Cause} {s t : State} (h : raise c s = .next t) :
    t = { s with status := .fault c } := by
  simpa [raise] using h.symm

/-- All that `Need` can do. -/
theorem need_cases {k : Nat} {s t : State} {go : Result} (h : need k s go = .next t) :
    s.depth < k ∧ t = { s with status := .fault .stackUnderflow } ∨ k ≤ s.depth ∧ go = .next t := by
  unfold need at h
  split at h
  · exact .inl ⟨by assumption, raise_eq_next h⟩
  · exact .inr ⟨by omega, h⟩

/-- All that the dispatcher's operand check can do. -/
theorem needSyscall_cases {k : Nat} {s t : State} {go : Result}
    (h : needSyscall k s go = .next t) :
    s.depth < k ∧ t = { s with status := .fault .syscallStackUnderflow } ∨
      k ≤ s.depth ∧ go = .next t := by
  unfold needSyscall at h
  split at h
  · exact .inl ⟨by assumption, raise_eq_next h⟩
  · exact .inr ⟨by omega, h⟩

/-- All that a push can do. -/
theorem push_cases {v : Word} {s t : State} (h : push v s = .next t) :
    8192 ≤ s.depth ∧ t = { s with status := .fault .stackOverflow } ∨
      s.depth < 8192 ∧ t = s.pushed v := by
  rcases Nat.lt_or_ge s.depth 8192 with hd | hd
  · rw [push_of_lt v hd] at h; exact .inr ⟨hd, by simpa using h.symm⟩
  · rw [push_of_le v hd] at h; exact .inl ⟨hd, raise_eq_next h⟩

/-- All that a unary instruction can do. -/
theorem unary_cases {f : Word → Word} {s t : State} (h : unary f s = .next t) :
    s.depth < 1 ∧ t = { s with status := .fault .stackUnderflow } ∨
      1 ≤ s.depth ∧ t = s.setTop 0 (f (s.top 0)) := by
  rcases need_cases h with h | ⟨hd, h⟩
  · exact .inl h
  · exact .inr ⟨hd, by simpa using h.symm⟩

/-- All that a binary instruction can do. -/
theorem binary_cases {f : Word → Word → Word} {s t : State} (h : binary f s = .next t) :
    s.depth < 2 ∧ t = { s with status := .fault .stackUnderflow } ∨
      2 ≤ s.depth ∧ t = s.replacePair (f (s.top 1) (s.top 0)) := by
  rcases need_cases h with h | ⟨hd, h⟩
  · exact .inl h
  · exact .inr ⟨hd, by simpa using h.symm⟩

/-- All that a shift can do. -/
theorem shiftBy_cases {f : Word → Word → Word} {s t : State} (h : shiftBy f s = .next t) :
    s.depth < 2 ∧ t = { s with status := .fault .stackUnderflow } ∨
      2 ≤ s.depth ∧ shiftInRange (s.top 0) = true ∧ t = s.replacePair (f (s.top 1) (s.top 0)) ∨
      2 ≤ s.depth ∧ shiftInRange (s.top 0) = false ∧
        t = { s.replacePair (Config.shiftOor s.freeIdx) with freeIdx := s.freeIdx + 1 } := by
  rcases need_cases h with h | ⟨hd, h⟩
  · exact .inl h
  · cases hr : shiftInRange (s.top 0)
    · simp only [hr, Bool.false_eq_true, if_false] at h
      exact .inr (.inr ⟨hd, rfl, by simpa using h.symm⟩)
    · simp only [hr, if_true] at h
      exact .inr (.inl ⟨hd, rfl, by simpa using h.symm⟩)

/-- All that a pop into a register can do. -/
theorem popInto_cases {r : Reg} {s t : State} (h : popInto r s = .next t) :
    s.depth < 1 ∧ t = { s with status := .fault .stackUnderflow } ∨
      1 ≤ s.depth ∧ t = (s.writeReg r (s.top 0)).drop 1 := by
  rcases need_cases h with h | ⟨hd, h⟩
  · exact .inl h
  · exact .inr ⟨hd, by simpa using h.symm⟩

/-- All that a push from a register can do. -/
theorem pushFrom_cases {r : Reg} {s t : State} (h : pushFrom r s = .next t) :
    8192 ≤ s.depth ∧ t = { s with status := .fault .stackOverflow } ∨
      s.depth < 8192 ∧ t = s.pushed (s.readReg r) := push_cases h

end Sys2Proof.Machine
end

