-- ==== Sys2Proof/Laws/Frames.lean ====
section
/-! SUPPORT. The frame of each shared stack operation, in the words of Safety.lean: what it leaves
unchanged. Statements about single instructions cite these. -/

namespace Sys2Proof.Machine

theorem Frame.refl (regs : List Reg) (slots bytes : Nat → Prop) (s : State) :
    Frame regs slots bytes s s :=
  ⟨fun _ _ => rfl, fun _ _ => rfl, fun _ _ => rfl, fun _ => rfl, rfl, rfl, rfl, rfl, rfl, rfl, rfl, rfl⟩

theorem Plain.refl (s : State) : Plain s s := ⟨⟨rfl, rfl⟩, ⟨rfl, rfl⟩, rfl⟩

/-- A frame allows anything a smaller frame allows. -/
theorem Frame.mono {regs regs' : List Reg} {slots slots' bytes bytes' : Nat → Prop} {s t : State}
    (h : Frame regs slots bytes s t) (hr : ∀ r ∈ regs, r ∈ regs') (hs : ∀ j, slots j → slots' j)
    (hb : ∀ a, bytes a → bytes' a) : Frame regs' slots' bytes' s t :=
  { h with
    regs_same := fun r hn => h.regs_same r fun hm => hn (hr r hm)
    slots_same := fun j hn => h.slots_same j fun hm => hn (hs j hm)
    bytes_same := fun a hn => h.bytes_same a fun hm => hn (hb a hm) }

/-- What the frame lets through in two steps it lets through in one. -/
theorem Frame.trans {regs : List Reg} {slots bytes : Nat → Prop} {s t u : State}
    (h1 : Frame regs slots bytes s t) (h2 : Frame regs slots bytes t u) :
    Frame regs slots bytes s u where
  regs_same r hr := (h2.regs_same r hr).trans (h1.regs_same r hr)
  slots_same j hj := (h2.slots_same j hj).trans (h1.slots_same j hj)
  bytes_same a ha := (h2.bytes_same a ha).trans (h1.bytes_same a ha)
  code_same k := (h2.code_same k).trans (h1.code_same k)
  big_same := h2.big_same.trans h1.big_same
  csSize_same := h2.csSize_same.trans h1.csSize_same
  dsSize_same := h2.dsSize_same.trans h1.dsSize_same
  extraLen_same := h2.extraLen_same.trans h1.extraLen_same
  sGets_same := h2.sGets_same.trans h1.sGets_same
  params_same := h2.params_same.trans h1.params_same
  icount_same := h2.icount_same.trans h1.icount_same
  status_same := h2.status_same.trans h1.status_same

theorem frame_setSlot (s : State) (i : Nat) (v : Word) :
    Frame [] (· = i) nowhere s (s.setSlot i v) where
  regs_same r _ := by cases r <;> rfl
  slots_same j hj := by rw [State.slot_setSlot, if_neg hj]
  bytes_same _ _ := rfl
  code_same _ := rfl
  big_same := rfl
  csSize_same := rfl
  dsSize_same := rfl
  extraLen_same := rfl
  sGets_same := rfl
  params_same := rfl
  icount_same := rfl
  status_same := rfl

theorem frame_setDepth (s : State) (n : Nat) : Frame [.sp] nowhere nowhere s (s.setDepth n) where
  regs_same r hr := by cases r <;> first | rfl | exact absurd (by simp) hr
  slots_same _ _ := rfl
  bytes_same _ _ := rfl
  code_same _ := rfl
  big_same := rfl
  csSize_same := rfl
  dsSize_same := rfl
  extraLen_same := rfl
  sGets_same := rfl
  params_same := rfl
  icount_same := rfl
  status_same := rfl

theorem frame_jumpTo (s : State) (n : Nat) : Frame [] nowhere nowhere s (s.jumpTo n) where
  regs_same r _ := by cases r <;> rfl
  slots_same _ _ := rfl
  bytes_same _ _ := rfl
  code_same _ := rfl
  big_same := rfl
  csSize_same := rfl
  dsSize_same := rfl
  extraLen_same := rfl
  sGets_same := rfl
  params_same := rfl
  icount_same := rfl
  status_same := rfl

theorem frame_afterCall (s : State) (c : HostCall) :
    Frame [] nowhere nowhere s (s.afterCall c) where
  regs_same r _ := by cases r <;> rfl
  slots_same _ _ := rfl
  bytes_same _ _ := rfl
  code_same _ := rfl
  big_same := rfl
  csSize_same := rfl
  dsSize_same := rfl
  extraLen_same := rfl
  sGets_same := rfl
  params_same := rfl
  icount_same := rfl
  status_same := rfl

theorem frame_writeReg (s : State) (r : Reg) (v : Word) :
    Frame [r] nowhere nowhere s (s.writeReg r v) where
  regs_same q hq := by cases r <;> cases q <;> first | rfl | exact absurd (by simp) hq
  slots_same _ _ := State.slot_congr (by simp) _
  bytes_same _ _ := State.dataByte_congr (by simp) _
  code_same _ := by simp
  big_same := by simp
  csSize_same := by simp
  dsSize_same := by simp
  extraLen_same := by simp
  sGets_same := by simp
  params_same := by simp
  icount_same := by simp
  status_same := by simp

theorem frame_memWrite1 (s : State) (a : Nat) (v : Word) :
    Frame [] nowhere (· = a) s (s.memWrite1 a v) where
  regs_same r _ := by cases r <;> rfl
  slots_same _ _ := rfl
  bytes_same b hb := by rw [State.dataByte_memWrite1, if_neg hb]
  code_same _ := rfl
  big_same := rfl
  csSize_same := rfl
  dsSize_same := rfl
  extraLen_same := rfl
  sGets_same := rfl
  params_same := rfl
  icount_same := rfl
  status_same := rfl

theorem frame_memWrite2 (s : State) (a : Nat) (v : Word) :
    Frame [] nowhere (fun b => b = a ∨ b = a + 1) s (s.memWrite2 a v) where
  regs_same r _ := by cases r <;> simp [State.readReg]
  slots_same _ _ := State.slot_congr (by simp) _
  bytes_same b hb := by
    rw [State.dataByte_memWrite2, if_neg fun h => hb (.inl h), if_neg fun h => hb (.inr h)]
  code_same _ := by simp
  big_same := by simp
  csSize_same := by simp
  dsSize_same := by simp
  extraLen_same := by simp
  sGets_same := by simp
  params_same := by simp
  icount_same := by simp
  status_same := by simp

theorem frame_drop (s : State) (k : Nat) : Frame [.sp] nowhere nowhere s (s.drop k) :=
  frame_setDepth s _

/-- Dropping `k` words changes `sp` only. -/
theorem dropped_drop (s : State) (k : Nat) : Dropped k s (s.drop k) :=
  ⟨State.depth_drop s k, frame_drop s k⟩

/-- A push changes `sp` and the slot it fills. -/
theorem pushed_pushed (s : State) (v : Word) (h : s.depth < 65535) : Pushed v s (s.pushed v) := by
  refine ⟨State.depth_pushed s v h, by simp, ?_⟩
  exact ((frame_setSlot s s.depth v).mono (by simp) (fun _ h => h) (fun _ h => h)).trans
    ((frame_setDepth (s.setSlot s.depth v) _).mono (by simp) (fun _ h => h.elim) (fun _ h => h))

/-- Replacing the top word changes its slot only. -/
theorem topReplaced_setTop (s : State) (v : Word) : TopReplaced v s (s.setTop 0 v) :=
  ⟨rfl, by simp [State.top], frame_setSlot s _ v⟩

/-- Replacing two words by one changes `sp` and the slot that held the left operand. -/
theorem pairReplaced_replacePair (s : State) (r : Word) (h : 2 ≤ s.depth) :
    PairReplaced r s (s.replacePair r) := by
  refine ⟨by simp, ?_, ?_⟩
  · rw [State.top, State.slot_replacePair, State.depth_replacePair, if_pos (by omega)]
  · have h1 := (frame_drop s 1).mono (regs' := [.sp]) (slots' := (· = s.depth - 2))
      (bytes' := nowhere) (by simp) (fun _ h => h.elim) (fun _ h => h)
    have h2 := (frame_setSlot (s.drop 1) ((s.drop 1).depth - 1 - 0) r).mono (regs' := [.sp])
      (slots' := (· = s.depth - 2)) (bytes' := nowhere) (by simp)
      (fun j hj => by rw [State.depth_drop] at hj; omega) (fun _ h => h)
    exact h1.trans h2

end Sys2Proof.Machine
end

