-- ==== Sys2Proof/Laws/Params.lean ====
section
/-! SUPPORT. What is read through the implementation parameters, said once for all their values: the
operands of the stores and of `JZ`, the reach of the stores, the target of `JZ` and `CALL`, and the
syscall a code selects. -/

namespace Sys2Proof.Machine

/-! ## Tables -/

/-- In a list whose images are all different, searching for the image of a member finds it. -/
theorem find?_of_nodup_map {α β : Type} [BEq β] [LawfulBEq β] (f : α → β) {l : List α} {a : α}
    (hl : (l.map f).Nodup) (ha : a ∈ l) : l.find? (fun x => f x == f a) = some a := by
  induction l with
  | nil => simp at ha
  | cons b l ih =>
    rw [List.map_cons, List.nodup_cons] at hl
    rcases List.mem_cons.1 ha with rfl | ha
    · simp
    · have hne : (f b == f a) = false := by
        simp only [beq_eq_false_iff_ne]
        exact fun h => hl.1 (h ▸ List.mem_map_of_mem ha)
      rw [List.find?_cons, hne]
      exact ih hl.2 ha

/-- The defaults are legal. -/
theorem defaultParameters_legal : LegalParameters defaultParameters where
  opcodes_distinct := by decide
  moves_to r := by cases r <;> rfl
  moves_from r := by cases r <;> rfl
  syscalls_distinct := by decide
  hlt_zero := rfl
  halted_zero := rfl
  faults_positive d := by cases d <;> decide
  loadErrors_positive e := by cases e <;> decide
  hostFault_negative := by decide

/-! ## Operands -/

theorem OperandPair.store {s : State} {v w : Word}
    (h : OperandPair s.params.storeValueOnTop v w s) : s.storeValue = v ∧ s.storeAddr = w := by
  unfold OperandPair at h
  unfold State.storeValue State.storeAddr
  split at h <;> simp_all

theorem OperandPair.jz {s : State} {v w : Word}
    (h : OperandPair s.params.jzCondOnTop v w s) : s.jzCond = v ∧ s.jzTarget = w := by
  unfold OperandPair at h
  unfold State.jzCond State.jzTarget
  split at h <;> simp_all

theorem State.storeLimit_eq (s : State) : s.storeLimit =
    s.dsSize.toNat + (if s.params.storeReachesExtra then s.extraLen else 0) := by
  unfold State.storeLimit; split <;> simp

theorem State.plainTarget_eq (s : State) (w : Word) : s.plainTarget w =
    if s.params.absOnlyJmp then w.toInt else (w.toInt.natAbs : Int) := rfl

/-! ## Syscalls -/

theorem mem_services (v : Service) : v ∈ services := by cases v <;> decide

theorem requests_iff {v : Service} {s : State} :
    Requests v s ↔ serviceNumber s.params.sysnum v = lowByte (s.top 0) := by
  rw [Requests, ← toNat_lowByte, eq_comm]
  exact ⟨fun h => BitVec.eq_of_toNat_eq h, fun h => congrArg BitVec.toNat h⟩

/-- A selected syscall is the one the code asks for. -/
theorem requests_of_serviceOfCode {v : Service} {s : State}
    (h : serviceOfCode s.params.sysnum (lowByte (s.top 0)) = some v) : Requests v s :=
  requests_iff.2 (by simpa using List.find?_some h)

/-- The syscall a code asks for is selected, the numbers being distinct. -/
theorem serviceOfCode_of_requests {v : Service} {s : State} (hc : LegalParameters s.params)
    (h : Requests v s) : serviceOfCode s.params.sysnum (lowByte (s.top 0)) = some v := by
  rw [serviceOfCode, ← requests_iff.1 h]
  exact find?_of_nodup_map _ hc.syscalls_distinct (mem_services v)

/-- No syscall is selected exactly when the code asks for none. -/
theorem serviceOfCode_eq_none {s : State} :
    serviceOfCode s.params.sysnum (lowByte (s.top 0)) = none ↔ ∀ v, ¬ Requests v s := by
  rw [serviceOfCode, List.find?_eq_none]
  exact ⟨fun h v hv => h v (mem_services v) (by simpa using requests_iff.1 hv),
    fun h v _ hv => h v (requests_iff.2 (by simpa using hv))⟩

/-- Code 0 asks for `HLT`. -/
theorem requests_hlt {s : State} (hc : LegalParameters s.params) :
    Requests .hlt s ↔ (s.top 0).toNat % 256 = 0 := by
  rw [Requests, serviceNumber, hc.hlt_zero]; rfl

end Sys2Proof.Machine
end

