-- ==== Sys2Proof/Laws/Step.lean ====
section
/-! SUPPORT. What decoding and one step can do, said once. Everything about a step is derived from
`step_cases`. -/

namespace Sys2Proof.Machine

/-! ## Decoding -/

theorem assembleOp_cases {ns rest : List Nibble} {op : Opcode} {n : Nat}
    (h : assembleOp ns = some (op, n, rest)) :
    1 ≤ n ∧ n ≤ 2 ∧ n + rest.length = ns.length := by
  unfold assembleOp at h
  split at h
  · simp at h
  · split at h
    · split at h
      · simp at h
      · simp only [Option.some.injEq, Prod.mk.injEq] at h
        obtain ⟨-, rfl, rfl⟩ := h
        simp; omega
    · simp only [Option.some.injEq, Prod.mk.injEq] at h
      obtain ⟨-, rfl, rfl⟩ := h
      simp; omega

/-- All that the decoder can answer: the length it reports is that of nibbles it was given. -/
theorem decode_cases {c : Parameters} {big : Bool} {ns : List Nibble} {i : Instr} {n : Nat}
    (h : decode c big ns = .instr i n) :
    1 ≤ n ∧ n ≤ 6 ∧ n ≤ ns.length ∧
      ((∃ imm, i = .li imm) ∨ ∃ op, i = plainOfOpcode c op ∧ op ≠ opcodeOf c (.li 0)) := by
  unfold decode at h
  split at h
  · simp at h
  · rename_i op k rest hop
    have hk := assembleOp_cases hop
    split at h
    · split at h
      · simp only [Decoded.instr.injEq] at h
        obtain ⟨rfl, rfl⟩ := h
        simp only [List.length_cons] at hk
        exact ⟨by omega, by omega, by omega, .inl ⟨_, rfl⟩⟩
      · simp at h
    · rename_i hne
      simp only [Decoded.instr.injEq] at h
      obtain ⟨rfl, rfl⟩ := h
      exact ⟨by omega, by omega, by omega, .inr ⟨op, rfl, hne⟩⟩

/-! ## Fetching -/

theorem State.fetchFrom_length_le (s : State) (p n : Nat) : (s.fetchFrom p n).length ≤ n := by
  induction n generalizing p with
  | zero => simp [State.fetchFrom]
  | succ n ih =>
    simp only [State.fetchFrom]
    split
    · simp
    · simpa using ih (p + 1)

/-- A nibble the window holds lies in the code segment. -/
theorem State.fetchFrom_inside (s : State) (p n j : Nat) (h : j < (s.fetchFrom p n).length) :
    (p + j) / 2 < s.csSize.toNat := by
  induction n generalizing p j with
  | zero => simp [State.fetchFrom] at h
  | succ n ih =>
    simp only [State.fetchFrom, State.fetchNibble] at h
    by_cases hp : p / 2 < s.csSize.toNat
    · simp only [hp, if_true, List.length_cons] at h
      cases j with
      | zero => simpa using hp
      | succ j =>
        have := ih (p + 1) j (by omega)
        rwa [show p + 1 + j = p + (j + 1) by omega] at this
    · simp [hp] at h

/-! ## The step -/

/-- All that a step can do: the run goes on, and either the budget is spent, or the code ends inside
the instruction, or the decoded instruction runs and the step is finished. -/
theorem step_cases {s t : State} (h : step s = .next t) :
    s.status = .running ∧
    (Config.budget ≤ s.icount ∧ t = { s with status := .fault .budgetExceeded } ∨
     s.icount < Config.budget ∧ decode s.params s.big s.codeWindow = .exhausted ∧
       t = { s with status := .fault .codeExhausted } ∨
     s.icount < Config.budget ∧ ∃ i len u, decode s.params s.big s.codeWindow = .instr i len ∧
       exec i (s.beginStep (s.pc + len - 1)) = .next u ∧ t = finishStep s u) := by
  unfold step at h
  split at h
  · rename_i hs
    refine ⟨hs, ?_⟩
    split at h
    · exact .inl ⟨by assumption, raise_eq_next h⟩
    · rename_i hb
      have hb : s.icount < Config.budget := Nat.lt_of_not_le hb
      split at h
      · exact .inr (.inl ⟨hb, by assumption, raise_eq_next h⟩)
      · rename_i i len hd
        split at h
        · rename_i u hu
          exact .inr (.inr ⟨hb, i, len, u, hd, hu, by simpa using h.symm⟩)
        · simp at h
        · simp at h
  · simp at h
  · simp at h
  · simp at h

/-- What finishing a step can answer, by the status `Execute` left. -/
theorem finishStep_cases (s u : State) :
    (u.status = .running ∧ finishStep s u = if u.jf then u else { u with pc := u.pc + 1 }) ∨
    (u.status = .halted ∧ finishStep s u = u) ∨
    ((∃ c, u.status = .fault c) ∨ u.status = .hostFault) ∧ finishStep s u =
      { s with status := u.status, hostLog := u.hostLog, hostReplies := u.hostReplies } := by
  cases h : u.status
  · exact .inl ⟨rfl, by simp [finishStep, h]⟩
  · exact .inr (.inl ⟨rfl, by simp [finishStep, h]⟩)
  · exact .inr (.inr ⟨.inl ⟨_, rfl⟩, by simp [finishStep, h]⟩)
  · exact .inr (.inr ⟨.inr rfl, by simp [finishStep, h]⟩)

end Sys2Proof.Machine
end

