-- ==== Sys2Proof/Laws/PerInstr.lean ====
section
/-! SUPPORT. Laws said instruction by instruction, one lemma per constructor of `Instr`: the opcode
of a well-formed instruction selects that instruction again, and an encoding has one to six
nibbles. -/

namespace Sys2Proof.Laws

open Machine (LegalParameters find?_of_nodup_map)

/-- Under legal parameters the logical opcode of a well-formed instruction selects it again
(30_encoding.md R89 d, R93); `LI` also needs its immediate. -/
def OpcodeSelects.Statement (i : Instr) : Prop :=
  ∀ c, LegalParameters c → i.wf c = true →
    (∃ imm, i = .li imm) ∨
      opcodeOf c i ≠ opcodeOf c (.li 0) ∧ plainOfOpcode c (opcodeOf c i) = i

/-- An encoding has one to six nibbles (30_encoding.md R84). -/
def EncodeLength.Statement (i : Instr) : Prop :=
  ∀ c big, 1 ≤ (encode c big i).length ∧ (encode c big i).length ≤ Config.maxNibbles

theorem encOp_length (v : Opcode) : 1 ≤ (encOp v).length ∧ (encOp v).length ≤ 2 := by
  unfold encOp; split <;> simp [encOpLong]

theorem encImm_length (c : Parameters) (big : Bool) (w : Word) : (encImm c big w).length = 4 := by
  unfold encImm; split <;> rfl

/-- An instruction without operand nibbles has those of its opcode. -/
theorem encodeLength_of_plain {i : Instr} (h : ∀ c big, operandNibbles c big i = []) :
    EncodeLength.Statement i := by
  intro c big
  have := encOp_length (opcodeOf c i)
  simp only [encode, h, List.append_nil, Config.maxNibbles]; omega

/-- A mnemonic without an operand field is selected by its opcode, which is not that of `LI`. -/
theorem selects_of_mem {i : Instr} (hi : i ∈ plainInstrs) : OpcodeSelects.Statement i := by
  intro c hc _
  have hn := hc.opcodes_distinct
  rw [List.map_cons, List.nodup_cons] at hn
  refine .inr ⟨fun h => hn.1 (h ▸ List.mem_map_of_mem hi), ?_⟩
  rw [plainOfOpcode, find?_of_nodup_map (opcodeOf c) hn.2 hi, Option.getD_some]

theorem OpcodeSelects.li (imm : Word) : OpcodeSelects.Statement (.li imm) :=
  fun _ _ _ => .inl ⟨imm, rfl⟩
theorem OpcodeSelects.lb : OpcodeSelects.Statement .lb := selects_of_mem (by decide)
theorem OpcodeSelects.lw : OpcodeSelects.Statement .lw := selects_of_mem (by decide)
theorem OpcodeSelects.lws : OpcodeSelects.Statement .lws := selects_of_mem (by decide)
theorem OpcodeSelects.sws : OpcodeSelects.Statement .sws := selects_of_mem (by decide)
theorem OpcodeSelects.sb : OpcodeSelects.Statement .sb := selects_of_mem (by decide)
theorem OpcodeSelects.sw : OpcodeSelects.Statement .sw := selects_of_mem (by decide)
theorem OpcodeSelects.pop : OpcodeSelects.Statement .pop := selects_of_mem (by decide)
theorem OpcodeSelects.dup : OpcodeSelects.Statement .dup := selects_of_mem (by decide)
theorem OpcodeSelects.rot : OpcodeSelects.Statement .rot := selects_of_mem (by decide)
theorem OpcodeSelects.rot3 : OpcodeSelects.Statement .rot3 := selects_of_mem (by decide)
theorem OpcodeSelects.add : OpcodeSelects.Statement .add := selects_of_mem (by decide)
theorem OpcodeSelects.sub : OpcodeSelects.Statement .sub := selects_of_mem (by decide)
theorem OpcodeSelects.mul : OpcodeSelects.Statement .mul := selects_of_mem (by decide)
theorem OpcodeSelects.div : OpcodeSelects.Statement .div := selects_of_mem (by decide)
theorem OpcodeSelects.and : OpcodeSelects.Statement .and := selects_of_mem (by decide)
theorem OpcodeSelects.or : OpcodeSelects.Statement .or := selects_of_mem (by decide)
theorem OpcodeSelects.xor : OpcodeSelects.Statement .xor := selects_of_mem (by decide)
theorem OpcodeSelects.nor : OpcodeSelects.Statement .nor := selects_of_mem (by decide)
theorem OpcodeSelects.shl : OpcodeSelects.Statement .shl := selects_of_mem (by decide)
theorem OpcodeSelects.shr : OpcodeSelects.Statement .shr := selects_of_mem (by decide)
theorem OpcodeSelects.not : OpcodeSelects.Statement .not := selects_of_mem (by decide)
theorem OpcodeSelects.equ : OpcodeSelects.Statement .equ := selects_of_mem (by decide)
theorem OpcodeSelects.loe : OpcodeSelects.Statement .loe := selects_of_mem (by decide)
theorem OpcodeSelects.goe : OpcodeSelects.Statement .goe := selects_of_mem (by decide)
theorem OpcodeSelects.lt : OpcodeSelects.Statement .lt := selects_of_mem (by decide)
theorem OpcodeSelects.gt : OpcodeSelects.Statement .gt := selects_of_mem (by decide)
theorem OpcodeSelects.salloc : OpcodeSelects.Statement .salloc := selects_of_mem (by decide)
theorem OpcodeSelects.jmp : OpcodeSelects.Statement .jmp := selects_of_mem (by decide)
theorem OpcodeSelects.jz : OpcodeSelects.Statement .jz := selects_of_mem (by decide)
theorem OpcodeSelects.call : OpcodeSelects.Statement .call := selects_of_mem (by decide)
theorem OpcodeSelects.mova : OpcodeSelects.Statement .mova := selects_of_mem (by decide)
theorem OpcodeSelects.movb : OpcodeSelects.Statement .movb := selects_of_mem (by decide)
theorem OpcodeSelects.movc : OpcodeSelects.Statement .movc := selects_of_mem (by decide)
theorem OpcodeSelects.movd : OpcodeSelects.Statement .movd := selects_of_mem (by decide)
theorem OpcodeSelects.move : OpcodeSelects.Statement .move := selects_of_mem (by decide)
theorem OpcodeSelects.movf : OpcodeSelects.Statement .movf := selects_of_mem (by decide)
theorem OpcodeSelects.amov : OpcodeSelects.Statement .amov := selects_of_mem (by decide)
theorem OpcodeSelects.bmov : OpcodeSelects.Statement .bmov := selects_of_mem (by decide)
theorem OpcodeSelects.cmov : OpcodeSelects.Statement .cmov := selects_of_mem (by decide)
theorem OpcodeSelects.dmov : OpcodeSelects.Statement .dmov := selects_of_mem (by decide)
theorem OpcodeSelects.emov : OpcodeSelects.Statement .emov := selects_of_mem (by decide)
theorem OpcodeSelects.fmov : OpcodeSelects.Statement .fmov := selects_of_mem (by decide)
theorem OpcodeSelects.syscall : OpcodeSelects.Statement .syscall := selects_of_mem (by decide)
theorem OpcodeSelects.nop : OpcodeSelects.Statement .nop := selects_of_mem (by decide)
theorem OpcodeSelects.unassigned (op : Opcode) : OpcodeSelects.Statement (.unassigned op) := by
  intro c _ h
  have h : ∀ i ∈ Instr.li 0 :: plainInstrs, opcodeOf c i ≠ op := by
    simpa [Instr.wf, assigned] using h
  refine .inr ⟨fun he => h _ (.head _) he.symm, ?_⟩
  have hn : plainInstrs.find? (fun i => opcodeOf c i == op) = none :=
    List.find?_eq_none.2 fun i hi => by simpa using h i (.tail _ hi)
  show (plainInstrs.find? (fun i => opcodeOf c i == op)).getD (.unassigned op) = _
  rw [hn, Option.getD_none]

theorem EncodeLength.li (imm : Word) : EncodeLength.Statement (.li imm) := by
  intro c big
  have := encOp_length (opcodeOf c (.li imm))
  simp only [encode, operandNibbles, List.length_append, encImm_length, Config.maxNibbles]; omega
theorem EncodeLength.lb : EncodeLength.Statement .lb := encodeLength_of_plain fun _ _ => rfl
theorem EncodeLength.lw : EncodeLength.Statement .lw := encodeLength_of_plain fun _ _ => rfl
theorem EncodeLength.lws : EncodeLength.Statement .lws := encodeLength_of_plain fun _ _ => rfl
theorem EncodeLength.sws : EncodeLength.Statement .sws := encodeLength_of_plain fun _ _ => rfl
theorem EncodeLength.sb : EncodeLength.Statement .sb := encodeLength_of_plain fun _ _ => rfl
theorem EncodeLength.sw : EncodeLength.Statement .sw := encodeLength_of_plain fun _ _ => rfl
theorem EncodeLength.pop : EncodeLength.Statement .pop := encodeLength_of_plain fun _ _ => rfl
theorem EncodeLength.dup : EncodeLength.Statement .dup := encodeLength_of_plain fun _ _ => rfl
theorem EncodeLength.rot : EncodeLength.Statement .rot := encodeLength_of_plain fun _ _ => rfl
theorem EncodeLength.rot3 : EncodeLength.Statement .rot3 := encodeLength_of_plain fun _ _ => rfl
theorem EncodeLength.add : EncodeLength.Statement .add := encodeLength_of_plain fun _ _ => rfl
theorem EncodeLength.sub : EncodeLength.Statement .sub := encodeLength_of_plain fun _ _ => rfl
theorem EncodeLength.mul : EncodeLength.Statement .mul := encodeLength_of_plain fun _ _ => rfl
theorem EncodeLength.div : EncodeLength.Statement .div := encodeLength_of_plain fun _ _ => rfl
theorem EncodeLength.and : EncodeLength.Statement .and := encodeLength_of_plain fun _ _ => rfl
theorem EncodeLength.or : EncodeLength.Statement .or := encodeLength_of_plain fun _ _ => rfl
theorem EncodeLength.xor : EncodeLength.Statement .xor := encodeLength_of_plain fun _ _ => rfl
theorem EncodeLength.nor : EncodeLength.Statement .nor := encodeLength_of_plain fun _ _ => rfl
theorem EncodeLength.shl : EncodeLength.Statement .shl := encodeLength_of_plain fun _ _ => rfl
theorem EncodeLength.shr : EncodeLength.Statement .shr := encodeLength_of_plain fun _ _ => rfl
theorem EncodeLength.not : EncodeLength.Statement .not := encodeLength_of_plain fun _ _ => rfl
theorem EncodeLength.equ : EncodeLength.Statement .equ := encodeLength_of_plain fun _ _ => rfl
theorem EncodeLength.loe : EncodeLength.Statement .loe := encodeLength_of_plain fun _ _ => rfl
theorem EncodeLength.goe : EncodeLength.Statement .goe := encodeLength_of_plain fun _ _ => rfl
theorem EncodeLength.lt : EncodeLength.Statement .lt := encodeLength_of_plain fun _ _ => rfl
theorem EncodeLength.gt : EncodeLength.Statement .gt := encodeLength_of_plain fun _ _ => rfl
theorem EncodeLength.salloc : EncodeLength.Statement .salloc := encodeLength_of_plain fun _ _ => rfl
theorem EncodeLength.jmp : EncodeLength.Statement .jmp := encodeLength_of_plain fun _ _ => rfl
theorem EncodeLength.jz : EncodeLength.Statement .jz := encodeLength_of_plain fun _ _ => rfl
theorem EncodeLength.call : EncodeLength.Statement .call := encodeLength_of_plain fun _ _ => rfl
theorem EncodeLength.mova : EncodeLength.Statement .mova := encodeLength_of_plain fun _ _ => rfl
theorem EncodeLength.movb : EncodeLength.Statement .movb := encodeLength_of_plain fun _ _ => rfl
theorem EncodeLength.movc : EncodeLength.Statement .movc := encodeLength_of_plain fun _ _ => rfl
theorem EncodeLength.movd : EncodeLength.Statement .movd := encodeLength_of_plain fun _ _ => rfl
theorem EncodeLength.move : EncodeLength.Statement .move := encodeLength_of_plain fun _ _ => rfl
theorem EncodeLength.movf : EncodeLength.Statement .movf := encodeLength_of_plain fun _ _ => rfl
theorem EncodeLength.amov : EncodeLength.Statement .amov := encodeLength_of_plain fun _ _ => rfl
theorem EncodeLength.bmov : EncodeLength.Statement .bmov := encodeLength_of_plain fun _ _ => rfl
theorem EncodeLength.cmov : EncodeLength.Statement .cmov := encodeLength_of_plain fun _ _ => rfl
theorem EncodeLength.dmov : EncodeLength.Statement .dmov := encodeLength_of_plain fun _ _ => rfl
theorem EncodeLength.emov : EncodeLength.Statement .emov := encodeLength_of_plain fun _ _ => rfl
theorem EncodeLength.fmov : EncodeLength.Statement .fmov := encodeLength_of_plain fun _ _ => rfl
theorem EncodeLength.syscall : EncodeLength.Statement .syscall := encodeLength_of_plain fun _ _ => rfl
theorem EncodeLength.nop : EncodeLength.Statement .nop := encodeLength_of_plain fun _ _ => rfl
theorem EncodeLength.unassigned (op : Opcode) : EncodeLength.Statement (.unassigned op) :=
  encodeLength_of_plain fun _ _ => rfl

end Sys2Proof.Laws
end

