-- ==== Sys2Proof/Tests/Slice0.lean ====
section
/-! SUPPORT. Tests. Expected values are those of spec/30_encoding.md R92 (encodings) and of the vectors
of spec/95_test_vectors.md and 96_test_vectors_2.md, whose names stand in the comments. The theorems
`test_hyp_…` show, for a statement with hypotheses, concrete states and operands that meet them, one
for each clause, at the boundary. -/

namespace Sys2Proof.Tests

open Sys2Proof.Machine

/-- The default parameters. -/
abbrev dp : Parameters := defaultParameters

/-! ## Well-formedness -/

/-- The one check of `Instr.wf`: no mnemonic has the opcode, so that it is 45 to 127 under the default
table (30_encoding.md R93). -/
theorem test_wf_refuses_assigned_opcodes :
    (Instr.unassigned 0).wf dp = false ∧ (Instr.unassigned 44).wf dp = false := by decide

theorem test_wf_admits :
    (Instr.unassigned 45).wf dp = true ∧ (Instr.unassigned 127).wf dp = true ∧ (Instr.li 0x8000).wf dp = true ∧
    Instr.nop.wf dp = true := by decide

/-! ## Decoding: the nibbles of R92 bit by bit, in stream order -/

theorem test_decode_immediate :
    decode dp false [0b0000, 0b0100, 0b0011, 0b0010, 0b0001] = .instr (.li 0x1234) 5 ∧
    decode dp true [0b0000, 0b0001, 0b0010, 0b0011, 0b0100] = .instr (.li 0x1234) 5 ∧
    decode dp false [0b1000, 0b0000, 0b0100, 0b0011, 0b0010, 0b0001] = .instr (.li 0x1234) 6 := by decide

theorem test_decode_memory_load :
    decode dp false [0b0001] = .instr .lb 1 ∧
    decode dp false [0b0010] = .instr .lw 1 := by decide

theorem test_decode_stack_memory_load_store :
    decode dp false [0b0011] = .instr .lws 1 ∧
    decode dp false [0b0100] = .instr .sws 1 := by decide

theorem test_decode_memory_store :
    decode dp false [0b0101] = .instr .sb 1 ∧
    decode dp false [0b0110] = .instr .sw 1 := by decide

theorem test_decode_stack_manipulation :
    decode dp false [0b0111] = .instr .pop 1 ∧
    decode dp false [0b1000, 0b0001] = .instr .dup 2 ∧
    decode dp false [0b1001, 0b0001] = .instr .rot 2 ∧
    decode dp false [0b1010, 0b0001] = .instr .rot3 2 := by decide

theorem test_decode_arithmetic_logic :
    decode dp false [0b1011, 0b0001] = .instr .add 2 ∧
    decode dp false [0b1100, 0b0001] = .instr .sub 2 ∧
    decode dp false [0b1101, 0b0001] = .instr .mul 2 ∧
    decode dp false [0b1110, 0b0001] = .instr .div 2 ∧
    decode dp false [0b1111, 0b0001] = .instr .and 2 ∧
    decode dp false [0b1000, 0b0010] = .instr .or 2 ∧
    decode dp false [0b1001, 0b0010] = .instr .xor 2 ∧
    decode dp false [0b1010, 0b0010] = .instr .nor 2 ∧
    decode dp false [0b1011, 0b0010] = .instr .shl 2 ∧
    decode dp false [0b1100, 0b0010] = .instr .shr 2 ∧
    decode dp false [0b1101, 0b0010] = .instr .not 2 := by decide

theorem test_decode_comparisons :
    decode dp false [0b1110, 0b0010] = .instr .equ 2 ∧
    decode dp false [0b1111, 0b0010] = .instr .loe 2 ∧
    decode dp false [0b1000, 0b0011] = .instr .goe 2 ∧
    decode dp false [0b1001, 0b0011] = .instr .lt 2 ∧
    decode dp false [0b1010, 0b0011] = .instr .gt 2 := by decide

theorem test_decode_stack_growth :
    decode dp false [0b1011, 0b0011] = .instr .salloc 2 ∧
    decode dp true [0b1011, 0b0011] = .instr .salloc 2 := by decide

theorem test_decode_control_flow :
    decode dp false [0b1100, 0b0011] = .instr .jmp 2 ∧
    decode dp false [0b1101, 0b0011] = .instr .jz 2 ∧
    decode dp false [0b1110, 0b0011] = .instr .call 2 := by decide

theorem test_decode_register_transfer :
    decode dp false [0b1111, 0b0011] = .instr .mova 2 ∧
    decode dp false [0b1000, 0b0100] = .instr .movb 2 ∧
    decode dp false [0b1001, 0b0100] = .instr .movc 2 ∧
    decode dp false [0b1010, 0b0100] = .instr .movd 2 ∧
    decode dp false [0b1011, 0b0100] = .instr .move 2 ∧
    decode dp false [0b1100, 0b0100] = .instr .movf 2 ∧
    decode dp false [0b1101, 0b0100] = .instr .amov 2 ∧
    decode dp false [0b1110, 0b0100] = .instr .bmov 2 ∧
    decode dp false [0b1111, 0b0100] = .instr .cmov 2 ∧
    decode dp false [0b1000, 0b0101] = .instr .dmov 2 ∧
    decode dp false [0b1001, 0b0101] = .instr .emov 2 ∧
    decode dp false [0b1010, 0b0101] = .instr .fmov 2 := by decide

theorem test_decode_syscall :
    decode dp false [0b1011, 0b0101] = .instr .syscall 2 ∧
    decode dp true [0b1011, 0b0101] = .instr .syscall 2 := by decide

theorem test_decode_no_op :
    decode dp false [0b1100, 0b0101] = .instr .nop 2 ∧
    decode dp true [0b1100, 0b0101] = .instr .nop 2 := by decide

theorem test_decode_unassigned :
    decode dp false [0b1101, 0b0101] = .instr (.unassigned 45) 2 ∧
    decode dp true [0b1111, 0b1111] = .instr (.unassigned 127) 2 := by decide

/-- The two-nibble forms of R88 and the ends of the code (vectors F3, F4, F9, F10). -/
theorem test_decode_alias_and_end :
    decode dp false [0b1111, 0b0000] = .instr .pop 2 ∧ decode dp false [0b1011] = .exhausted ∧
    decode dp false [0b0000, 0b0101, 0b0000, 0b0000] = .exhausted ∧ decode dp false [] = .exhausted := by
  decide

/-- Code bytes of the examples of R140 and E1. -/
theorem test_decode_bytes :
    decodeBytes dp false [0x40, 0x23, 0x01] = .instr (.li 0x1234) 5 ∧
    decodeBytes dp true [0x01, 0x23, 0x40] = .instr (.li 0x1234) 5 ∧
    decodeBytes dp false [0x1B] = .instr .add 2 ∧ decodeBytes dp true [0xB1] = .instr .add 2 := by decide

theorem test_encode_bytes :
    encodeBytes dp false (.li 0x1234) = [0x40, 0x23, 0x01] ∧ encodeBytes dp true .syscall = [0xB5] ∧
    encodeLong dp false .pop = [0xF, 0x0] := by decide

/-- Words of spec/opcode_table.json. -/
theorem test_decodeTableWord :
    decodeTableWord 8 0x0B = some .add ∧ decodeTableWord 8 0x00 = some (.li 0) ∧
    decodeTableWord 24 0x123400 = some (.li 0x1234) ∧ decodeTableWord 8 0x2C = some .nop ∧
    decodeTableWord 8 0xD5 = some (.unassigned 45) := by decide

/-! ## Helpers -/

/-- A running state with these words on the stack, bottom to top (00_scope.md R12), eight code bytes,
four data bytes `11 80 00 44`, two host-extra bytes `AA 00` and `S_GETS` = "Hi". -/
def st (ws : List Int) : State :=
  { State.reset with
    sp := BitVec.ofNat 16 ws.length
    stack := (List.range ws.length).zip (ws.map wrap16)
    csSize := 8
    dsSize := 4
    extraLen := 2
    data := [(0, 0x11), (1, 0x80), (3, 0x44), (4, 0xAA)]
    sGets := [72, 105] }

/-- The same with `sp = n` and `top` on top. -/
def deep (n : Nat) (top : Int) : State :=
  { st [] with sp := BitVec.ofNat 16 n, stack := [(n - 1, wrap16 top)] }

/-- `s` with these code bytes. -/
def withCode (bs : List Byte) (s : State) : State :=
  { s with code := Memory.ofBytes 0 bs, csSize := BitVec.ofNat 16 bs.length }

/-- `s` in big mode. -/
def inBig (s : State) : State := { s with big := true }

/-- `s` with these answers of the host to come. -/
def answered (rs : List HostAnswer) (s : State) : State := { s with hostReplies := rs }

/-- The stack, bottom to top. -/
def words (t : State) : List Int := (List.range t.depth).map fun i => (t.slot i).toInt

/-- The state an answer leads to. -/
def after : Result → Option State
  | .next t => some t
  | _ => none

/-- The state an accepted image starts in. -/
def started : Loaded → Option State
  | .started s => some s
  | .rejected _ => none

/-- The status and the stack after an instruction. -/
def ran (i : Instr) (s : State) : Option (Status × List Int) :=
  (after (exec i s)).map fun t => (t.status, words t)

/-- The same for one that goes on. -/
def gives (i : Instr) (ws : List Int) : Option (List Int) :=
  (ran i (st ws)).bind fun r => if r.1 = .running then some r.2 else none

/-- The status after an instruction. -/
def ends (i : Instr) (s : State) : Option Status := (ran i s).map (·.1)

/-- Parameters that differ from the defaults in every Boolean and in each table. -/
def otherParameters : Parameters where
  opc := { defaultOpcodes with li := 44, nop := 0 }
  sysnum := { defaultSyscalls with putc := 8, fputc := 1 }
  result := { defaultResults with stackUnderflow := 40 }
  nibbleLowFirstInLittle := false
  liLowFirstInLittle := false
  lbSignExtend := true
  shrArithmetic := false
  rot3ThirdToTop := false
  storeValueOnTop := false
  jzCondOnTop := false
  storeReachesExtra := false
  absOnlyJmp := false

/-- The same state on a machine with those parameters. -/
def swapped (s : State) : State := { s with params := otherParameters }

/-! ## One step of each instruction -/

/-- Vectors I5, I6, I9. -/
theorem test_li :
    ran (.li 0xFFFF) (st []) = some (.running, [-1]) ∧
    ran (.li 0x8000) (st [7]) = some (.running, [7, -32768]) ∧
    ends (.li 1) (deep 8192 0) = some (.fault .stackOverflow) := by decide

/-- Vectors M1, M5, M4 and the end of the host-extra region. -/
theorem test_lb :
    gives .lb [1] = some [128] ∧
    gives .lb [4] = some [170] ∧
    ends .lb (st [6]) = some (.fault .accessViolation) ∧
    ends .lb (st [-1]) = some (.fault .accessViolation) := by decide

/-- Rule R143 in both modes; vector M17. -/
theorem test_lw :
    gives .lw [0] = some [-32751] ∧
    ran .lw (inBig (st [0])) = some (.running, [4480]) ∧
    ends .lw (st [3]) = some (.fault .accessViolation) := by decide

/-- Vectors M25, M27, M30. -/
theorem test_sb :
    (after (exec .sb (st [4, 511]))).map (fun t => (t.sp, t.data)) =
      some (0, [(0, 0x11), (1, 0x80), (3, 0x44), (4, 0xFF)]) ∧
    ends .sb (st [6, 1]) = some (.fault .accessViolation) ∧
    ends .sb (st [1]) = some (.fault .stackUnderflow) := by decide

/-- Vectors M33, M34, M37, M38; a zero byte leaves no entry. -/
theorem test_sw :
    (after (exec .sw (st [0, 0x1234]))).map (fun t => t.data) =
      some [(0, 0x34), (1, 0x12), (3, 0x44), (4, 0xAA)] ∧
    (after (exec .sw (inBig (st [4, 0x1200])))).map (fun t => t.data) =
      some [(0, 0x11), (1, 0x80), (3, 0x44), (4, 0x12)] ∧
    ends .sw (st [5, 4660]) = some (.fault .accessViolation) := by decide

/-- Vectors W1, W2, W5. -/
theorem test_lws :
    gives .lws [7, 9, 0] = some [7, 9, 7] ∧
    gives .lws [7, 9, 2] = some [7, 9, 2] ∧
    ends .lws (st [8192]) = some (.fault .stackAccessViolation) := by decide

/-- Vectors W7, W9, W12. -/
theorem test_sws :
    gives .sws [7, 9, 0, 5] = some [5, 9] ∧
    (after (exec .sws (st [7, 9, 2, 5]))).map (fun t => (t.sp, t.slot 2)) = some (2, 5) ∧
    ends .sws (st [1, 8192, 5]) = some (.fault .stackAccessViolation) := by decide

/-- Vectors S1, S3, S4, S7. -/
theorem test_pop_dup :
    gives .pop [4, 9] = some [4] ∧
    ends .pop (st []) = some (.fault .stackUnderflow) ∧
    gives .dup [4, 9] = some [4, 9, 9] ∧
    ends .dup (deep 8192 0) = some (.fault .stackOverflow) := by decide

/-- Vectors S8, S10, S13, S14. -/
theorem test_rot_rot3 :
    gives .rot [1, 2, 3] = some [1, 3, 2] ∧
    ends .rot (st [1]) = some (.fault .stackUnderflow) ∧
    gives .rot3 [9, 1, 2, 3] = some [9, 2, 3, 1] ∧
    ends .rot3 (st [1, 2]) = some (.fault .stackUnderflow) := by decide

/-- Vectors A2, A5, A9, A10, A14, A16. -/
theorem test_add_sub_mul :
    gives .add [32767, 1] = some [-32768] ∧
    gives .add [9, 2, 3] = some [9, 5] ∧
    gives .sub [3, 10] = some [-7] ∧
    gives .sub [-32768, 1] = some [32767] ∧
    gives .mul [300, 300] = some [24464] ∧
    gives .mul [-32768, -1] = some [-32768] := by decide

/-- Vectors A22, A23, A28, A31. -/
theorem test_div :
    gives .div [-7, 2] = some [-3] ∧
    gives .div [7, -2] = some [-3] ∧
    gives .div [-32768, -1] = some [-32768] ∧
    ran .div (st [5, 0]) = some (.fault .divideByZero, [5, 0]) := by decide

/-- Vectors A34, A37, A38, A40. -/
theorem test_and_or_xor_nor :
    gives .and [12, 10] = some [8] ∧
    gives .or [-32768, 1] = some [-32767] ∧
    gives .xor [12, 10] = some [6] ∧
    gives .nor [12, 10] = some [-15] := by decide

/-- Vectors A48, A50, A55, A60. -/
theorem test_shl_shr :
    gives .shl [1, 15] = some [-32768] ∧
    gives .shl [16385, 1] = some [-32766] ∧
    gives .shr [-16, 2] = some [-4] ∧
    gives .shr [-7, 1] = some [-4] := by decide

/-- Vectors A52, A63: the instruction completes with the next unspecified word. -/
theorem test_shift_out_of_range :
    (after (exec .shl (st [1, 16]))).map (fun t => (t.sp, t.slot 0, t.freeIdx, t.status)) =
      some (1, Config.shiftOor 0, 1, .running) ∧
    (after (exec .shr { st [5, -3] with freeIdx := 7 })).map (fun t => (t.sp, t.slot 0, t.freeIdx)) =
      some (1, Config.shiftOor 7, 8) := ⟨rfl, rfl⟩

/-- A slot nothing has written holds a free value (93_implementation_defined.md V1). -/
theorem test_stack_reset_is_free :
    (after (exec .lws (st [5]))).map (fun t => t.slot 0) = some (Config.stackReset 5) := rfl

/-- Vectors A65, A67. -/
theorem test_not :
    gives .not [0] = some [1] ∧
    gives .not [-5] = some [0] := by decide

/-- Rules R175 to R179: signed, the second word from the top on the left. -/
theorem test_comparisons :
    gives .equ [5, 5] = some [1] ∧
    gives .loe [-1, 1] = some [1] ∧
    gives .loe [2, 1] = some [0] ∧
    gives .goe [-1, 1] = some [0] ∧
    gives .goe [1, 1] = some [1] ∧
    gives .lt [-32768, 32767] = some [1] ∧
    gives .lt [1, 1] = some [0] ∧
    gives .gt [0, -1] = some [1] ∧
    gives .gt [1, 1] = some [0] := by decide

/-- Vectors L1 to L4, L5, L9. -/
theorem test_salloc :
    gives .salloc [9, 2] = some [9, 0, 0, 0] ∧
    gives .salloc [9, 0] = some [9, 0] ∧
    gives .salloc [-1] = some [] ∧
    ends .salloc (st [9, -2]) = some (.fault .stackUnderflow) ∧
    ends .salloc (deep 8190 3) = some (.fault .stackOverflow) := by decide

/-- Vectors J2, J4, J5, J11. -/
theorem test_jmp :
    (after (exec .jmp (st [-6]))).map (fun t => (t.pc, t.jf, t.sp)) = some (6, true, 0) ∧
    (after (exec .jmp (st [15]))).map (fun t => t.pc) = some 15 ∧
    ends .jmp (st [16]) = some (.fault .jumpTargetViolation) ∧
    (after (exec .jmp { st [-32768] with csSize := 16385 })).map (fun t => t.pc) = some 32768 := by decide

/-- Vectors J14, J16, J17, J18, J19. -/
theorem test_jz :
    (after (exec .jz (st [10, 0]))).map (fun t => (t.pc, t.jf, t.sp)) = some (10, true, 0) ∧
    (after (exec .jz (st [10, -1]))).map (fun t => (t.pc, t.jf, t.sp)) = some (0, false, 0) ∧
    ends .jz (st [16, 0]) = some (.fault .jumpTargetViolation) ∧
    gives .jz [16, 1] = some [] ∧
    ends .jz (st [-6, 0]) = some (.fault .jumpTargetViolation) := by decide

/-- Vectors J24, J27, J28. -/
theorem test_call :
    (after (exec .call { st [20] with csSize := 16, pc := 6 })).map (fun t => (t.pc, t.jf, words t)) =
      some (20, true, [7]) ∧
    ends .call ({ st [32] with csSize := 16 }) = some (.fault .jumpTargetViolation) ∧
    ends .call (st [-6]) = some (.fault .jumpTargetViolation) := by decide

/-- Vectors G1 to G5. -/
theorem test_pop_into_registers :
    (after (exec .mova (st [4, -2]))).map (fun t => (t.aft, words t)) = some (wrap16 (-2), [4]) ∧
    (after (exec .movb (st [4, -2]))).map (fun t => (t.bur, words t)) = some (wrap16 (-2), [4]) ∧
    (after (exec .movc (st [4, -2]))).map (fun t => (t.con, words t)) = some (wrap16 (-2), [4]) ∧
    (after (exec .movd (st [4, -2]))).map (fun t => (t.dis, words t)) = some (wrap16 (-2), [4]) ∧
    (after (exec .movf (st [4, -2]))).map (fun t => (t.bp, words t)) = some (wrap16 (-2), [4]) := by decide

/-- Vectors G7, G9, G12, G13. -/
theorem test_move :
    gives .move [5, 6, 7, 1] = some [5] ∧
    gives .move [5, 6, 7, 4] = some [5, 6, 7, 4] ∧
    ends .move (st [8193]) = some (.fault .stackOverflow) ∧
    ends .move (st [-1]) = some (.fault .stackUnderflow) := by decide

/-- Vectors G15 to G19, G21, G23. -/
theorem test_push_from_registers :
    (after (exec .amov { st [1] with aft := 7 })).map (fun t => (t.aft, words t)) = some (7, [1, 7]) ∧
    (after (exec .bmov { st [1] with bur := 7 })).map (fun t => (t.bur, words t)) = some (7, [1, 7]) ∧
    (after (exec .cmov { st [1] with con := 7 })).map (fun t => (t.con, words t)) = some (7, [1, 7]) ∧
    (after (exec .dmov { st [1] with dis := 7 })).map (fun t => (t.dis, words t)) = some (7, [1, 7]) ∧
    (after (exec .fmov { st [1] with bp := 7 })).map (fun t => (t.bp, words t)) = some (7, [1, 7]) ∧
    gives .emov [5, 6, 7] = some [5, 6, 7, 3] ∧
    ends .amov (deep 8192 0) = some (.fault .stackOverflow) := by decide

/-- Vectors G25, F5. -/
theorem test_nop_unassigned :
    after (exec .nop (st [4, 9])) = some (st [4, 9]) ∧
    after (exec (.unassigned 127) (st [4, 9])) = some (st [4, 9]) := by decide

/-- Vectors Y2, Y4, Y13, Y42, Y44. -/
theorem test_syscall_hlt_info :
    ran .syscall (st [5, -256]) = some (.halted, [5, -256]) ∧
    ends .syscall (st []) = some (.fault .stackUnderflow) ∧
    (after (exec .syscall (st [3]))).map (fun t => (words t, t.hostLog)) = some ([3], [.dump]) ∧
    ends .syscall (st [9]) = some (.fault .invalidSyscall) ∧
    ends .syscall (st [265]) = some (.fault .invalidSyscall) := by decide

/-- Vectors Y6, Y7, Y8, Y10, Y11, Y12. -/
theorem test_syscall_console :
    (after (exec .syscall (answered [.ok 0] (st [8001, 1])))).map (fun t => (words t, t.hostLog)) =
      some ([8001, 1], [.emitByte 65]) ∧
    ends .syscall (st [1]) = some (.fault .syscallStackUnderflow) ∧
    ends .syscall (answered [.fail] (st [72, 1])) = some .hostFault ∧
    ran .syscall (answered [.ok 0xFF] (st [2])) = some (.running, [2, 255]) ∧
    ends .syscall (answered [.fail] (st [2])) = some .hostFault ∧
    (after (exec .syscall (answered [.ok 0x41] (deep 8192 2)))).map (fun t => (t.status, t.hostReplies)) =
      some (.fault .stackOverflow, []) := by decide

/-- Vectors Y14, Y15, Y16, Y19. -/
theorem test_syscall_gets :
    gives .syscall [0, 0, 0, 2, 4] = some [0, 105, 72] ∧
    gives .syscall [9, 9, 1, 4] = some [105, 72] ∧
    ends .syscall (st [9, 9, 0, 4]) = some (.fault .stackOverflow) ∧
    ends .syscall ({ st [9, 8192, 4] with sGets := [] }) = some (.fault .stackOverflow) := by decide

/-- Vectors Y25, Y27, Y29, Y31 over the data `11 80 00 44`: the path at 1 is one byte long, the one at 3
has no terminator inside `ds_size`. -/
theorem test_syscall_open :
    (after (exec .syscall (answered [.ok 40000] (st [7, 1, 8, 5])))).map (fun t => (words t, t.hostLog)) =
      some ([7, -25536], [.openFile [0x80] 8]) ∧
    (after (exec .syscall (answered [.ok 3] (st [4, 0, 5])))).map (fun t => (t.status, t.hostLog)) =
      some (.hostFault, []) ∧
    ends .syscall (answered [.ok 3] (st [3, 0, 5])) = some .hostFault ∧
    ends .syscall (answered [.ok 65536] (st [0, 0, 5])) = some .hostFault := by decide

/-- Vectors Y33, Y35, Y37, Y39, Y40, Y41. -/
theorem test_syscall_files :
    ran .syscall (answered [.fail] (st [9, 3, 6])) = some (.running, [9]) ∧
    ran .syscall (answered [.ok 0x41] (st [9, 3, 7])) = some (.running, [9, 65]) ∧
    ran .syscall (answered [.fail] (st [9, 3, 7])) = some (.running, [9, -1]) ∧
    (after (exec .syscall (answered [.ok 0] (st [9, 321, 3, 8])))).map (fun t => (words t, t.hostLog)) =
      some ([9, 0], [.write1 3 0x41]) ∧
    ran .syscall (answered [.fail] (st [9, 65, 3, 8])) = some (.running, [9, -1]) ∧
    ends .syscall (st [3, 8]) = some (.fault .syscallStackUnderflow) := by decide

/-! ## Other parameters: the other value each rule gives -/

/-- R81, R86 and R93 under other parameters: the halves of a byte and the immediate's nibbles the other
way round, `LI` and `NOP` exchanged. -/
theorem test_other_decode :
    decodeBytes otherParameters false [0xC5, 0x12, 0x34] = .instr (.li 0x1234) 6 ∧
    decodeBytes otherParameters true [0x5C, 0x12, 0x34] = .instr (.li 0x3412) 6 ∧
    decodeBytes otherParameters false [0x01] = .instr .nop 1 ∧
    encodeBytes otherParameters false (.li 0x1234) = [0xC5, 0x12, 0x34] ∧
    (Instr.unassigned 44).wf otherParameters = false := by decide

/-- R142, R163, R173 with the other value. -/
theorem test_other_values :
    ran .lb (swapped (st [1])) = some (.running, [-128]) ∧
    ran .rot3 (swapped (st [1, 2, 3])) = some (.running, [3, 1, 2]) ∧
    ran .shr (swapped (st [-16, 2])) = some (.running, [16380]) := by decide

/-- R144, R147, R201, R202 with the other value, R59 without the host-extra region, and the services 1
and 8 exchanged. -/
theorem test_other_operands :
    (after (exec .sb (swapped (st [511, 3])))).map (fun t => (t.sp, t.dataByte 3)) = some (0, 0xFF) ∧
    ends .sb (swapped (st [511, 4])) = some (.fault .accessViolation) ∧
    ran .sws (swapped (st [5, 0])) = some (.running, []) ∧
    (after (exec .jz (swapped (st [0, -6])))).map (fun t => (t.pc, t.jf)) = some (6, true) ∧
    (after (exec .call (swapped (st [-6])))).map (fun t => (t.pc, words t)) = some (6, [1]) ∧
    (after (exec .syscall (answered [.ok 0] (swapped (st [65, 8]))))).map (·.hostLog) =
      some [.emitByte 65] := by decide

/-! ## Whole steps -/

/-- Vectors F1, F5 and B2. -/
theorem test_step :
    (after (step { withCode [0x07, 0x34, 0x12] (st []) with pc := 1 })).map
      (fun t => (t.pc, words t, t.icount)) = some (6, [4660], 1) ∧
    (after (step (withCode [0xFF, 0x07] (st [4, 9])))).map (fun t => (t.pc, words t, t.icount)) =
      some (2, [4, 9], 1) ∧
    after (step { withCode [0x1B] (st [5]) with aft := 3, icount := 10 }) =
      some { withCode [0x1B] (st [5]) with aft := 3, icount := 10, status := .fault .stackUnderflow } := by
  decide

/-- spec/95_test_vectors.md F10 and the note under I9: the immediate is fetched before the push. -/
theorem test_step_li_out_of_code :
    (after (step (withCode [0x50, 0x00] (st [])))).map (fun t => (t.status, t.pc, words t)) =
      some (.fault .codeExhausted, 0, []) ∧
    (after (step (withCode [0x10, 0x00] (deep 8192 0)))).map (·.status) =
      some (.fault .codeExhausted) := by decide

/-- Vectors Y1, B3, B4, B6 and F9. -/
theorem test_step_ends :
    (after (step (withCode [0x5B] (st [5, 0])))).map (fun t => (t.status, t.pc, t.icount)) =
      some (.halted, 1, 1) ∧
    (after (step { withCode [0x5C] (st []) with icount := 1048575 })).map
      (fun t => (t.status, t.pc, t.icount)) = some (.running, 2, 1048576) ∧
    (after (step { withCode [0x5C] (st []) with icount := 1048576, pc := 2 })).map
      (fun t => (t.status, t.pc, t.icount)) = some (.fault .budgetExceeded, 2, 1048576) ∧
    (after (step { withCode [0xB7] (st [1]) with pc := 1 })).map (fun t => (t.status, t.pc)) =
      some (.fault .codeExhausted, 1) := by decide

/-- The instruction placed by `withFetchWord` is the one the next step runs. -/
theorem test_withFetchWord :
    (after (step (State.reset.withFetchWord 24 0x123400))).map (fun t => (t.pc, words t)) =
      some (5, [4660]) ∧
    (after (step { (State.reset.withFetchWord 8 0x2C) with aft := 9 })).map
      (fun t => (t.pc, t.aft, t.status)) = some (2, 9, .running) ∧
    (after (step (State.reset.withFetchWord 8 0xD5))).map (fun t => (t.pc, t.icount)) =
      some (2, 1) := by decide

/-- Vectors Q9 and Q12 are accepted, Q4, Q5, Q6, Q7, Q13 rejected. -/
theorem test_loader :
    loadImage dp [0x47, 0x4F, 0x56, 0x4D, 0x10, 1, 0, 4, 0, 2, 0, 0xEF, 0xBE, 0, 0, 0xC5, 0x41, 0x42, 0x99] [7] [] =
      .started { State.reset with
        csSize := 1, dsSize := 4, extraLen := 1, code := [(0, 0xC5)],
        data := [(0, 0x41), (1, 0x42), (4, 7)] } ∧
    loadImage dp [0x47, 0x4F, 0x56] [] [] = .rejected .badHeader ∧
    loadImage dp [0x47, 0x4F, 0x56, 0x4D, 0x12, 6, 0] [] [] = .rejected .badFormat ∧
    loadImage dp [0x47, 0x4F, 0x56, 0x4D, 0x10, 6, 0, 0, 0, 0, 0] [] [] = .rejected .truncatedImage ∧
    loadImage dp [0x47, 0x4F, 0x56, 0x4D, 0x10, 1, 0, 2, 0, 3, 0, 0, 0, 0, 0, 0xC5] [] [] =
      .rejected .invalidLayout ∧
    loadImage dp [0x47, 0x4F, 0x56, 0x4D, 0x10, 0, 0, 0, 0, 0, 0, 0, 0, 0, 0] [] [] =
      .rejected .invalidEntryPoint := by decide

/-- The run result of R262: the causes are 1 to 10, `Halted` 0, `HostFault` -1. -/
theorem test_runResult :
    runResult dp.result .halted = some 0 ∧ runResult dp.result (.fault .stackUnderflow) = some 1 ∧
    runResult dp.result (.fault .syscallStackUnderflow) = some 10 ∧ runResult dp.result .hostFault = some (-1) ∧
    runResult dp.result .running = none ∧ loadErrorCode dp.result .invalidEntryPoint = 20 := by decide

theorem test_reset_memories_canonical :
    Memory.wf State.reset.code ∧ Memory.wf State.reset.data ∧ StackSpace.wf State.reset.stack := by
  decide

/-! ## Witnesses of the statements' hypotheses -/

/-- The hypothesis `LegalParameters` of the statements, for the default parameters, which every state
built by `st` has, and for others. -/
theorem test_hyp_LegalParameters :
    LegalParameters dp ∧ (st []).params = dp ∧ LegalParameters otherParameters :=
  ⟨defaultParameters_legal, rfl, by decide, by intro r; cases r <;> decide,
    by intro r; cases r <;> decide, by decide, by decide, by decide,
    by intro d; cases d <;> decide, by intro e; cases e <;> decide, by decide⟩

/-- Also for `DecodeOfEncodedBytes` and `LongFormDecodesAlike`, which have the same hypothesis. -/
theorem test_hyp_DecodeOfEncode :
    (Instr.unassigned 45).wf dp = true ∧
    (Instr.li 0xFFFF).wf dp = true ∧
    Instr.jz.wf dp = true := by decide

theorem test_hyp_EveryNibbleStringDecodes :
    6 ≤ ([15, 15, 0, 0, 0, 0] : List Nibble).length := by decide

theorem test_hyp_OpcodeNibblesAssemble :
    (8 : Nibble).getLsbD 3 = true ∧
    (7 : Nibble).getLsbD 3 = false := by decide

theorem test_hyp_FetchSelectsNibbles :
    5 < 6 ∧
    (withCode [0x07, 0x34, 0x12] (st [])).codeWindow[5]? = some 1 := by decide

theorem test_hyp_StepRunsTheDecodedInstruction :
    ((withCode [0x1B] (st [2, 3])).status = .running ∧
      (withCode [0x1B] (st [2, 3])).icount < Config.budget ∧
      decode (withCode [0x1B] (st [2, 3])).params (withCode [0x1B] (st [2, 3])).big (withCode [0x1B] (st [2, 3])).codeWindow = .instr .add 2 ∧
      (after (exec .add ((withCode [0x1B] (st [2, 3])).beginStep 1))).map (fun t => (t.status, t.jf)) = some (.running, false)) ∧
    ((withCode [0x3C] (st [1])).status = .running ∧
      (withCode [0x3C] (st [1])).icount < Config.budget ∧
      decode (withCode [0x3C] (st [1])).params (withCode [0x3C] (st [1])).big (withCode [0x3C] (st [1])).codeWindow = .instr .jmp 2 ∧
      (after (exec .jmp ((withCode [0x3C] (st [1])).beginStep 1))).map (fun t => (t.status, t.jf)) = some (.running, true)) ∧
    ((withCode [0x5B] (st [0])).status = .running ∧
      (withCode [0x5B] (st [0])).icount < Config.budget ∧
      decode (withCode [0x5B] (st [0])).params (withCode [0x5B] (st [0])).big (withCode [0x5B] (st [0])).codeWindow = .instr .syscall 2 ∧
      ends .syscall ((withCode [0x5B] (st [0])).beginStep 1) = some .halted) ∧
    ((withCode [0x1B] (st [2])).status = .running ∧
      (withCode [0x1B] (st [2])).icount < Config.budget ∧
      decode (withCode [0x1B] (st [2])).params (withCode [0x1B] (st [2])).big (withCode [0x1B] (st [2])).codeWindow = .instr .add 2 ∧
      ends .add ((withCode [0x1B] (st [2])).beginStep 1) = some (.fault .stackUnderflow)) ∧
    ((withCode [0x5B] (answered [.fail] (st [2]))).status = .running ∧
      (withCode [0x5B] (answered [.fail] (st [2]))).icount < Config.budget ∧
      decode (withCode [0x5B] (answered [.fail] (st [2]))).params (withCode [0x5B] (answered [.fail] (st [2]))).big (withCode [0x5B] (answered [.fail] (st [2]))).codeWindow = .instr .syscall 2 ∧
      ends .syscall ((withCode [0x5B] (answered [.fail] (st [2]))).beginStep 1) = some .hostFault) := by decide

theorem test_hyp_BudgetThenCodeEnd :
    (({ st [] with icount := 1048576 }).status = .running ∧
      Config.budget ≤ ({ st [] with icount := 1048576 }).icount) ∧
    (({ st [] with icount := 1048575, pc := 16 }).status = .running ∧
      ({ st [] with icount := 1048575, pc := 16 }).icount < Config.budget ∧
      ({ st [] with icount := 1048575, pc := 16 }).csSize.toNat ≤ ({ st [] with icount := 1048575, pc := 16 }).pc / 2) ∧
    (({ withCode [0xB7] (st []) with pc := 1 }).status = .running ∧
      ({ withCode [0xB7] (st []) with pc := 1 }).icount < Config.budget ∧
      ({ withCode [0xB7] (st []) with pc := 1 }).fetchNibble ({ withCode [0xB7] (st []) with pc := 1 }).pc = some 0xB ∧
      (0xB : Nibble).getLsbD 3 = true ∧
      ({ withCode [0xB7] (st []) with pc := 1 }).csSize.toNat ≤ (({ withCode [0xB7] (st []) with pc := 1 }).pc + 1) / 2) ∧
    ((withCode [0x50, 0x00] (deep 8192 0)).status = .running ∧
      (withCode [0x50, 0x00] (deep 8192 0)).icount < Config.budget ∧
      (withCode [0x50, 0x00] (deep 8192 0)).fetchNibble (withCode [0x50, 0x00] (deep 8192 0)).pc = some 0 ∧
      (0 : Nibble).getLsbD 3 = false ∧
      (0 : Nibble).toNat = (opcodeOf (withCode [0x50, 0x00] (deep 8192 0)).params (.li 0)).toNat ∧
      (withCode [0x50, 0x00] (deep 8192 0)).csSize.toNat ≤ ((withCode [0x50, 0x00] (deep 8192 0)).pc + 4) / 2) ∧
    ((withCode [0x08, 0x00] (deep 8192 0)).status = .running ∧
      (withCode [0x08, 0x00] (deep 8192 0)).icount < Config.budget ∧
      (withCode [0x08, 0x00] (deep 8192 0)).fetchNibble (withCode [0x08, 0x00] (deep 8192 0)).pc = some 8 ∧
      (withCode [0x08, 0x00] (deep 8192 0)).fetchNibble ((withCode [0x08, 0x00] (deep 8192 0)).pc + 1) = some 0 ∧
      (8 : Nibble).getLsbD 3 = true ∧
      (8 : Nibble).toNat % 8 + 8 * (0 : Nibble).toNat = (opcodeOf (withCode [0x08, 0x00] (deep 8192 0)).params (.li 0)).toNat ∧
      (withCode [0x08, 0x00] (deep 8192 0)).csSize.toNat ≤ ((withCode [0x08, 0x00] (deep 8192 0)).pc + 5) / 2) := by decide

theorem test_hyp_StatusChangesOnlyAsNamed :
    ({ st [] with status := .halted } : State).status ≠ .running ∧
    (st [0]).status = .running ∧ (st [0]).params = dp ∧ ends .syscall (st [0]) = some .halted ∧
    (answered [.fail] (st [2])).status = .running ∧
      ends .syscall (answered [.fail] (st [2])) = some .hostFault := by decide

theorem test_hyp_FaultsArePrecise :
    (after (step (withCode [0x1B] (st [2])))).map (·.status) = some (.fault .stackUnderflow) ∧
    (after (step (withCode [0x5B] (answered [.fail] (st [2]))))).map (·.status) = some .hostFault := by decide

/-- Also for `CodeAndConfigurationConstant`, whose hypothesis is that a step answers a next state. -/
theorem test_hyp_InstructionCounterCounts :
    (after (step (withCode [0x1B] (st [2, 3])))).map (·.status) = some .running ∧
    (after (step (withCode [0x5B] (st [0])))).map (·.status) = some .halted ∧
    (after (step (withCode [0x1B] (st [2])))).map (·.status) = some (.fault .stackUnderflow) ∧
    (after (exec .add (st [2, 3]))).isSome := by decide

theorem test_hyp_EveryRunEndsWithinTheBudget :
    (st []).status = .running ∧
    State.reset.status = .running := by decide

theorem test_hyp_StepKeepsInvariant :
    Invariant (withCode [0x1B] (st [2, 3])) ∧ (after (step (withCode [0x1B] (st [2, 3])))).isSome := by
  refine ⟨⟨by decide, by decide, by decide, by decide, by decide, by decide, by decide, by decide,
    by decide, defaultParameters_legal⟩, by decide⟩

/-- Also for `LoaderMakesTheResetState`. -/
theorem test_hyp_LoadedStateIsSound :
    (started (loadImage dp
      [0x47, 0x4F, 0x56, 0x4D, 0x11, 0, 1, 0, 2, 0, 1, 0, 0, 0, 1, 0xC5, 0x41] [7] [72])).map
      (fun s => (s.pc, s.big, s.dataByte 0, s.dataByte 1, s.dataByte 2)) =
        some (1, true, 0x41, 0, 7) := by decide

/-- Both sides of the equivalence hold of one image and fail of another, one byte short. -/
theorem test_hyp_LoaderAcceptsExactly :
    (started (loadImage dp
      [0x47, 0x4F, 0x56, 0x4D, 0x10, 1, 0, 0, 0, 0, 0, 0, 0, 1, 0, 0xC5] [] [])).isSome ∧
    loadImage dp [0x47, 0x4F, 0x56, 0x4D, 0x10, 1, 0, 0, 0, 0, 0, 0, 0, 1, 0] [] [] =
      .rejected .truncatedImage := by decide

theorem test_hyp_RegistersPrivateToTheirMoves :
    Reg.bp ∈ plainRegs ∧
    Instr.add ≠ popInstr .bp ∧
    Instr.add ≠ pushInstr .bp ∧
    (after (exec .add (st [2, 3]))).isSome := by decide

theorem test_hyp_EffectsBelongToTheirInstructions :
    (after (exec .pop (st [2, 3]))).isSome ∧
    Instr.pop ≠ .sb ∧ Instr.pop ≠ .sw ∧ Instr.pop ≠ .syscall ∧ Instr.pop ≠ .jmp ∧ Instr.pop ≠ .jz ∧
    Instr.pop ≠ .call ∧ Instr.pop ≠ .shl ∧ Instr.pop ≠ .shr := by decide

theorem test_hyp_DataReadOnlyByItsInstructions :
    Instr.lws ∉ [.lb, .lw, .sb, .sw, .syscall] ∧
    (after (exec .lws (st [2, 0]))).isSome := by decide

theorem test_hyp_TooFewOperandsUnderflow :
    (st []).depth < wordsRead .pop ∧
    (st [1, 2]).depth < wordsRead .rot3 ∧
    (st [1]).depth < wordsRead .sw := by decide

theorem test_hyp_PushOntoFullStackOverflows :
    (Instr.dup ∈ pushers 7 ∧ wordsRead .dup ≤ (deep 8192 0).depth ∧ 8192 ≤ (deep 8192 0).depth ∧
      8192 < (deep 8192 0).depth + 1) ∧
    (Instr.dup ∈ pushers 7 ∧ wordsRead .dup ≤ (deep 8191 0).depth ∧ (deep 8191 0).depth < 8192 ∧
      (deep 8191 0).depth + 1 ≤ 8192) := by decide

theorem test_hyp_LiPushesImmediate :
    ((deep 8191 0).depth < 8192) ∧
    ((st []).depth < 8192) := by decide

theorem test_hyp_LoadBounds :
    (1 ≤ (st [5]).depth ∧ 0 ≤ ((st [5]).top 0).toInt ∧
      ((st [5]).top 0).toInt < (st [5]).dsSize.toNat + (st [5]).extraLen) ∧
    (1 ≤ (st [6]).depth ∧ ¬ ((st [6]).top 0).toInt < (st [6]).dsSize.toNat + (st [6]).extraLen) ∧
    (1 ≤ (st [-1]).depth ∧ ¬ 0 ≤ ((st [-1]).top 0).toInt) ∧
    (1 ≤ (st [2]).depth ∧ 0 ≤ ((st [2]).top 0).toInt ∧
      ((st [2]).top 0).toInt + 1 < (st [2]).dsSize.toNat) ∧
    (1 ≤ (st [3]).depth ∧ ¬ ((st [3]).top 0).toInt + 1 < (st [3]).dsSize.toNat) := by decide

theorem test_hyp_LbLoadsByte :
    (1 ≤ (st [5]).depth ∧ ((st [5]).top 0).toInt = (5 : Nat) ∧
      5 < (st [5]).dsSize.toNat + (st [5]).extraLen) ∧
    (1 ≤ (st [0]).depth ∧ ((st [0]).top 0).toInt = (0 : Nat) ∧
      0 < (st [0]).dsSize.toNat + (st [0]).extraLen) := by decide

theorem test_hyp_LwLoadsWord :
    (1 ≤ (st [2]).depth ∧ ((st [2]).top 0).toInt = (2 : Nat) ∧ 2 + 1 < (st [2]).dsSize.toNat ∧
      (st [2]).big = false) ∧
    (1 ≤ (inBig (st [0])).depth ∧ ((inBig (st [0])).top 0).toInt = (0 : Nat) ∧
      0 + 1 < (inBig (st [0])).dsSize.toNat ∧ (inBig (st [0])).big = true) := by decide

theorem test_hyp_SbStoresByte :
    (2 ≤ (st [5, 1]).depth ∧ OperandPair (st [5, 1]).params.storeValueOnTop 1 5 (st [5, 1]) ∧
      6 = (st [5, 1]).dsSize.toNat + (if (st [5, 1]).params.storeReachesExtra then (st [5, 1]).extraLen else 0) ∧
      accessAt 5 1 6 = some 5) ∧
    (2 ≤ (swapped (st [1, 3])).depth ∧
      OperandPair (swapped (st [1, 3])).params.storeValueOnTop 1 3 (swapped (st [1, 3])) ∧
      4 = (swapped (st [1, 3])).dsSize.toNat + (if (swapped (st [1, 3])).params.storeReachesExtra then (swapped (st [1, 3])).extraLen else 0) ∧
      accessAt 3 1 4 = some 3) ∧
    (2 ≤ (st [6, 1]).depth ∧ OperandPair (st [6, 1]).params.storeValueOnTop 1 6 (st [6, 1]) ∧
      6 = (st [6, 1]).dsSize.toNat + (if (st [6, 1]).params.storeReachesExtra then (st [6, 1]).extraLen else 0) ∧
      ¬ (0 ≤ (6 : Word).toInt ∧ (6 : Word).toInt < (6 : Nat))) ∧
    (2 ≤ (st [-1, 1]).depth ∧
      OperandPair (st [-1, 1]).params.storeValueOnTop 1 (-1) (st [-1, 1]) ∧
      6 = (st [-1, 1]).dsSize.toNat + (if (st [-1, 1]).params.storeReachesExtra then (st [-1, 1]).extraLen else 0) ∧
      ¬ (0 ≤ (-1 : Word).toInt ∧ (-1 : Word).toInt < (6 : Nat))) := by decide

theorem test_hyp_SwStoresWord :
    (2 ≤ (st [4, 1]).depth ∧
      6 = (st [4, 1]).dsSize.toNat + (if (st [4, 1]).params.storeReachesExtra then (st [4, 1]).extraLen else 0) ∧
      OperandPair (st [4, 1]).params.storeValueOnTop 1 4 (st [4, 1]) ∧ accessAt 4 2 6 = some 4 ∧
      (st [4, 1]).big = false) ∧
    (2 ≤ (inBig (st [0, 1])).depth ∧
      6 = (inBig (st [0, 1])).dsSize.toNat + (if (inBig (st [0, 1])).params.storeReachesExtra then (inBig (st [0, 1])).extraLen else 0) ∧
      OperandPair (inBig (st [0, 1])).params.storeValueOnTop 1 0 (inBig (st [0, 1])) ∧
      accessAt 0 2 6 = some 0 ∧ (inBig (st [0, 1])).big = true) ∧
    (2 ≤ (st [5, 1]).depth ∧
      6 = (st [5, 1]).dsSize.toNat + (if (st [5, 1]).params.storeReachesExtra then (st [5, 1]).extraLen else 0) ∧
      OperandPair (st [5, 1]).params.storeValueOnTop 1 5 (st [5, 1]) ∧
      ¬ (0 ≤ (5 : Word).toInt ∧ (5 : Word).toInt + 1 < (6 : Nat))) ∧
    (2 ≤ (st [-1, 1]).depth ∧
      6 = (st [-1, 1]).dsSize.toNat + (if (st [-1, 1]).params.storeReachesExtra then (st [-1, 1]).extraLen else 0) ∧
      OperandPair (st [-1, 1]).params.storeValueOnTop 1 (-1) (st [-1, 1]) ∧
      ¬ (0 ≤ (-1 : Word).toInt ∧ (-1 : Word).toInt + 1 < (6 : Nat))) := by decide

/-- The reading state is the one after the store, which leaves the address on top. -/
theorem test_hyp_StoredWordReadsBack :
    2 ≤ (st [2, 2, 300]).depth ∧ (2 : Word).toInt = (2 : Nat) ∧
    OperandPair (st [2, 2, 300]).params.storeValueOnTop 300 2 (st [2, 2, 300]) ∧
    2 + 1 < (st [2, 2, 300]).dsSize.toNat ∧ (st [2, 2, 300]).params.lbSignExtend = false ∧
    (after (exec .sw (st [2, 2, 300]))).map (fun t => (decide (1 ≤ t.depth), (t.top 0).toInt)) =
      some (true, 2) ∧
    (after (exec .sw (st [3, 2, 300]))).map (fun t => (decide (1 ≤ t.depth), (t.top 0).toInt)) =
      some (true, ((2 : Nat) : Int) + 1) := by decide

/-- The second store runs on the data the first has left and the reading state is the one after it:
the lower byte first, then the higher byte first. -/
theorem test_hyp_StoredWordReadsBack_bytes :
    2 + 1 < (st []).dsSize.toNat ∧
    2 ≤ (st [2, 0x134]).depth ∧ (2 : Word).toInt = (2 : Nat) ∧
    OperandPair (st [2, 0x134]).params.storeValueOnTop 0x134 2 (st [2, 0x134]) ∧
    2 ≤ (st [2, 3, 0x256]).depth ∧ (3 : Word).toInt = ((2 : Nat) : Int) + 1 ∧
    OperandPair (st [2, 3, 0x256]).params.storeValueOnTop 0x256 3 (st [2, 3, 0x256]) ∧
    ((after (exec .sb (st [2, 0x134]))).bind fun t =>
      (after (exec .sb { st [2, 3, 0x256] with data := t.data })).map fun u =>
        (u.depth, (u.top 0).toInt)) = some (1, 2) ∧
    ((after (exec .sb (st [2, 3, 0x256]))).bind fun q =>
      (after (exec .sb { st [2, 2, 0x134] with data := q.data })).map fun u =>
        (u.depth, (u.top 0).toInt)) = some (1, 2) := by decide

theorem test_hyp_StackAccessBounds :
    (1 ≤ (st [8191]).depth ∧ 0 ≤ ((st [8191]).top 0).toInt ∧ ((st [8191]).top 0).toInt < 8192) ∧
    (1 ≤ (st [8192]).depth ∧ ¬ (0 ≤ ((st [8192]).top 0).toInt ∧ ((st [8192]).top 0).toInt < 8192)) ∧
    (1 ≤ (st [-1]).depth ∧ ¬ (0 ≤ ((st [-1]).top 0).toInt ∧ ((st [-1]).top 0).toInt < 8192)) ∧
    (2 ≤ (st [0, 3]).depth ∧ OperandPair (st [0, 3]).params.storeValueOnTop 3 0 (st [0, 3]) ∧
      0 ≤ (0 : Word).toInt ∧ (0 : Word).toInt < 8192) ∧
    (2 ≤ (st [8192, 3]).depth ∧
      OperandPair (st [8192, 3]).params.storeValueOnTop 3 8192 (st [8192, 3]) ∧
      ¬ (0 ≤ (8192 : Word).toInt ∧ (8192 : Word).toInt < 8192)) := by decide

theorem test_hyp_LwsReadsSlot :
    (1 ≤ (st [8191]).depth ∧ ((st [8191]).top 0).toInt = (8191 : Nat) ∧ 8191 < 8192) := by decide

theorem test_hyp_SwsWritesSlot :
    (2 ≤ (st [8191, 5]).depth ∧
      OperandPair (st [8191, 5]).params.storeValueOnTop 5 8191 (st [8191, 5]) ∧
      stackIndex 8191 = some 8191) ∧
    (2 ≤ (swapped (st [5, 0])).depth ∧
      OperandPair (swapped (st [5, 0])).params.storeValueOnTop 5 0 (swapped (st [5, 0])) ∧
      stackIndex 0 = some 0) := by decide

theorem test_hyp_PopAndDup :
    (1 ≤ (st [4]).depth) ∧
    (1 ≤ (deep 8191 4).depth ∧ (deep 8191 4).depth < 8192) := by decide

theorem test_hyp_RotAndRot3 :
    2 ≤ (st [1, 2]).depth ∧
    3 ≤ (st [1, 2, 3]).depth ∧ (st [1, 2, 3]).params.rot3ThirdToTop = true ∧
    3 ≤ (swapped (st [1, 2, 3])).depth ∧ (swapped (st [1, 2, 3])).params.rot3ThirdToTop = false := by decide

theorem test_hyp_SallocReservesZeros :
    (1 ≤ (deep 8190 2).depth ∧ ((deep 8190 2).top 0).toInt = 2 ∧ (-1 : Int) ≤ 2 ∧
      (deep 8190 2).depth + (2 : Int) ≤ 8192) ∧
    (1 ≤ (st [-1]).depth ∧ ((st [-1]).top 0).toInt = -1 ∧ (st [-1]).depth + (-1 : Int) ≤ 8192) ∧
    (1 ≤ (st [-2]).depth ∧ ((st [-2]).top 0).toInt = -2 ∧ (-2 : Int) < -1) ∧
    (1 ≤ (deep 8190 3).depth ∧ ((deep 8190 3).top 0).toInt = 3 ∧
      8192 < (deep 8190 3).depth + (3 : Int)) := by decide

/-- Also for `LogicActsBitByBit`. -/
theorem test_hyp_AddSubMulWrap :
    (2 ≤ (st [32767, 1]).depth) := by decide

theorem test_hyp_DivTruncatesTowardZero :
    (2 ≤ (st [5, 0]).depth ∧ ((st [5, 0]).top 0).toInt = 0) ∧
    (2 ≤ (st [-32768, -1]).depth ∧ ((st [-32768, -1]).top 0).toInt ≠ 0 ∧
      ((st [-32768, -1]).top 1).toInt = -32768 ∧ ((st [-32768, -1]).top 0).toInt = -1) ∧
    (2 ≤ (st [-32768, 1]).depth ∧ ((st [-32768, 1]).top 0).toInt ≠ 0 ∧
      ¬ (((st [-32768, 1]).top 1).toInt = -32768 ∧ ((st [-32768, 1]).top 0).toInt = -1)) := by decide

theorem test_hyp_ShiftsComplete :
    (2 ≤ (st [1, 15]).depth ∧ ((st [1, 15]).top 0).toInt = (15 : Nat) ∧ 15 ≤ 15) ∧
    (2 ≤ (st [1, 0]).depth ∧ ((st [1, 0]).top 0).toInt = (0 : Nat) ∧ 0 ≤ 15) ∧
    (2 ≤ (st [1, -1]).depth ∧ ((st [1, -1]).top 0).toInt < 0 ∧ Instr.shl ∈ [Instr.shl, Instr.shr]) ∧
    (2 ≤ (st [1, 16]).depth ∧ 15 < ((st [1, 16]).top 0).toInt ∧
      Instr.shr ∈ [Instr.shl, Instr.shr]) := by decide

theorem test_hyp_NotIsLogical :
    (1 ≤ (st [0]).depth ∧ ((st [0]).top 0).toNat = 0) ∧
    (1 ≤ (st [-32768]).depth ∧ ((st [-32768]).top 0).toNat ≠ 0) := by decide

theorem test_hyp_ComparisonsAreSigned :
    (2 ≤ (st [-32768, 32767]).depth ∧ ((st [-32768, 32767]).top 1).toInt = -32768 ∧
      ((st [-32768, 32767]).top 0).toInt = 32767) := by decide

theorem test_hyp_JmpTakesAbsoluteValue :
    (1 ≤ (st [-15]).depth ∧ ((st [-15]).top 0).toInt.natAbs < 2 * (st [-15]).csSize.toNat) ∧
    (1 ≤ (st [16]).depth ∧ 2 * (st [16]).csSize.toNat ≤ ((st [16]).top 0).toInt.natAbs) := by decide

theorem test_hyp_JzJumpsOnZero :
    (2 ≤ (st [16, -1]).depth ∧
      OperandPair (st [16, -1]).params.jzCondOnTop (-1) 16 (st [16, -1]) ∧
      (16 : Int) = (if (st [16, -1]).params.absOnlyJmp then (16 : Word).toInt else ((16 : Word).toInt.natAbs : Int)) ∧
      (-1 : Word).toNat ≠ 0) ∧
    (2 ≤ (st [15, 0]).depth ∧ OperandPair (st [15, 0]).params.jzCondOnTop 0 15 (st [15, 0]) ∧
      (15 : Int) = (if (st [15, 0]).params.absOnlyJmp then (15 : Word).toInt else ((15 : Word).toInt.natAbs : Int)) ∧
      (0 : Word).toNat = 0 ∧ 0 ≤ (15 : Int) ∧ 15 < 2 * ((st [15, 0]).csSize.toNat : Int)) ∧
    (2 ≤ (st [16, 0]).depth ∧ OperandPair (st [16, 0]).params.jzCondOnTop 0 16 (st [16, 0]) ∧
      (16 : Int) = (if (st [16, 0]).params.absOnlyJmp then (16 : Word).toInt else ((16 : Word).toInt.natAbs : Int)) ∧
      ¬ (16 : Int) < 2 * ((st [16, 0]).csSize.toNat : Int)) ∧
    (2 ≤ (st [-6, 0]).depth ∧ OperandPair (st [-6, 0]).params.jzCondOnTop 0 (-6) (st [-6, 0]) ∧
      (-6 : Int) = (if (st [-6, 0]).params.absOnlyJmp then (-6 : Word).toInt else ((-6 : Word).toInt.natAbs : Int)) ∧
      ¬ 0 ≤ (-6 : Int)) ∧
    (2 ≤ (swapped (st [0, -6])).depth ∧
      OperandPair (swapped (st [0, -6])).params.jzCondOnTop 0 (-6) (swapped (st [0, -6])) ∧
      (6 : Int) = (if (swapped (st [0, -6])).params.absOnlyJmp then (-6 : Word).toInt else ((-6 : Word).toInt.natAbs : Int)) ∧
      6 < 2 * ((swapped (st [0, -6])).csSize.toNat : Int)) := by decide

theorem test_hyp_CallLeavesReturnAddress :
    (1 ≤ (st [15]).depth ∧ (st [15]).top 0 = 15 ∧
      (15 : Int) = (if (st [15]).params.absOnlyJmp then (15 : Word).toInt else ((15 : Word).toInt.natAbs : Int)) ∧
      15 < 2 * ((st [15]).csSize.toNat : Int)) ∧
    (1 ≤ (st [16]).depth ∧ (st [16]).top 0 = 16 ∧
      (16 : Int) = (if (st [16]).params.absOnlyJmp then (16 : Word).toInt else ((16 : Word).toInt.natAbs : Int)) ∧
      ¬ (16 : Int) < 2 * ((st [16]).csSize.toNat : Int)) ∧
    (1 ≤ (st [-1]).depth ∧ (st [-1]).top 0 = -1 ∧
      (-1 : Int) = (if (st [-1]).params.absOnlyJmp then (-1 : Word).toInt else ((-1 : Word).toInt.natAbs : Int)) ∧
      ¬ 0 ≤ (-1 : Int)) ∧
    (1 ≤ (swapped (st [-1])).depth ∧ (swapped (st [-1])).top 0 = -1 ∧
      (1 : Int) = (if (swapped (st [-1])).params.absOnlyJmp then (-1 : Word).toInt else ((-1 : Word).toInt.natAbs : Int)) ∧
      1 < 2 * ((swapped (st [-1])).csSize.toNat : Int)) := by decide

/-- Return addresses 32768 and 32769, the two sides of the boundary; `u` is the state after the call. -/
theorem test_hyp_JmpOnReturnAddressReturns :
    (1 ≤ (st [3]).depth ∧ 32767 + 1 ≤ 32768 ∧ 32767 + 1 < 2 * (16385 : Word).toNat ∧
      (after (exec .call { st [3] with csSize := 16385, pc := 32767 })).map
        (fun t => (t.status, decide (1 ≤ t.depth), t.csSize)) = some (.running, true, 16385)) ∧
    (32769 ≤ 32768 + 1 ∧ 32768 + 1 ≤ 65535 ∧ 65536 - (32768 + 1) < 2 * (16385 : Word).toNat ∧
      (after (exec .call { st [3] with csSize := 16385, pc := 32768 })).map
        (fun t => (t.status, decide (1 ≤ t.depth), t.csSize)) = some (.running, true, 16385)) := by
  decide

theorem test_hyp_RegisterMoves :
    Reg.aft ∈ plainRegs ∧ 1 ≤ (st [4]).depth ∧
    (deep 8191 0).depth < 8192 := by decide

theorem test_hyp_MoveSetsTheDepth :
    ((st []).depth < 8192) ∧
    (1 ≤ (st [8192]).depth ∧ ((st [8192]).top 0).toInt = 8192 ∧
      (0 : Int) ≤ 8192 ∧ (8192 : Int) ≤ 8192) ∧
    (1 ≤ (st [0]).depth ∧ ((st [0]).top 0).toInt = 0) ∧
    (1 ≤ (st [-1]).depth ∧ ((st [-1]).top 0).toInt = -1 ∧ (-1 : Int) < 0) ∧
    (1 ≤ (st [8193]).depth ∧ ((st [8193]).top 0).toInt = 8193 ∧ 8192 < (8193 : Int)) ∧
    (1 ≤ (deep 8191 0).depth ∧ ((deep 8191 0).top 0).toInt = 0 ∧ (deep 8191 0).depth < 8192) := by decide

theorem test_hyp_NopAndUnassignedDoNothing :
    ((withCode [0x5D] (st [])).status = .running ∧
      (withCode [0x5D] (st [])).icount < Config.budget ∧
      decode (withCode [0x5D] (st [])).params (withCode [0x5D] (st [])).big (withCode [0x5D] (st [])).codeWindow = .instr (.unassigned 45) 2) ∧
    ((withCode [0x5C] (st [])).status = .running ∧
      (withCode [0x5C] (st [])).icount < Config.budget ∧
      decode (withCode [0x5C] (st [])).params (withCode [0x5C] (st [])).big (withCode [0x5C] (st [])).codeWindow = .instr .nop 2) := by decide

theorem test_hyp_HltEndsAndInfoOnlyDumps :
    (1 ≤ (st [256]).depth ∧ ((st [256]).top 0).toNat % 256 = 0) ∧
    (1 ≤ (st [3]).depth ∧ Requests .info (st [3])) ∧
    (1 ≤ ((withCode [0x5B] (st [0])).beginStep 1).depth ∧
      (((withCode [0x5B] (st [0])).beginStep 1).top 0).toNat % 256 = 0 ∧
      (withCode [0x5B] (st [0])).status = .running ∧
      decode (withCode [0x5B] (st [0])).params (withCode [0x5B] (st [0])).big (withCode [0x5B] (st [0])).codeWindow = .instr .syscall 2) := by decide

theorem test_hyp_PutcSendsAndGetcReceives :
    (2 ≤ (answered [.ok 0] (st [8001, 1])).depth ∧
      Requests .putc (answered [.ok 0] (st [8001, 1])) ∧
      answeredOk (answered [.ok 0] (st [8001, 1])).hostAnswer = true) ∧
    (1 ≤ (answered [.ok 255] (deep 8191 2)).depth ∧
      (answered [.ok 255] (deep 8191 2)).depth < 8192 ∧
      Requests .getc (answered [.ok 255] (deep 8191 2)) ∧
      (answered [.ok 255] (deep 8191 2)).hostAnswer = .ok 255 ∧ 255 < 256) ∧
    (8192 ≤ (answered [.ok 255] (deep 8192 2)).depth ∧
      Requests .getc (answered [.ok 255] (deep 8192 2)) ∧
      (answered [.ok 255] (deep 8192 2)).hostAnswer = .ok 255) := by decide

theorem test_hyp_GetsCopiesDownward :
    (2 ≤ (st [1, 4]).depth ∧ Requests .gets (st [1, 4]) ∧ 2 = min (st [1, 4]).sGets.length 90 ∧
      stackIndex ((st [1, 4]).top 1) = some 1 ∧ 2 ≤ 1 + 1) ∧
    (2 ≤ (st [-1, 4]).depth ∧ Requests .gets (st [-1, 4]) ∧
      2 = min (st [-1, 4]).sGets.length 90 ∧ ((st [-1, 4]).top 1).toInt < 0) ∧
    (2 ≤ (st [8192, 4]).depth ∧ Requests .gets (st [8192, 4]) ∧
      2 = min (st [8192, 4]).sGets.length 90 ∧ 8192 ≤ ((st [8192, 4]).top 1).toInt) ∧
    (2 ≤ (st [0, 4]).depth ∧ Requests .gets (st [0, 4]) ∧ 2 = min (st [0, 4]).sGets.length 90 ∧
      ((st [0, 4]).top 1).toInt + 1 < (2 : Nat)) := by decide

/-- The path at 1 of the data `11 80 00 44` is the one byte 80. -/
theorem test_hyp_OpenPushesHandle :
    3 ≤ (answered [.ok 65535] (st [1, 0, 5])).depth ∧ (st [1, 0, 5]).depth ≤ 8192 ∧
    Requests .openFile (st [1, 0, 5]) ∧ ((st [1, 0, 5]).top 2).toInt = (1 : Nat) ∧
    (∀ k b, ([0x80] : List Byte)[k]? = some b → (st [1, 0, 5]).dataByte (1 + k) = b ∧ b ≠ 0) ∧
    (st [1, 0, 5]).dataByte (1 + 1) = 0 ∧ 1 + 1 < (st [1, 0, 5]).dsSize.toNat ∧
    (answered [.ok 65535] (st [1, 0, 5])).hostAnswer = .ok 65535 ∧ 65535 < 65536 := by
  refine ⟨by decide, by decide, by decide, by decide, ?_, by decide, by decide, by decide, by decide⟩
  intro k b h
  cases k with
  | zero => simp only [List.getElem?_cons_zero, Option.some.injEq] at h; subst h; decide
  | succ k => simp at h

theorem test_hyp_FileSyscallsComplete :
    ((deep 8192 6).depth ≤ 8192 ∧ 2 ≤ (deep 8192 6).depth ∧ Requests .closeFile (deep 8192 6)) ∧
    ((answered [.ok 255] (st [3, 7])).depth ≤ 8192 ∧ 2 ≤ (answered [.ok 255] (st [3, 7])).depth ∧
      Requests .fgetc (answered [.ok 255] (st [3, 7])) ∧
      (answered [.ok 255] (st [3, 7])).hostAnswer = .ok 255) ∧
    ((answered [.ok 256] (st [3, 7])).depth ≤ 8192 ∧ 2 ≤ (answered [.ok 256] (st [3, 7])).depth ∧
      Requests .fgetc (answered [.ok 256] (st [3, 7])) ∧
      (answered [.ok 256] (st [3, 7])).hostAnswer = .ok 256) ∧
    ((answered [.fail] (st [65, 3, 8])).depth ≤ 8192 ∧
      3 ≤ (answered [.fail] (st [65, 3, 8])).depth ∧
      Requests .fputc (answered [.fail] (st [65, 3, 8])) ∧
      (answered [.fail] (st [65, 3, 8])).hostAnswer = .fail) := by decide

theorem test_hyp_SyscallStops :
    (1 ≤ (st [9]).depth ∧ ∀ v ∈ services, ¬ Requests v (st [9])) ∧
    (1 ≤ (st [7]).depth ∧ (st [7]).depth < 2 ∧ Requests .fgetc (st [7])) ∧
    (1 ≤ (st [3, 8]).depth ∧ (st [3, 8]).depth < 3 ∧ Requests .fputc (st [3, 8])) ∧
    (1 ≤ (answered [.fail] (st [72, 1])).depth ∧ 2 ≤ (answered [.fail] (st [72, 1])).depth ∧
      Requests .putc (answered [.fail] (st [72, 1])) ∧
      (answered [.fail] (st [72, 1])).hostAnswer = .fail) ∧
    (1 ≤ (answered [.ok 256] (st [2])).depth ∧ Requests .getc (answered [.ok 256] (st [2])) ∧
      (answered [.ok 256] (st [2])).hostAnswer = .ok 256) := by decide

/-- The data segment is `11 80 00 44`: from 3 on it has no terminator, and the path at 2 is empty. -/
theorem test_hyp_OpenFailuresEndTheRun :
    (3 ≤ (st [4, 0, 5]).depth ∧ Requests .openFile (st [4, 0, 5]) ∧
      (st [4, 0, 5]).dsSize.toNat ≤ ((st [4, 0, 5]).top 2).toInt) ∧
    ((st [3, 0, 5]).top 2).toInt = (3 : Nat) ∧
    (∀ j, 3 ≤ j → j < (st [3, 0, 5]).dsSize.toNat → (st [3, 0, 5]).dataByte j ≠ 0) ∧
    ((st [2, 0, 5]).top 2).toInt = (2 : Nat) ∧ (st [2, 0, 5]).dataByte (2 + 0) = 0 ∧
    (∀ k b, ([] : List Byte)[k]? = some b → (st [2, 0, 5]).dataByte (2 + k) = b ∧ b ≠ 0) ∧
    2 + 0 < (st [2, 0, 5]).dsSize.toNat ∧
    (answered [.ok 65536] (st [2, 0, 5])).hostAnswer = .ok 65536 := by
  refine ⟨by decide, by decide, ?_, by decide, by decide, ?_, by decide, by decide⟩
  · intro j h1 h2
    have h2 : j < 4 := h2
    obtain rfl : j = 3 := by omega
    decide
  · intro k b h; simp at h

theorem test_hyp_CanonicalMemoriesAreEqualData :
    Memory.wf [(0, 1), (5, 255)] ∧
    Memory.read [(0, 1), (5, 255)] 3 = 0 := by decide

end Sys2Proof.Tests
end

namespace Sys2Proof

/-- A first nibble with bit 3 set takes a second one (R82, R83). -/
theorem assembleOp_long {n0 : Nibble} (h : n0.getLsbD 3 = true) (n1 : Nibble)
    (rest : List Nibble) : assembleOp (n0 :: n1 :: rest) =
      some ((n0.setWidth 7 &&& (7 : Opcode)) ||| (n1.setWidth 7 <<< 3), 2, rest) := by
  simp only [assembleOp, h, if_true]

/-- A first nibble with bit 3 clear is the whole opcode (R82, R83). -/
theorem assembleOp_short {n0 : Nibble} (h : n0.getLsbD 3 = false) (rest : List Nibble) :
    assembleOp (n0 :: rest) = some (n0.setWidth 7, 1, rest) := by
  simp only [assembleOp, h, Bool.false_eq_true, if_false]

/-- The two-nibble form of an opcode assembles to it, whatever follows (R83, R88). -/
theorem assembleOp_encOpLong (v : Opcode) (rest : List Nibble) :
    assembleOp (encOpLong v ++ rest) = some (v, 2, rest) := by
  have hop : ((8 ||| (v.setWidth 4 &&& 7) : Nibble).setWidth 7 &&& (7 : Opcode)) |||
      (((v >>> 3).setWidth 4).setWidth 7 <<< 3) = v := by
    ext i hi
    interval_cases i <;> simp
  have hbit : (8 ||| (v.setWidth 4 &&& 7) : Nibble).getLsbD 3 = true := by simp
  rw [encOpLong, List.cons_append, List.cons_append, List.nil_append, assembleOp_long hbit, hop]

/-- The canonical form of an opcode assembles to it, whatever follows (R83, R87). -/
theorem assembleOp_encOp (v : Opcode) (rest : List Nibble) :
    assembleOp (encOp v ++ rest) = some (v, (encOp v).length, rest) := by
  unfold encOp
  split
  · rename_i hv
    have hop : (v.setWidth 4).setWidth 7 = v := by
      apply BitVec.eq_of_toNat_eq
      simp only [BitVec.toNat_setWidth]; omega
    have hbit : (v.setWidth 4).getLsbD 3 = false := by
      rw [BitVec.getLsbD, BitVec.toNat_setWidth]
      exact Nat.testBit_lt_two_pow (by omega)
    rw [List.singleton_append, assembleOp_short hbit, hop, List.length_singleton]
  · exact assembleOp_encOpLong v rest

/-- A word is its four nibbles, the highest first. -/
theorem word_eq_append_nibbles (w : Word) :
    w.extractLsb' 12 4 ++ w.extractLsb' 8 4 ++ w.extractLsb' 4 4 ++ w.extractLsb' 0 4 = w := by
  ext i hi
  simp only [BitVec.getElem_append]
  interval_cases i <;> simp

/-- The four immediate nibbles give the immediate back (R86, R87). -/
theorem immOfNibbles_encImm (c : Parameters) (big : Bool) (w : Word) :
    ∃ i0 i1 i2 i3, encImm c big w = [i0, i1, i2, i3] ∧ immOfNibbles c big i0 i1 i2 i3 = w := by
  unfold encImm immOfNibbles
  split <;> exact ⟨_, _, _, _, rfl, word_eq_append_nibbles w⟩

/-- The instructions are `LI`, the unassigned opcodes and the plain mnemonics (R84, R93). -/
theorem instr_cases (i : Instr) :
    (∃ imm, i = .li imm) ∨ (∃ op, i = .unassigned op) ∨ i ∈ plainInstrs := by
  cases i <;> simp [plainInstrs]

/-- Only `LI` has nibbles after its opcode (R84). -/
theorem operandNibbles_of_ne_li {i : Instr} (h : ∀ imm, i ≠ .li imm) (c : Parameters)
    (big : Bool) : operandNibbles c big i = [] := by
  cases i with
  | li imm => exact absurd rfl (h imm)
  | _ => rfl

/-- The opcode of every well-formed instruction selects it again. -/
theorem opcodeSelects (i : Instr) : Laws.OpcodeSelects.Statement i := by
  obtain ⟨imm, rfl⟩ | ⟨op, rfl⟩ | hi := instr_cases i
  · exact Laws.OpcodeSelects.li imm
  · exact Laws.OpcodeSelects.unassigned op
  · exact Laws.selects_of_mem hi

/-- When the opcode of a well-formed instruction has been assembled, in whichever form, and the
instruction's own operand nibbles follow, the decoder answers that instruction. -/
theorem decode_of_assembleOp {c : Parameters} {big : Bool} {i : Instr} {ns rest : List Nibble}
    {n : Nat} (hc : Machine.LegalParameters c) (hi : i.wf c = true)
    (hns : assembleOp ns = some (opcodeOf c i, n, operandNibbles c big i ++ rest)) :
    decode c big ns = .instr i (n + (operandNibbles c big i).length) := by
  obtain ⟨imm, rfl⟩ | ⟨hne, hsel⟩ := opcodeSelects i c hc hi
  · obtain ⟨i0, i1, i2, i3, himm, hw⟩ := immOfNibbles_encImm c big imm
    have hli : opcodeOf c (.li imm) = opcodeOf c (.li 0) := rfl
    rw [operandNibbles, himm] at hns ⊢
    simp only [decode, hns, hli, if_true, List.cons_append, hw, List.length_cons, List.length_nil]
  · have hli : ∀ imm, i ≠ .li imm := fun imm h => hne (h ▸ rfl)
    simp only [decode, hns, hne, if_false, hsel, operandNibbles_of_ne_li hli, List.length_nil,
      Nat.add_zero]

/-- Settles O1: the canonical opcode nibbles assemble to the opcode, and the opcode and its operand
nibbles decode to the instruction. -/
theorem decodeOfEncode : Obligations.DecodeOfEncode := by
  intro c big i rest hc hi
  have hns := assembleOp_encOp (opcodeOf c i) (operandNibbles c big i ++ rest)
  rw [encode, List.append_assoc, List.length_append]
  exact decode_of_assembleOp hc hi hns

end Sys2Proof

namespace Sys2Proof.Machine

/-! ## What every answer of an instruction satisfies

A property of states that each named update keeps is kept by every instruction. The induction over
the operations and the 46 instructions is done once, here; a claim about all instructions names its
property and shows that the updates keep it. -/

/-- The result is a next state, and the state has the property. -/
def Answers (P : State → Prop) (r : Result) : Prop := ∃ t, r = .next t ∧ P t

theorem Answers.of_next {P : State → Prop} {r : Result} {t : State} (h : Answers P r)
    (hr : r = .next t) : P t := by
  obtain ⟨u, hu, hP⟩ := h
  rw [hr] at hu
  cases hu
  exact hP

theorem Answers.mono {P Q : State → Prop} {r : Result} (h : Answers P r) (hPQ : ∀ t, P t → Q t) :
    Answers Q r := by
  obtain ⟨t, hr, ht⟩ := h
  exact ⟨t, hr, hPQ t ht⟩

theorem answers_next {P : State → Prop} {t : State} (h : P t) : Answers P (.next t) := ⟨t, rfl, h⟩

theorem answers_ite {P : State → Prop} {p : Prop} [Decidable p] {r q : Result} (hr : Answers P r)
    (hq : Answers P q) : Answers P (if p then r else q) := by
  split <;> assumption

/-- Every update an instruction other than `SYSCALL` makes keeps the property. -/
structure KeptByUpdates (P : State → Prop) : Prop where
  setSlot : ∀ s i v, P s → P (s.setSlot i v)
  setDepth : ∀ s n, P s → P (s.setDepth n)
  writeReg : ∀ s r v, P s → P (s.writeReg r v)
  memWrite1 : ∀ s a v, P s → P (s.memWrite1 a v)
  memWrite2 : ∀ s a v, P s → P (s.memWrite2 a v)
  jumpTo : ∀ s n, P s → P (s.jumpTo n)
  setStatus : ∀ s x, P s → P { s with status := x }
  setFreeIdx : ∀ s n, P s → P { s with freeIdx := n }

namespace KeptByUpdates

variable {P : State → Prop} {s : State}

/-! ### Composed updates -/

theorem setTop (hP : KeptByUpdates P) (i : Nat) (v : Word) (h : P s) : P (s.setTop i v) :=
  hP.setSlot _ _ _ h

theorem drop (hP : KeptByUpdates P) (k : Nat) (h : P s) : P (s.drop k) := hP.setDepth _ _ h

theorem pushed (hP : KeptByUpdates P) (v : Word) (h : P s) : P (s.pushed v) :=
  hP.setDepth _ _ (hP.setSlot _ _ _ h)

theorem replacePair (hP : KeptByUpdates P) (r : Word) (h : P s) : P (s.replacePair r) :=
  hP.setTop _ _ (hP.drop _ h)

theorem zeroSlots (hP : KeptByUpdates P) (i k : Nat) (h : P s) : P (s.zeroSlots i k) := by
  induction k generalizing s i with
  | zero => exact h
  | succ k ih => exact ih _ (hP.setSlot _ _ _ h)

theorem copyDown (hP : KeptByUpdates P) (d : Nat) (bs : List Byte) (h : P s) :
    P (s.copyDown d bs) := by
  induction bs generalizing s d with
  | nil => exact h
  | cons b bs ih => exact ih _ (hP.setSlot _ _ _ h)

/-! ### The operations and shapes of several instructions -/

theorem raise (hP : KeptByUpdates P) (c : Cause) (h : P s) : Answers P (Machine.raise c s) :=
  answers_next (hP.setStatus _ _ h)

theorem hostFail (hP : KeptByUpdates P) (h : P s) : Answers P (Machine.hostFail s) :=
  answers_next (hP.setStatus _ _ h)

theorem need (hP : KeptByUpdates P) (k : Nat) {go : Result} (h : P s) (hgo : Answers P go) :
    Answers P (Machine.need k s go) :=
  answers_ite (hP.raise _ h) hgo

theorem needSyscall (hP : KeptByUpdates P) (k : Nat) {go : Result} (h : P s)
    (hgo : Answers P go) : Answers P (Machine.needSyscall k s go) :=
  answers_ite (hP.raise _ h) hgo

theorem push (hP : KeptByUpdates P) (v : Word) (h : P s) : Answers P (Machine.push v s) :=
  answers_ite (hP.raise _ h) (answers_next (hP.pushed v h))

theorem unary (hP : KeptByUpdates P) (f : Word → Word) (h : P s) :
    Answers P (Machine.unary f s) :=
  hP.need _ h (answers_next (hP.setTop _ _ h))

theorem binary (hP : KeptByUpdates P) (f : Word → Word → Word) (h : P s) :
    Answers P (Machine.binary f s) :=
  hP.need _ h (answers_next (hP.replacePair _ h))

theorem shiftBy (hP : KeptByUpdates P) (f : Word → Word → Word) (h : P s) :
    Answers P (Machine.shiftBy f s) :=
  hP.need _ h (answers_ite (answers_next (hP.replacePair _ h))
    (answers_next (hP.setFreeIdx _ _ (hP.replacePair _ h))))

theorem popInto (hP : KeptByUpdates P) (r : Reg) (h : P s) : Answers P (Machine.popInto r s) :=
  hP.need _ h (answers_next (hP.drop _ (hP.writeReg _ _ _ h)))

theorem pushFrom (hP : KeptByUpdates P) (r : Reg) (h : P s) :
    Answers P (Machine.pushFrom r s) :=
  hP.push _ h

/-- An access: an address out of bounds faults, and one in bounds answers as `go` says. -/
theorem access (hP : KeptByUpdates P) {c : Cause} {place : Option Nat} {go : Nat → Result}
    (h : P s) (hgo : ∀ a, Answers P (go a)) :
    Answers P (match place with | none => Machine.raise c s | some a => go a) := by
  cases place with
  | none => exact hP.raise c h
  | some a => exact hgo a

/-! ### The instructions with an effect of their own -/

theorem execDiv (hP : KeptByUpdates P) (h : P s) : Answers P (Machine.execDiv s) :=
  hP.need _ h (answers_ite (hP.raise _ h) (hP.binary _ h))

theorem execJmp (hP : KeptByUpdates P) (h : P s) : Answers P (Machine.execJmp s) :=
  hP.need _ h (answers_ite (answers_next (hP.jumpTo _ _ (hP.drop _ h))) (hP.raise _ h))

theorem execJz (hP : KeptByUpdates P) (h : P s) : Answers P (Machine.execJz s) :=
  hP.need _ h (answers_ite
    (answers_ite (answers_next (hP.jumpTo _ _ (hP.drop _ h))) (hP.raise _ h))
    (answers_next (hP.drop _ h)))

theorem execCall (hP : KeptByUpdates P) (h : P s) : Answers P (Machine.execCall s) :=
  hP.need _ h (answers_ite (answers_next (hP.jumpTo _ _ (hP.setTop _ _ h))) (hP.raise _ h))

theorem execLb (hP : KeptByUpdates P) (h : P s) : Answers P (Machine.execLb s) :=
  hP.need _ h (hP.access h fun _ => answers_next (hP.setTop _ _ h))

theorem execLw (hP : KeptByUpdates P) (h : P s) : Answers P (Machine.execLw s) :=
  hP.need _ h (hP.access h fun _ => answers_next (hP.setTop _ _ h))

theorem execSb (hP : KeptByUpdates P) (h : P s) : Answers P (Machine.execSb s) :=
  hP.need _ h (hP.access h fun _ => answers_next (hP.drop _ (hP.memWrite1 _ _ _ h)))

theorem execSw (hP : KeptByUpdates P) (h : P s) : Answers P (Machine.execSw s) :=
  hP.need _ h (hP.access h fun _ => answers_next (hP.drop _ (hP.memWrite2 _ _ _ h)))

theorem execLws (hP : KeptByUpdates P) (h : P s) : Answers P (Machine.execLws s) :=
  hP.need _ h (hP.access h fun _ => answers_next (hP.setTop _ _ h))

theorem execSws (hP : KeptByUpdates P) (h : P s) : Answers P (Machine.execSws s) :=
  hP.need _ h (hP.access h fun _ => answers_next (hP.setSlot _ _ _ (hP.drop _ h)))

theorem execMove (hP : KeptByUpdates P) (h : P s) : Answers P (Machine.execMove s) :=
  hP.need _ h (answers_ite (hP.raise _ h) (answers_ite (hP.raise _ h)
    (answers_next (hP.writeReg _ _ _ h))))

theorem execDup (hP : KeptByUpdates P) (h : P s) : Answers P (Machine.execDup s) :=
  hP.need _ h (hP.push _ h)

theorem execRot (hP : KeptByUpdates P) (h : P s) : Answers P (Machine.execRot s) :=
  hP.need _ h (answers_next (hP.setTop _ _ (hP.setTop _ _ h)))

theorem execRot3 (hP : KeptByUpdates P) (h : P s) : Answers P (Machine.execRot3 s) :=
  hP.need _ h (answers_ite (answers_next (hP.setTop _ _ (hP.setTop _ _ (hP.setTop _ _ h))))
    (answers_next (hP.setTop _ _ (hP.setTop _ _ (hP.setTop _ _ h)))))

theorem execSalloc (hP : KeptByUpdates P) (h : P s) : Answers P (Machine.execSalloc s) :=
  hP.need _ h (answers_ite (hP.raise _ h) (answers_ite (hP.raise _ h)
    (answers_next (hP.setDepth _ _ (hP.zeroSlots _ _ h)))))

/-- Every instruction but `SYSCALL` answers a next state and keeps the property. -/
theorem exec (hP : KeptByUpdates P) {i : Instr} (hi : i ≠ .syscall) (h : P s) :
    Answers P (Machine.exec i s) := by
  cases i with
  | syscall => exact absurd rfl hi
  | li imm => exact hP.push imm h
  | lb => exact hP.execLb h
  | lw => exact hP.execLw h
  | lws => exact hP.execLws h
  | sws => exact hP.execSws h
  | sb => exact hP.execSb h
  | sw => exact hP.execSw h
  | pop => exact hP.need _ h (answers_next (hP.drop _ h))
  | dup => exact hP.execDup h
  | rot => exact hP.execRot h
  | rot3 => exact hP.execRot3 h
  | not => exact hP.unary _ h
  | div => exact hP.execDiv h
  | add | sub | mul | and | or | xor | nor | equ | loe | goe | lt | gt => exact hP.binary _ h
  | shl | shr => exact hP.shiftBy _ h
  | salloc => exact hP.execSalloc h
  | jmp => exact hP.execJmp h
  | jz => exact hP.execJz h
  | call => exact hP.execCall h
  | mova | movb | movc | movd | movf => exact hP.popInto _ h
  | move => exact hP.execMove h
  | amov | bmov | cmov | dmov | emov | fmov => exact hP.pushFrom _ h
  | nop => exact answers_next h
  | unassigned op => exact answers_next h

/-! ### The services of `SYSCALL`

A service makes at most one call on the host, in the state it was asked in, and updates afterwards;
`INFO` makes the dump request and nothing more. -/

theorem servePutc (hP : KeptByUpdates P) (h : P s) (hc : ∀ c, P (s.afterCall c)) :
    Answers P (Machine.servePutc s) :=
  hP.needSyscall _ h (answers_ite (answers_next (hc _)) (hP.hostFail (hc _)))

theorem serveGetc (hP : KeptByUpdates P) (hc : ∀ c, P (s.afterCall c)) :
    Answers P (Machine.serveGetc s) := by
  unfold Machine.serveGetc
  split
  · exact hP.push _ (hc _)
  · exact hP.hostFail (hc _)

theorem serveGets (hP : KeptByUpdates P) (h : P s) : Answers P (Machine.serveGets s) :=
  hP.needSyscall _ h (hP.access h fun _ =>
    answers_ite (hP.raise _ h) (answers_next (hP.copyDown _ _ (hP.drop _ h))))

theorem serveOpen (hP : KeptByUpdates P) (h : P s) (hc : ∀ c, P (s.afterCall c)) :
    Answers P (Machine.serveOpen s) := by
  refine hP.needSyscall _ h ?_
  split
  · exact hP.hostFail h
  · split
    · exact hP.hostFail (hc _)
    · exact hP.push _ (hP.drop _ (hc _))

theorem serveClose (hP : KeptByUpdates P) (h : P s) (hc : ∀ c, P (s.afterCall c)) :
    Answers P (Machine.serveClose s) :=
  hP.needSyscall _ h (answers_next (hP.drop _ (hc _)))

theorem serveFgetc (hP : KeptByUpdates P) (h : P s) (hc : ∀ c, P (s.afterCall c)) :
    Answers P (Machine.serveFgetc s) :=
  hP.needSyscall _ h (hP.push _ (hP.drop _ (hc _)))

theorem serveFputc (hP : KeptByUpdates P) (h : P s) (hc : ∀ c, P (s.afterCall c)) :
    Answers P (Machine.serveFputc s) :=
  hP.needSyscall _ h (hP.push _ (hP.drop _ (hc _)))

/-- The dispatcher answers a next state that has the property, or the one after a dump request. -/
theorem dispatch (hP : KeptByUpdates P) (code : Byte) (h : P s) (hc : ∀ c, P (s.afterCall c)) :
    Answers (fun t => P t ∨ t = s.afterDump) (Machine.dispatch code s) := by
  have keeps {r : Result} (hr : Answers P r) : Answers (fun t => P t ∨ t = s.afterDump) r :=
    hr.mono fun _ => .inl
  unfold Machine.dispatch
  cases serviceOfCode s.params.sysnum code with
  | none => exact keeps (hP.raise _ h)
  | some service =>
    cases service with
    | hlt => exact keeps (answers_next (hP.setStatus _ _ h))
    | putc => exact keeps (hP.servePutc h hc)
    | getc => exact keeps (hP.serveGetc hc)
    | info => exact answers_next (.inr rfl)
    | gets => exact keeps (hP.serveGets h)
    | openFile => exact keeps (hP.serveOpen h hc)
    | closeFile => exact keeps (hP.serveClose h hc)
    | fgetc => exact keeps (hP.serveFgetc h hc)
    | fputc => exact keeps (hP.serveFputc h hc)

/-- Every instruction answers a next state that has the property, or, for `INFO`, the one after a
dump request. -/
theorem exec_or_dump (hP : KeptByUpdates P) (i : Instr) (h : P s) (hc : ∀ c, P (s.afterCall c)) :
    Answers (fun t => P t ∨ t = s.afterDump) (Machine.exec i s) := by
  by_cases hi : i = .syscall
  · subst hi
    exact answers_ite ((hP.raise _ h).mono fun _ => .inl) (hP.dispatch _ h hc)
  · exact (hP.exec hi h).mono fun _ => .inl

end KeptByUpdates

/-! ## Code and configuration -/

/-- What no step writes: the code space, the mode, the sizes, the `GETS` buffer and the parameters
(10_state.md R28, R36; 20_memory.md R71; 00_scope.md R7, R8). -/
def State.config (s : State) : Memory × Bool × Word × Word × Nat × List Byte × Parameters :=
  (s.code, s.big, s.csSize, s.dsSize, s.extraLen, s.sGets, s.params)

theorem State.config_eq_iff {s t : State} : t.config = s.config ↔
    t.code = s.code ∧ t.big = s.big ∧ t.csSize = s.csSize ∧ t.dsSize = s.dsSize ∧
    t.extraLen = s.extraLen ∧ t.sGets = s.sGets ∧ t.params = s.params := by
  simp only [State.config, Prod.mk.injEq]

theorem keptByUpdates_config (s : State) : KeptByUpdates (fun t => t.config = s.config) where
  setSlot _ _ _ h := h
  setDepth _ _ h := h
  writeReg t r v h := by cases r <;> exact h
  memWrite1 _ _ _ h := h
  memWrite2 t a v h := by simpa [State.config] using h
  jumpTo _ _ h := h
  setStatus _ _ h := h
  setFreeIdx _ _ h := h

/-- No instruction writes code or configuration. -/
theorem exec_config {i : Instr} {s t : State} (h : exec i s = .next t) : t.config = s.config := by
  have hexec := (keptByUpdates_config s).exec_or_dump i rfl fun _ => rfl
  obtain hsame | rfl := hexec.of_next h
  · exact hsame
  · rfl

theorem config_finishStep {s u : State} (h : u.config = s.config) :
    (finishStep s u).config = s.config := by
  obtain ⟨-, hu⟩ | ⟨-, hu⟩ | ⟨-, hu⟩ := finishStep_cases s u <;> rw [hu]
  · split <;> exact h
  · exact h
  · rfl

theorem step_config {s t : State} (h : step s = .next t) : t.config = s.config := by
  obtain ⟨-, ⟨-, rfl⟩ | ⟨-, -, rfl⟩ | ⟨-, i, len, u, -, hu, rfl⟩⟩ := step_cases h
  · rfl
  · rfl
  · have hbegin : (s.beginStep (s.pc + len - 1)).config = s.config := rfl
    exact config_finishStep ((exec_config hu).trans hbegin)

/-- Settles O18: what a step leaves has the code and configuration the step began with. -/
theorem codeAndConfigurationConstant : Obligations.CodeAndConfigurationConstant :=
  fun _ _ h => State.config_eq_iff.1 (step_config h)

/-! ## Precise faults -/

/-- The host was not asked, or it was asked once and one answer was taken. -/
def AskedAtMostOnce (s t : State) : Prop := NoHostCall s t ∨ ∃ c, OneHostCall c s t

theorem askedAtMostOnce_iff {s t : State} : AskedAtMostOnce s t ↔
    (t.hostLog = s.hostLog ∧ t.hostReplies = s.hostReplies ∨
      ∃ c, t.hostLog = s.hostLog ++ [c] ∧ t.hostReplies = s.hostReplies.tail) :=
  or_congr ⟨fun ⟨hl, hr⟩ => ⟨hl, hr⟩, fun ⟨hl, hr⟩ => ⟨hl, hr⟩⟩
    (exists_congr fun _ => ⟨fun ⟨hl, hr⟩ => ⟨hl, hr⟩, fun ⟨hl, hr⟩ => ⟨hl, hr⟩⟩)

/-- It depends on the host's log and the pending answers only. -/
theorem askedAtMostOnce_congr {s s' t t' : State} (hs : s'.hostLog = s.hostLog)
    (hs' : s'.hostReplies = s.hostReplies) (ht : t'.hostLog = t.hostLog)
    (ht' : t'.hostReplies = t.hostReplies) (h : AskedAtMostOnce s t) : AskedAtMostOnce s' t' := by
  rw [askedAtMostOnce_iff] at h ⊢
  rwa [hs, hs', ht, ht']

theorem keptByUpdates_askedAtMostOnce (s : State) : KeptByUpdates (AskedAtMostOnce s) where
  setSlot _ _ _ := askedAtMostOnce_congr rfl rfl rfl rfl
  setDepth _ _ := askedAtMostOnce_congr rfl rfl rfl rfl
  writeReg _ _ _ := askedAtMostOnce_congr rfl rfl (by simp) (by simp)
  memWrite1 _ _ _ := askedAtMostOnce_congr rfl rfl rfl rfl
  memWrite2 _ _ _ := askedAtMostOnce_congr rfl rfl (by simp) (by simp)
  jumpTo _ _ := askedAtMostOnce_congr rfl rfl rfl rfl
  setStatus _ _ := askedAtMostOnce_congr rfl rfl rfl rfl
  setFreeIdx _ _ := askedAtMostOnce_congr rfl rfl rfl rfl

/-- An instruction asks the host at most once, but that `INFO` makes a dump request, which has no
answer. -/
theorem exec_askedAtMostOnce {i : Instr} {s t : State} (h : exec i s = .next t) :
    AskedAtMostOnce s t ∨ t = s.afterDump := by
  have hexec := (keptByUpdates_askedAtMostOnce s).exec_or_dump i (.inl ⟨rfl, rfl⟩)
    fun c => .inr ⟨c, rfl, rfl⟩
  exact hexec.of_next h

/-- The instruction that ended a run asked the host at most once: a dump request ends no run. -/
theorem askedAtMostOnce_of_ended {i : Instr} {s t : State} (h : exec i s = .next t)
    (hs : s.status = .running) (ht : t.status ≠ .running) : AskedAtMostOnce s t := by
  obtain hasked | rfl := exec_askedAtMostOnce h
  · exact hasked
  · exact absurd hs ht

@[simp] theorem finishStep_status (s u : State) : (finishStep s u).status = u.status := by
  obtain ⟨-, hu⟩ | ⟨-, hu⟩ | ⟨-, hu⟩ := finishStep_cases s u <;> rw [hu]
  split <;> rfl

/-- Settles O12, by how the failing step ended: before an instruction ran, or after one whose effect
`finishStep` undoes. -/
theorem faultsArePrecise : Obligations.FaultsArePrecise := by
  intro s t h hfail
  rw [← askedAtMostOnce_iff]
  obtain ⟨hs, ⟨-, rfl⟩ | ⟨-, -, rfl⟩ | ⟨-, i, len, u, -, hu, rfl⟩⟩ := step_cases h
  · exact ⟨rfl, .inl ⟨rfl, rfl⟩⟩
  · exact ⟨rfl, .inl ⟨rfl, rfl⟩⟩
  · rw [finishStep_status] at hfail
    obtain ⟨hrun, -⟩ | ⟨hhalt, -⟩ | ⟨-, hundo⟩ := finishStep_cases s u
    · simp [hrun] at hfail
    · simp [hhalt] at hfail
    · have hended : u.status ≠ .running := by intro hrun; simp [hrun] at hfail
      have hasked := askedAtMostOnce_of_ended hu hs hended
      rw [hundo]
      refine ⟨rfl, askedAtMostOnce_congr ?_ ?_ ?_ ?_ hasked⟩ <;> rfl

end Sys2Proof.Machine

namespace Sys2Proof.Machine

/-! ## What an instruction can do

The updates an instruction may make, each with the check that guards it: which instruction makes it,
and that a full stack, a slot, an address or a jump target stays in its range. `KeptByUpdates` serves
a property that every update keeps, whoever makes it; a claim that turns on the guards is an
induction over `Effect`. The walk through the 46 instructions and the nine services is in
`answers_exec`. -/

/-- The state is reached from `s` by updates that the instruction may make. -/
inductive Effect (i : Instr) (s : State) : State → Prop
  | refl : Effect i s s
  | setSlot {t : State} (h : Effect i s t) (j : Nat) (v : Word) (hj : t.depth ≤ 8192 → j < 8192) :
      Effect i s (t.setSlot j v)
  | setDepth {t : State} (h : Effect i s t) (n : Nat) (hn : t.depth ≤ 8192 → n ≤ 8192) :
      Effect i s (t.setDepth n)
  | popReg {t : State} (h : Effect i s t) (r : Reg) (v : Word) (hi : i = popInstr r)
      (hr : r ≠ .sp) : Effect i s (t.writeReg r v)
  | store1 {t : State} (h : Effect i s t) (a : Nat) (v : Word) (hi : i = .sb)
      (ha : a + 1 ≤ t.storeLimit) : Effect i s (t.memWrite1 a v)
  | store2 {t : State} (h : Effect i s t) (a : Nat) (v : Word) (hi : i = .sw)
      (ha : a + 2 ≤ t.storeLimit) : Effect i s (t.memWrite2 a v)
  | jumpTo {t : State} (h : Effect i s t) (n : Nat) (hi : i = .jmp ∨ i = .jz ∨ i = .call)
      (hn : n < 2 * t.csSize.toNat) : Effect i s (t.jumpTo n)
  | fault {t : State} (h : Effect i s t) (c : Cause) : Effect i s { t with status := .fault c }
  | setFreeIdx {t : State} (h : Effect i s t) (n : Nat) (hi : i = .shl ∨ i = .shr) :
      Effect i s { t with freeIdx := n }
  | afterCall {t : State} (h : Effect i s t) (c : HostCall) (hi : i = .syscall) :
      Effect i s (t.afterCall c)
  | afterDump {t : State} (h : Effect i s t) (hi : i = .syscall) : Effect i s t.afterDump
  | halt {t : State} (h : Effect i s t) (hi : i = .syscall) (hv : Requests .hlt s) :
      Effect i s { t with status := .halted }
  | hostFail {t : State} (h : Effect i s t) (hi : i = .syscall)
      (hv : Requests .putc s ∨ Requests .getc s ∨ Requests .openFile s) :
      Effect i s { t with status := .hostFault }

/-- A conditional answers with the property when each branch does under its own condition. -/
theorem answers_ite_of {P : State → Prop} {p : Prop} [Decidable p] {r q : Result}
    (hr : p → Answers P r) (hq : ¬ p → Answers P q) : Answers P (if p then r else q) := by
  split
  · exact hr (by assumption)
  · exact hq (by assumption)

namespace Effect

variable {i : Instr} {s t : State}

/-! ### Composed updates -/

theorem setTop (h : Effect i s t) (k : Nat) (v : Word) : Effect i s (t.setTop k v) :=
  h.setSlot _ _ fun _ => by omega

theorem drop (h : Effect i s t) (k : Nat) : Effect i s (t.drop k) :=
  h.setDepth _ fun _ => by omega

theorem replacePair (h : Effect i s t) (r : Word) : Effect i s (t.replacePair r) :=
  (h.drop 1).setTop 0 r

theorem pushed (h : Effect i s t) (v : Word) (hd : t.depth < 8192) : Effect i s (t.pushed v) :=
  (h.setSlot _ v fun _ => hd).setDepth _ fun _ => hd

theorem zeroSlots (h : Effect i s t) (j k : Nat) (hk : j + k ≤ 8192) :
    Effect i s (t.zeroSlots j k) := by
  induction k generalizing t j with
  | zero => exact h
  | succ k ih => exact ih (h.setSlot j 0 fun _ => by omega) (j + 1) (by omega)

theorem copyDown (h : Effect i s t) (d : Nat) (bs : List Byte) (hd : d < 8192) :
    Effect i s (t.copyDown d bs) := by
  induction bs generalizing t d with
  | nil => exact h
  | cons b bs ih => exact ih (h.setSlot d _ fun _ => hd) (d - 1) (by omega)

/-- A word taken for `sp` is a new depth. -/
theorem writeSp (h : Effect i s t) (v : Word) (hv : v.toNat ≤ 8192) :
    Effect i s (t.writeReg .sp v) := by
  have hw : t.writeReg .sp v = t.setDepth v.toNat := by
    simp [State.writeReg, State.setDepth]
  rw [hw]
  exact h.setDepth _ fun _ => hv

/-! ### The shared operations -/

theorem raise (h : Effect i s t) (c : Cause) : Answers (Effect i s) (Machine.raise c t) :=
  answers_next (h.fault c)

theorem need (h : Effect i s t) (k : Nat) {go : Result} (hgo : Answers (Effect i s) go) :
    Answers (Effect i s) (Machine.need k t go) :=
  answers_ite (h.raise _) hgo

theorem needSyscall (h : Effect i s t) (k : Nat) {go : Result} (hgo : Answers (Effect i s) go) :
    Answers (Effect i s) (Machine.needSyscall k t go) :=
  answers_ite (h.raise _) hgo

theorem push (h : Effect i s t) (v : Word) : Answers (Effect i s) (Machine.push v t) :=
  answers_ite_of (fun _ => h.raise _) fun hroom =>
    answers_next (h.pushed v (Nat.lt_of_succ_le (Nat.le_of_not_lt hroom)))

theorem unary (h : Effect i s t) (f : Word → Word) : Answers (Effect i s) (Machine.unary f t) :=
  h.need _ (answers_next (h.setTop _ _))

theorem binary (h : Effect i s t) (f : Word → Word → Word) :
    Answers (Effect i s) (Machine.binary f t) :=
  h.need _ (answers_next (h.replacePair _))

theorem shiftBy (h : Effect i s t) (hi : i = .shl ∨ i = .shr) (f : Word → Word → Word) :
    Answers (Effect i s) (Machine.shiftBy f t) :=
  h.need _ (answers_ite (answers_next (h.replacePair _))
    (answers_next ((h.replacePair _).setFreeIdx _ hi)))

theorem popInto (h : Effect i s t) {r : Reg} (hi : i = popInstr r) (hr : r ≠ .sp) :
    Answers (Effect i s) (Machine.popInto r t) :=
  h.need _ (answers_next ((h.popReg r _ hi hr).drop _))

theorem pushFrom (h : Effect i s t) (r : Reg) : Answers (Effect i s) (Machine.pushFrom r t) :=
  h.push _

/-- An access: a place out of bounds faults, and one in bounds answers as `go` says. -/
theorem access (h : Effect i s t) {c : Cause} {place : Option Nat} {go : Nat → Result} :
    (∀ a, place = some a → Answers (Effect i s) (go a)) →
      Answers (Effect i s) (match place with | none => Machine.raise c t | some a => go a) := by
  intro hgo
  cases place with
  | none => exact h.raise c
  | some a => exact hgo a rfl

/-- A jump to a valid target leaves `pc` inside the code segment. -/
theorem jumpToTarget (h : Effect i s t) (hi : i = .jmp ∨ i = .jz ∨ i = .call) {w : Int}
    (hw : t.validTarget w = true) : Effect i s (t.jumpTo w.toNat) := by
  have hrange := State.validTarget_iff.1 hw
  exact h.jumpTo _ hi (by omega)

/-! ### The instructions with an effect of their own -/

theorem execDiv (h : Effect i s t) : Answers (Effect i s) (Machine.execDiv t) :=
  h.need _ (answers_ite (h.raise _) (h.binary _))

theorem execJmp (h : Effect .jmp s t) : Answers (Effect .jmp s) (Machine.execJmp t) :=
  h.need _ (answers_ite_of
    (fun hw => answers_next ((h.drop 1).jumpToTarget (.inl rfl) hw)) fun _ => h.raise _)

theorem execJz (h : Effect .jz s t) : Answers (Effect .jz s) (Machine.execJz t) :=
  h.need _ (answers_ite
    (answers_ite_of
      (fun hw => answers_next ((h.drop 2).jumpToTarget (.inr (.inl rfl)) hw)) fun _ => h.raise _)
    (answers_next (h.drop _)))

theorem execCall (h : Effect .call s t) : Answers (Effect .call s) (Machine.execCall t) :=
  h.need _ (answers_ite_of
    (fun hw => answers_next ((h.setTop 0 _).jumpToTarget (.inr (.inr rfl)) hw))
    fun _ => h.raise _)

theorem execLb (h : Effect i s t) : Answers (Effect i s) (Machine.execLb t) :=
  h.need _ (h.access fun _ _ => answers_next (h.setTop _ _))

theorem execLw (h : Effect i s t) : Answers (Effect i s) (Machine.execLw t) :=
  h.need _ (h.access fun _ _ => answers_next (h.setTop _ _))

theorem execSb (h : Effect .sb s t) : Answers (Effect .sb s) (Machine.execSb t) :=
  h.need _ (h.access fun a ha =>
    answers_next ((h.store1 a _ rfl (accessAt_eq_some.1 ha).2).drop _))

theorem execSw (h : Effect .sw s t) : Answers (Effect .sw s) (Machine.execSw t) :=
  h.need _ (h.access fun a ha =>
    answers_next ((h.store2 a _ rfl (accessAt_eq_some.1 ha).2).drop _))

theorem execLws (h : Effect i s t) : Answers (Effect i s) (Machine.execLws t) :=
  h.need _ (h.access fun _ _ => answers_next (h.setTop _ _))

theorem execSws (h : Effect i s t) : Answers (Effect i s) (Machine.execSws t) :=
  h.need _ (h.access fun j hj =>
    answers_next ((h.drop 2).setSlot j _ fun _ => (stackIndex_eq_some.1 hj).2))

theorem execMove (h : Effect i s t) : Answers (Effect i s) (Machine.execMove t) := by
  refine h.need _ (answers_ite_of (fun _ => h.raise _) fun hneg =>
    answers_ite_of (fun _ => h.raise _) fun hbig => answers_next (h.writeSp _ ?_))
  have hcap : Config.stackSlots = 8192 := rfl
  have hword := toInt_eq_cases (t.top 0)
  simp only [toS] at hneg hbig
  omega

theorem execDup (h : Effect i s t) : Answers (Effect i s) (Machine.execDup t) :=
  h.need _ (h.push _)

theorem execRot (h : Effect i s t) : Answers (Effect i s) (Machine.execRot t) :=
  h.need _ (answers_next ((h.setTop 1 _).setTop 0 _))

theorem execRot3 (h : Effect i s t) : Answers (Effect i s) (Machine.execRot3 t) :=
  h.need _ (answers_ite (answers_next (((h.setTop 2 _).setTop 1 _).setTop 0 _))
    (answers_next (((h.setTop 2 _).setTop 1 _).setTop 0 _)))

theorem execSalloc (h : Effect i s t) : Answers (Effect i s) (Machine.execSalloc t) :=
  h.need _ (answers_ite (h.raise _) (answers_ite_of (fun _ => h.raise _) fun hroom =>
    have hroom := Nat.le_of_not_lt hroom
    answers_next ((h.zeroSlots _ _ hroom).setDepth _ fun _ => hroom)))

/-! ### The services of `SYSCALL` -/

theorem servePutc (h : Effect .syscall s t) (hv : Requests .putc s) :
    Answers (Effect .syscall s) (servePutc t) :=
  h.needSyscall _ (answers_ite (answers_next (h.afterCall _ rfl))
    (answers_next ((h.afterCall _ rfl).hostFail rfl (.inl hv))))

theorem serveGetc (h : Effect .syscall s t) (hv : Requests .getc s) :
    Answers (Effect .syscall s) (serveGetc t) := by
  have hcall := h.afterCall .requestByte rfl
  unfold Machine.serveGetc
  split
  · exact hcall.push _
  · exact answers_next (hcall.hostFail rfl (.inr (.inl hv)))

theorem serveGets (h : Effect .syscall s t) : Answers (Effect .syscall s) (serveGets t) :=
  h.needSyscall _ (h.access fun d hd => answers_ite (h.raise _)
    (answers_next ((h.drop 2).copyDown d _ (stackIndex_eq_some.1 hd).2)))

theorem serveOpen (h : Effect .syscall s t) (hv : Requests .openFile s) :
    Answers (Effect .syscall s) (serveOpen t) := by
  have hfails : Requests .putc s ∨ Requests .getc s ∨ Requests .openFile s := .inr (.inr hv)
  refine h.needSyscall _ ?_
  split
  · exact answers_next (h.hostFail rfl hfails)
  · split
    · exact answers_next ((h.afterCall _ rfl).hostFail rfl hfails)
    · exact ((h.afterCall _ rfl).drop 3).push _

theorem serveClose (h : Effect .syscall s t) : Answers (Effect .syscall s) (serveClose t) :=
  h.needSyscall _ (answers_next ((h.afterCall _ rfl).drop 2))

theorem serveFgetc (h : Effect .syscall s t) : Answers (Effect .syscall s) (serveFgetc t) :=
  h.needSyscall _ (((h.afterCall _ rfl).drop 2).push _)

theorem serveFputc (h : Effect .syscall s t) : Answers (Effect .syscall s) (serveFputc t) :=
  h.needSyscall _ (((h.afterCall _ rfl).drop 3).push _)

end Effect

/-- The service a code selects does what `SYSCALL` may do. -/
theorem answers_dispatch (s : State) :
    Answers (Effect .syscall s) (dispatch (lowByte (s.top 0)) s) := by
  have h : Effect .syscall s s := .refl
  unfold dispatch
  cases hv : serviceOfCode s.params.sysnum (lowByte (s.top 0)) with
  | none => exact h.raise _
  | some service =>
    have hv := requests_of_serviceOfCode hv
    cases service with
    | hlt => exact answers_next (h.halt rfl hv)
    | putc => exact h.servePutc hv
    | getc => exact h.serveGetc hv
    | info => exact answers_next (h.afterDump rfl)
    | gets => exact h.serveGets
    | openFile => exact h.serveOpen hv
    | closeFile => exact h.serveClose
    | fgetc => exact h.serveFgetc
    | fputc => exact h.serveFputc

/-- Every instruction answers a next state, reached by updates it may make. -/
theorem answers_exec (i : Instr) (s : State) : Answers (Effect i s) (exec i s) := by
  have h : Effect i s s := .refl
  cases i with
  | li imm => exact h.push imm
  | lb => exact h.execLb
  | lw => exact h.execLw
  | lws => exact h.execLws
  | sws => exact h.execSws
  | sb => exact h.execSb
  | sw => exact h.execSw
  | pop => exact h.need _ (answers_next (h.drop _))
  | dup => exact h.execDup
  | rot => exact h.execRot
  | rot3 => exact h.execRot3
  | not => exact h.unary _
  | div => exact h.execDiv
  | add | sub | mul | and | or | xor | nor | equ | loe | goe | lt | gt => exact h.binary _
  | shl => exact h.shiftBy (.inl rfl) _
  | shr => exact h.shiftBy (.inr rfl) _
  | salloc => exact h.execSalloc
  | jmp => exact h.execJmp
  | jz => exact h.execJz
  | call => exact h.execCall
  | mova | movb | movc | movd | movf => exact h.popInto rfl (by decide)
  | move => exact h.execMove
  | amov | bmov | cmov | dmov | emov | fmov => exact h.pushFrom _
  | syscall => exact h.need _ (answers_dispatch s)
  | nop => exact answers_next h
  | unassigned op => exact answers_next h

theorem effect_of_exec {i : Instr} {s t : State} (h : exec i s = .next t) : Effect i s t :=
  (answers_exec i s).of_next h

namespace Effect

variable {i : Instr} {s t : State}

/-! ### Effects that belong to their instructions -/

theorem data_eq (h : Effect i s t) (hsb : i ≠ .sb) (hsw : i ≠ .sw) : t.data = s.data := by
  induction h with
  | store1 _ _ _ hi => exact absurd hi hsb
  | store2 _ _ _ hi => exact absurd hi hsw
  | popReg _ r v _ _ ih => rw [State.writeReg_data, ih]
  | refl => rfl
  | _ => rename_i ih; exact ih

theorem noHostCall (h : Effect i s t) (hi : i ≠ .syscall) : NoHostCall s t := by
  induction h with
  | afterCall _ _ hcall | afterDump _ hcall => exact absurd hcall hi
  | popReg _ r v _ _ ih => exact ⟨by simp [ih.hostLog_same], by simp [ih.hostReplies_same]⟩
  | store2 _ a v _ _ ih => exact ⟨by simp [ih.hostLog_same], by simp [ih.hostReplies_same]⟩
  | refl => exact ⟨rfl, rfl⟩
  | _ => rename_i ih; exact ⟨ih.hostLog_same, ih.hostReplies_same⟩

/-- The run of an instruction leaves `pc` and the jump flag, or a jump put `pc` in the code. -/
theorem noJump_or_jumped (h : Effect i s t) : NoJump s t ∨
    (i = .jmp ∨ i = .jz ∨ i = .call) ∧ t.jf = true ∧ t.pc < 2 * t.csSize.toNat := by
  induction h with
  | refl => exact .inl ⟨rfl, rfl⟩
  | jumpTo _ n hi hn => exact .inr ⟨hi, rfl, hn⟩
  | popReg _ r v _ _ ih =>
    refine ih.imp (fun hno => ⟨by simp [hno.pc_same], by simp [hno.jf_same]⟩) fun hjump => ?_
    simpa using hjump
  | store2 _ a v _ _ ih =>
    refine ih.imp (fun hno => ⟨by simp [hno.pc_same], by simp [hno.jf_same]⟩) fun hjump => ?_
    simpa using hjump
  | _ => rename_i ih; exact ih.imp_left fun hno => ⟨hno.pc_same, hno.jf_same⟩

theorem noFreeValue (h : Effect i s t) (hshl : i ≠ .shl) (hshr : i ≠ .shr) : NoFreeValue s t := by
  induction h with
  | setFreeIdx _ _ hi => exact (hi.elim hshl hshr).elim
  | popReg _ r v _ _ ih => exact (State.writeReg_freeIdx _ r v).trans ih
  | store2 _ a v _ _ ih => exact (State.memWrite2_freeIdx _ a v).trans ih
  | refl => rfl
  | _ => rename_i ih; exact ih

end Effect

/-- Settles O20, clause by clause. -/
theorem effectsBelongToTheirInstructions : Obligations.EffectsBelongToTheirInstructions := by
  intro i s t h
  have heff := effect_of_exec h
  refine ⟨heff.data_eq, heff.noHostCall, fun hjmp hjz hcall => ?_, heff.noFreeValue⟩
  obtain hno | ⟨hi, -⟩ := heff.noJump_or_jumped
  · exact hno
  · exact absurd hi (by simp [hjmp, hjz, hcall])

/-! ## The run's status -/

/-- How an instruction can leave the status. -/
theorem Effect.status_cases {i : Instr} {s t : State} (h : Effect i s t) :
    t.status = s.status ∨ (∃ c, t.status = .fault c) ∨
    t.status = .halted ∧ i = .syscall ∧ Requests .hlt s ∨
    t.status = .hostFault ∧ i = .syscall ∧
      (Requests .putc s ∨ Requests .getc s ∨ Requests .openFile s) := by
  induction h with
  | refl => exact .inl rfl
  | fault _ c => exact .inr (.inl ⟨c, rfl⟩)
  | halt _ hi hv => exact .inr (.inr (.inl ⟨rfl, hi, hv⟩))
  | hostFail _ hi hv => exact .inr (.inr (.inr ⟨rfl, hi, hv⟩))
  | popReg _ r v _ _ ih => rwa [State.writeReg_status]
  | store2 _ a v _ _ ih => rwa [State.memWrite2_status]
  | _ => rename_i ih; exact ih

theorem step_of_ended {s : State} (h : s.status ≠ .running) : step s = .fault .runEnded := by
  unfold step
  split
  · exact absurd (by assumption) h
  all_goals rfl

/-- Settles O11: of the ways to leave the status, two end a running run without a fault. -/
theorem statusChangesOnlyAsNamed : Obligations.StatusChangesOnlyAsNamed := by
  refine ⟨rfl, fun s => step_of_ended, fun i s t hc hs h => ?_⟩
  obtain ht | ⟨c, ht⟩ | ⟨ht, hi, hv⟩ | ⟨ht, hi, hv⟩ := (effect_of_exec h).status_cases
  · simp [ht, hs]
  · simp [ht]
  · simp [ht, hi, (requests_hlt hc).1 hv]
  · simp [ht, hi, hv]

/-! ## The invariant -/

/-- The stores reach no further than the data space (20_memory.md R59, R60). -/
theorem State.storeLimit_le (s : State) : s.storeLimit ≤ s.dsSize.toNat + s.extraLen := by
  rw [State.storeLimit_eq]
  split <;> omega

namespace Effect

variable {i : Instr} {s t : State}

theorem icount_eq (h : Effect i s t) : t.icount = s.icount := by
  induction h with
  | popReg _ r v _ _ ih => rw [State.writeReg_icount, ih]
  | store2 _ a v _ _ ih => rw [State.memWrite2_icount, ih]
  | refl => rfl
  | _ => rename_i ih; exact ih

theorem depth_le (h : Effect i s t) (hs : s.depth ≤ 8192) : t.depth ≤ 8192 := by
  induction h with
  | refl => exact hs
  | setDepth _ n hn ih =>
    rw [State.depth_setDepth]
    exact (Nat.mod_le _ _).trans (hn ih)
  | @popReg u _ r v _ hr ih =>
    have hsp : (u.writeReg r v).sp = u.sp := by
      cases r with
      | sp => exact absurd rfl hr
      | _ => rfl
    rwa [State.depth_congr hsp]
  | store2 _ a v _ _ ih => rwa [State.depth_congr (State.memWrite2_sp _ a v)]
  | _ => rename_i ih; exact ih

theorem stack_wf (h : Effect i s t) (hs : StackSpace.wf s.stack) : StackSpace.wf t.stack := by
  induction h with
  | refl => exact hs
  | setSlot _ j v _ ih => exact StackSpace.wf_insert j v ih
  | popReg _ r v _ _ ih => rwa [State.writeReg_stack]
  | store2 _ a v _ _ ih => rwa [State.memWrite2_stack]
  | _ => rename_i ih; exact ih

theorem stack_inside (h : Effect i s t) (hd : s.depth ≤ 8192) (hs : ∀ c ∈ s.stack, c.1 < 8192) :
    ∀ c ∈ t.stack, c.1 < 8192 := by
  induction h with
  | refl => exact hs
  | setSlot hu j v hj ih =>
    intro c hc
    obtain rfl | hc := mem_insertCell hc
    · exact hj (hu.depth_le hd)
    · exact ih c hc
  | popReg _ r v _ _ ih => rwa [State.writeReg_stack]
  | store2 _ a v _ _ ih => rwa [State.memWrite2_stack]
  | _ => rename_i ih; exact ih

theorem data_wf (h : Effect i s t) (hs : Memory.wf s.data) : Memory.wf t.data := by
  induction h with
  | refl => exact hs
  | store1 _ a v _ _ ih => exact Memory.wf_write a _ ih
  | store2 _ a v _ _ ih => exact State.memWrite2_data_wf _ a v ih
  | popReg _ r v _ _ ih => rwa [State.writeReg_data]
  | _ => rename_i ih; exact ih

theorem data_inside (h : Effect i s t) (hs : ∀ c ∈ s.data, c.1 < s.dsSize.toNat + s.extraLen) :
    ∀ c ∈ t.data, c.1 < t.dsSize.toNat + t.extraLen := by
  induction h with
  | refl => exact hs
  | @store1 u _ a v _ ha ih =>
    intro c hc
    have hlimit := u.storeLimit_le
    rw [State.memWrite1_dsSize, State.memWrite1_extraLen]
    obtain hca | hc := Memory.mem_write hc
    · omega
    · exact ih c hc
  | @store2 u _ a v _ ha ih =>
    intro c hc
    have hlimit := u.storeLimit_le
    rw [State.memWrite2_dsSize, State.memWrite2_extraLen]
    obtain hca | hca | hc := State.mem_memWrite2_data hc
    · omega
    · omega
    · exact ih c hc
  | popReg _ r v _ _ ih =>
    rwa [State.writeReg_data, State.writeReg_dsSize, State.writeReg_extraLen]
  | _ => rename_i ih; exact ih

end Effect

/-- An instruction keeps the invariant but for the range of `pc`, which its jump target decides. -/
theorem Invariant.of_exec {i : Instr} {s t : State} (hs : Invariant s) (h : exec i s = .next t)
    (hpc : t.pc ≤ 131070) : Invariant t := by
  have heff := effect_of_exec h
  obtain ⟨hcode, -, hcs, -, -, -, hparams⟩ := State.config_eq_iff.1 (exec_config h)
  exact {
    depth_le := heff.depth_le hs.depth_le
    pc_le := hpc
    icount_le := heff.icount_eq ▸ hs.icount_le
    code_wf := hcode ▸ hs.code_wf
    data_wf := heff.data_wf hs.data_wf
    stack_wf := heff.stack_wf hs.stack_wf
    code_inside := by rw [hcode, hcs]; exact hs.code_inside
    data_inside := heff.data_inside hs.data_inside
    stack_inside := heff.stack_inside hs.depth_le hs.stack_inside
    params_legal := hparams ▸ hs.params_legal }

theorem Invariant.setPc {s : State} (hs : Invariant s) {n : Nat} (hn : n ≤ 131070) :
    Invariant { s with pc := n } := { hs with pc_le := hn }

/-- What a step undone leaves has the invariant: only `status` and the host's part differ. -/
theorem Invariant.setEnd {s : State} (hs : Invariant s) (x : Status) (log : List HostCall)
    (replies : List HostAnswer) :
    Invariant { s with status := x, hostLog := log, hostReplies := replies } := { hs with }

theorem Invariant.beginStep {s : State} (hs : Invariant s) (hb : s.icount < Config.budget)
    {last : Nat} (hlast : last ≤ 131070) : Invariant (s.beginStep last) :=
  { hs with pc_le := hlast, icount_le := hb }

/-- The last nibble of a decoded instruction lies in the code segment, of at most 65535 bytes. -/
theorem lastNibble_lt {s : State} {i : Instr} {len : Nat}
    (h : decode s.params s.big s.codeWindow = .instr i len) : s.pc + len - 1 < 131070 := by
  obtain ⟨hpos, -, hlen, -⟩ := decode_cases h
  have hin := s.fetchFrom_inside s.pc Config.maxNibbles (len - 1)
    (show len - 1 < s.codeWindow.length by omega)
  have hcs := s.csSize.isLt
  omega

/-- `pc` after an instruction: in range, and on the instruction's last nibble if it did not jump. -/
theorem pc_le_of_exec {i : Instr} {s t : State} {last : Nat} (hlast : last < 131070)
    (h : exec i (s.beginStep last) = .next t) :
    t.pc ≤ 131070 ∧ (t.jf = false → t.pc + 1 ≤ 131070) := by
  obtain hno | ⟨-, hjf, hpc⟩ := (effect_of_exec h).noJump_or_jumped
  · have hpc : t.pc = last := hno.pc_same
    exact ⟨by omega, fun _ => by omega⟩
  · have hcs := t.csSize.isLt
    exact ⟨by omega, fun hfalse => by simp [hjf] at hfalse⟩

theorem Invariant.finishStep {s u : State} (hs : Invariant s) (hu : Invariant u)
    (hpc : u.jf = false → u.pc + 1 ≤ 131070) : Invariant (finishStep s u) := by
  obtain ⟨-, hfin⟩ | ⟨-, hfin⟩ | ⟨-, hfin⟩ := finishStep_cases s u <;> rw [hfin]
  · split
    · exact hu
    · exact hu.setPc (hpc (by simpa using ‹¬ u.jf = true›))
  · exact hu
  · exact hs.setEnd _ _ _

/-- Settles O15, by how the step ended: at once with a fault, or after an instruction. -/
theorem stepKeepsInvariant : Obligations.StepKeepsInvariant := by
  intro s t hs h
  obtain ⟨-, ⟨-, rfl⟩ | ⟨-, -, rfl⟩ | ⟨hb, i, len, u, hdec, hu, rfl⟩⟩ := step_cases h
  · exact hs.setEnd _ _ _
  · exact hs.setEnd _ _ _
  · have hlast := lastNibble_lt hdec
    obtain ⟨hpc, hstraight⟩ := pc_le_of_exec hlast hu
    have hbegin := hs.beginStep hb hlast.le
    exact hs.finishStep (hbegin.of_exec hu hpc) hstraight

/-- Settles O16: every space is empty and every counter 0. -/
theorem invariantAtReset : Obligations.InvariantAtReset where
  depth_le := Nat.zero_le _
  pc_le := Nat.zero_le _
  icount_le := Nat.zero_le _
  code_wf := ⟨.nil, by simp [State.reset]⟩
  data_wf := ⟨.nil, by simp [State.reset]⟩
  stack_wf := .nil
  code_inside := by simp [State.reset]
  data_inside := by simp [State.reset]
  stack_inside := by simp [State.reset]
  params_legal := defaultParameters_legal

/-! ## What an instruction does not read

A patch changes registers other than `sp`, and the instruction counter. An instruction that has no
move of a patched register does the same on the patched state, and its answer is patched alike. -/

/-- A change of each register and of the instruction counter. -/
structure Patch where
  reg : Reg → Word → Word
  icount : Nat → Nat

/-- The state with its registers but `sp`, and its instruction counter, patched. -/
def State.patch (p : Patch) (s : State) : State :=
  { s with
    aft := p.reg .aft s.aft
    bur := p.reg .bur s.bur
    con := p.reg .con s.con
    dis := p.reg .dis s.dis
    bp := p.reg .bp s.bp
    icount := p.icount s.icount }

/-- The register is not affected by the patch. -/
def Patch.Fixes (p : Patch) (r : Reg) : Prop := ∀ v, p.reg r v = v

/-- The first result is a next state, and the second is that state patched. -/
def Mirrors (p : Patch) (r r' : Result) : Prop := ∃ t, r = .next t ∧ r' = .next (t.patch p)

section

variable {p : Patch} {s : State} {r r' : Result}

theorem Mirrors.of_next {t : State} (h : Mirrors p r r') (hr : r = .next t) :
    r' = .next (t.patch p) := by
  obtain ⟨u, hu, hu'⟩ := h
  rw [hr] at hu
  cases hu
  exact hu'

theorem mirrors_next {t t' : State} (h : t' = t.patch p) : Mirrors p (.next t) (.next t') :=
  ⟨t, rfl, h ▸ rfl⟩

theorem mirrors_ite {c : Prop} [Decidable c] {q q' : Result} (h : Mirrors p r r')
    (hq : Mirrors p q q') : Mirrors p (if c then r else q) (if c then r' else q') := by
  split <;> assumption

/-! ### The updates of a patched state -/

theorem State.patch_writeReg {q : Reg} (hq : p.Fixes q) (v : Word) :
    (s.patch p).writeReg q v = (s.writeReg q v).patch p := by
  cases q <;> simp [State.writeReg, State.patch, hq v]

theorem State.patch_readReg {q : Reg} (hq : p.Fixes q) : (s.patch p).readReg q = s.readReg q := by
  cases q with
  | sp => rfl
  | _ => exact hq _

theorem State.patch_memWrite2 (a : Nat) (v : Word) :
    (s.patch p).memWrite2 a v = (s.memWrite2 a v).patch p := by
  have hbig : (s.patch p).big = s.big := rfl
  unfold State.memWrite2
  rw [hbig]
  split <;> rfl

theorem State.patch_zeroSlots (i k : Nat) :
    (s.patch p).zeroSlots i k = (s.zeroSlots i k).patch p := by
  induction k generalizing s i with
  | zero => rfl
  | succ k ih => exact ih (s := s.setSlot i 0) (i + 1)

theorem State.patch_copyDown (d : Nat) (bs : List Byte) :
    (s.patch p).copyDown d bs = (s.copyDown d bs).patch p := by
  induction bs generalizing s d with
  | nil => rfl
  | cons b bs ih => exact ih (s := s.setSlot d (zext8 b)) (d - 1)

/-! ### The shared operations -/

theorem mirrors_raise (c : Cause) : Mirrors p (raise c s) (raise c (s.patch p)) :=
  mirrors_next rfl

theorem mirrors_hostFail : Mirrors p (hostFail s) (hostFail (s.patch p)) := mirrors_next rfl

theorem mirrors_need (k : Nat) (h : Mirrors p r r') :
    Mirrors p (need k s r) (need k (s.patch p) r') :=
  mirrors_ite (c := s.depth < k) (mirrors_raise _) h

theorem mirrors_needSyscall (k : Nat) (h : Mirrors p r r') :
    Mirrors p (needSyscall k s r) (needSyscall k (s.patch p) r') :=
  mirrors_ite (c := s.depth < k) (mirrors_raise _) h

theorem mirrors_push (v : Word) : Mirrors p (push v s) (push v (s.patch p)) :=
  mirrors_ite (c := Config.stackSlots < s.depth + 1) (mirrors_raise _) (mirrors_next rfl)

theorem mirrors_unary (f : Word → Word) : Mirrors p (unary f s) (unary f (s.patch p)) :=
  mirrors_need 1 (mirrors_next rfl)

theorem mirrors_binary (f : Word → Word → Word) :
    Mirrors p (binary f s) (binary f (s.patch p)) :=
  mirrors_need 2 (mirrors_next rfl)

theorem mirrors_shiftBy (f : Word → Word → Word) :
    Mirrors p (shiftBy f s) (shiftBy f (s.patch p)) :=
  mirrors_need 2 (mirrors_ite (c := shiftInRange (s.top 0) = true) (mirrors_next rfl)
    (mirrors_next rfl))

theorem mirrors_popInto {q : Reg} (hq : p.Fixes q) :
    Mirrors p (popInto q s) (popInto q (s.patch p)) := by
  refine mirrors_need 1 (mirrors_next ?_)
  rw [State.patch_writeReg hq]
  rfl

theorem mirrors_pushFrom {q : Reg} (hq : p.Fixes q) :
    Mirrors p (pushFrom q s) (pushFrom q (s.patch p)) := by
  unfold pushFrom
  rw [State.patch_readReg hq]
  exact mirrors_push _

theorem mirrors_access {c : Cause} {place : Option Nat} {go go' : Nat → Result} :
    (∀ a, Mirrors p (go a) (go' a)) →
      Mirrors p (match place with | none => raise c s | some a => go a)
        (match place with | none => raise c (s.patch p) | some a => go' a) := by
  intro h
  cases place with
  | none => exact mirrors_raise c
  | some a => exact h a

/-! ### The instructions with an effect of their own -/

theorem mirrors_execDiv : Mirrors p (execDiv s) (execDiv (s.patch p)) :=
  mirrors_need 2 (mirrors_ite (c := s.top 0 = 0) (mirrors_raise _) (mirrors_binary _))

theorem mirrors_execJmp : Mirrors p (execJmp s) (execJmp (s.patch p)) :=
  mirrors_need 1 (mirrors_ite (c := s.validTarget (absTarget (s.top 0)) = true)
    (mirrors_next rfl) (mirrors_raise _))

theorem mirrors_execJz : Mirrors p (execJz s) (execJz (s.patch p)) :=
  mirrors_need 2 (mirrors_ite (c := s.jzCond = 0)
    (mirrors_ite (c := s.validTarget (s.plainTarget s.jzTarget) = true) (mirrors_next rfl)
      (mirrors_raise _))
    (mirrors_next rfl))

theorem mirrors_execCall : Mirrors p (execCall s) (execCall (s.patch p)) :=
  mirrors_need 1 (mirrors_ite (c := s.validTarget (s.plainTarget (s.top 0)) = true)
    (mirrors_next rfl) (mirrors_raise _))

theorem mirrors_execLb : Mirrors p (execLb s) (execLb (s.patch p)) :=
  mirrors_need 1 (mirrors_access fun _ => mirrors_next rfl)

theorem mirrors_execLw : Mirrors p (execLw s) (execLw (s.patch p)) :=
  mirrors_need 1 (mirrors_access fun _ => mirrors_next rfl)

theorem mirrors_execSb : Mirrors p (execSb s) (execSb (s.patch p)) :=
  mirrors_need 2 (mirrors_access fun _ => mirrors_next rfl)

theorem mirrors_execSw : Mirrors p (execSw s) (execSw (s.patch p)) :=
  mirrors_need 2 (mirrors_access fun a => mirrors_next
    (congrArg (State.drop · 2) (State.patch_memWrite2 a s.storeValue)))

theorem mirrors_execLws : Mirrors p (execLws s) (execLws (s.patch p)) :=
  mirrors_need 1 (mirrors_access fun _ => mirrors_next rfl)

theorem mirrors_execSws : Mirrors p (execSws s) (execSws (s.patch p)) :=
  mirrors_need 2 (mirrors_access fun _ => mirrors_next rfl)

theorem mirrors_execMove : Mirrors p (execMove s) (execMove (s.patch p)) :=
  mirrors_need 1 (mirrors_ite (c := toS (s.top 0) < 0) (mirrors_raise _)
    (mirrors_ite (c := Config.stackSlots < (toS (s.top 0)).toNat) (mirrors_raise _)
      (mirrors_next rfl)))

theorem mirrors_execRot3 : Mirrors p (execRot3 s) (execRot3 (s.patch p)) :=
  mirrors_need 3 (mirrors_ite (c := s.params.rot3ThirdToTop = true) (mirrors_next rfl)
    (mirrors_next rfl))

theorem mirrors_execSalloc : Mirrors p (execSalloc s) (execSalloc (s.patch p)) :=
  mirrors_need 1 (mirrors_ite (c := toS (s.top 0) < -1) (mirrors_raise _)
    (mirrors_ite (c := Config.stackSlots < s.depth - 1 + (toS (s.top 0) + 1).toNat)
      (mirrors_raise _)
      (mirrors_next (congrArg (State.setDepth · _) (State.patch_zeroSlots _ _)))))

/-! ### The services of `SYSCALL` -/

theorem mirrors_servePutc : Mirrors p (servePutc s) (servePutc (s.patch p)) :=
  mirrors_needSyscall 2 (mirrors_ite (c := answeredOk s.hostAnswer = true) (mirrors_next rfl)
    (mirrors_next rfl))

theorem mirrors_serveGetc : Mirrors p (serveGetc s) (serveGetc (s.patch p)) := by
  have hanswer : (s.patch p).hostAnswer = s.hostAnswer := rfl
  unfold serveGetc
  rw [hanswer]
  cases answeredByte s.hostAnswer with
  | none => exact mirrors_next rfl
  | some b => exact mirrors_push (s := s.afterCall .requestByte) _

theorem mirrors_serveGets : Mirrors p (serveGets s) (serveGets (s.patch p)) :=
  mirrors_needSyscall 2 (mirrors_access fun d =>
    mirrors_ite (c := d + 1 < s.getsBytes.length) (mirrors_raise _)
      (mirrors_next (State.patch_copyDown (s := s.drop 2) d s.getsBytes)))

theorem mirrors_serveOpen : Mirrors p (serveOpen s) (serveOpen (s.patch p)) := by
  have hanswer : (s.patch p).hostAnswer = s.hostAnswer := rfl
  have hpath : (s.patch p).pathAt ((s.patch p).top 2) = s.pathAt (s.top 2) := rfl
  unfold serveOpen
  rw [hanswer, hpath]
  refine mirrors_needSyscall 3 ?_
  cases s.pathAt (s.top 2) with
  | none => exact mirrors_hostFail
  | some path =>
    cases answeredHandle s.hostAnswer with
    | none => exact mirrors_next rfl
    | some handle =>
      exact mirrors_push (s := (s.afterCall (.openFile path (s.top 1))).drop 3) _

theorem mirrors_serveClose : Mirrors p (serveClose s) (serveClose (s.patch p)) :=
  mirrors_needSyscall 2 (mirrors_next rfl)

theorem mirrors_serveFgetc : Mirrors p (serveFgetc s) (serveFgetc (s.patch p)) :=
  mirrors_needSyscall 2 (mirrors_push (s := (s.afterCall (.read1 (s.top 1))).drop 2) _)

theorem mirrors_serveFputc : Mirrors p (serveFputc s) (serveFputc (s.patch p)) :=
  mirrors_needSyscall 3
    (mirrors_push (s := (s.afterCall (.write1 (s.top 1) (lowByte (s.top 2)))).drop 3) _)

theorem mirrors_dispatch (code : Byte) :
    Mirrors p (dispatch code s) (dispatch code (s.patch p)) := by
  have hparams : (s.patch p).params = s.params := rfl
  unfold dispatch
  rw [hparams]
  cases serviceOfCode s.params.sysnum code with
  | none => exact mirrors_raise _
  | some service =>
    cases service with
    | hlt => exact mirrors_next rfl
    | putc => exact mirrors_servePutc
    | getc => exact mirrors_serveGetc
    | info => exact mirrors_next rfl
    | gets => exact mirrors_serveGets
    | openFile => exact mirrors_serveOpen
    | closeFile => exact mirrors_serveClose
    | fgetc => exact mirrors_serveFgetc
    | fputc => exact mirrors_serveFputc

end

/-- An instruction that moves no patched register does the same on a patched state. -/
theorem mirrors_exec {p : Patch} (i : Instr) (s : State)
    (hp : ∀ r, i = popInstr r ∨ i = pushInstr r → p.Fixes r) :
    Mirrors p (exec i s) (exec i (s.patch p)) := by
  cases i with
  | li imm => exact mirrors_push imm
  | lb => exact mirrors_execLb
  | lw => exact mirrors_execLw
  | lws => exact mirrors_execLws
  | sws => exact mirrors_execSws
  | sb => exact mirrors_execSb
  | sw => exact mirrors_execSw
  | pop => exact mirrors_need 1 (mirrors_next rfl)
  | dup => exact mirrors_need 1 (mirrors_push _)
  | rot => exact mirrors_need 2 (mirrors_next rfl)
  | rot3 => exact mirrors_execRot3
  | not => exact mirrors_unary _
  | div => exact mirrors_execDiv
  | add | sub | mul | and | or | xor | nor | equ | loe | goe | lt | gt => exact mirrors_binary _
  | shl | shr => exact mirrors_shiftBy _
  | salloc => exact mirrors_execSalloc
  | jmp => exact mirrors_execJmp
  | jz => exact mirrors_execJz
  | call => exact mirrors_execCall
  | mova | movb | movc | movd | movf => exact mirrors_popInto (hp _ (.inl rfl))
  | move => exact mirrors_execMove
  | amov | bmov | cmov | dmov | emov | fmov => exact mirrors_pushFrom (hp _ (.inr rfl))
  | syscall => exact mirrors_need 1 (mirrors_dispatch _)
  | nop => exact mirrors_next rfl
  | unassigned op => exact mirrors_next rfl

/-! ## The instruction counter -/

/-- The patch that sets the instruction counter. -/
def Patch.setIcount (n : Nat) : Patch := ⟨fun _ v => v, fun _ => n⟩

theorem State.patch_setIcount (s : State) (n : Nat) :
    s.patch (Patch.setIcount n) = { s with icount := n } := rfl

theorem icount_of_step {s t : State} (h : step s = .next t) :
    (t.status = .running ∨ t.status = .halted → t.icount = s.icount + 1) ∧
    ((∃ c, t.status = .fault c) ∨ t.status = .hostFault → t.icount = s.icount) := by
  obtain ⟨-, ⟨-, rfl⟩ | ⟨-, -, rfl⟩ | ⟨-, i, len, u, -, hu, rfl⟩⟩ := step_cases h
  · exact ⟨by simp, fun _ => rfl⟩
  · exact ⟨by simp, fun _ => rfl⟩
  · have hcount : u.icount = s.icount + 1 := (effect_of_exec hu).icount_eq
    rw [finishStep_status]
    obtain ⟨hst, hfin⟩ | ⟨hst, hfin⟩ | ⟨hfail, hfin⟩ := finishStep_cases s u <;> rw [hfin]
    · exact ⟨fun _ => by split <;> exact hcount, by simp [hst]⟩
    · exact ⟨fun _ => hcount, by simp [hst]⟩
    · refine ⟨fun hon => ?_, fun _ => rfl⟩
      obtain ⟨c, hst⟩ | hst := hfail <;> simp [hst] at hon

/-- Settles O13: the counter by how the step ended, and setting it as a patch that no instruction
reads. -/
theorem instructionCounterCounts : Obligations.InstructionCounterCounts := by
  refine ⟨rfl, fun s t => icount_of_step, fun i s t n h => ?_⟩
  have hexec := (mirrors_exec (p := Patch.setIcount n) i s fun _ _ _ => rfl).of_next h
  rwa [State.patch_setIcount, State.patch_setIcount] at hexec

/-! ## The registers of two moves only -/

/-- The patch that sets one register. -/
def Patch.setReg (r : Reg) (v : Word) : Patch := ⟨fun q w => if q = r then v else w, fun n => n⟩

theorem State.patch_setReg {r : Reg} (hr : r ∈ plainRegs) (s : State) (v : Word) :
    s.patch (Patch.setReg r v) = s.writeReg r v := by
  cases r with
  | sp => simp [plainRegs] at hr
  | _ => rfl

theorem State.readReg_writeReg_of_ne {r q : Reg} (h : r ≠ q) (s : State) (v : Word) :
    (s.writeReg q v).readReg r = s.readReg r :=
  (frame_writeReg s q v).regs_same r (by simpa using h)

/-- A register other than `sp` changes only by its own pop. -/
theorem Effect.readReg_eq {i : Instr} {s t : State} (h : Effect i s t) {r : Reg}
    (hr : r ∈ plainRegs) (hi : i ≠ popInstr r) : t.readReg r = s.readReg r := by
  have hsp : r ≠ .sp := by rintro rfl; simp [plainRegs] at hr
  induction h with
  | refl => rfl
  | setSlot _ j v _ ih => exact ((frame_setSlot _ j v).regs_same r (by simp)).trans ih
  | setDepth _ n _ ih => exact ((frame_setDepth _ n).regs_same r (by simpa using hsp)).trans ih
  | popReg _ q v hq _ ih =>
    have hne : r ≠ q := fun he => hi (he ▸ hq)
    exact (State.readReg_writeReg_of_ne hne _ v).trans ih
  | store1 _ a v _ _ ih => exact ((frame_memWrite1 _ a v).regs_same r (by simp)).trans ih
  | store2 _ a v _ _ ih => exact ((frame_memWrite2 _ a v).regs_same r (by simp)).trans ih
  | jumpTo _ n _ _ ih => exact ((frame_jumpTo _ n).regs_same r (by simp)).trans ih
  | afterCall _ c _ ih => exact ((frame_afterCall _ c).regs_same r (by simp)).trans ih
  | _ => rename_i ih; rw [← ih]; cases r <;> rfl

/-- Settles O19: the register changes by its own pop only, and setting it beforehand is a patch that
an instruction with no move of it does not read. -/
theorem registersPrivateToTheirMoves : Obligations.RegistersPrivateToTheirMoves := by
  intro r hr i s t hpop h
  refine ⟨(effect_of_exec h).readReg_eq hr hpop, fun hpush v => ?_⟩
  have hfixes (q : Reg) (hq : i = popInstr q ∨ i = pushInstr q) :
      (Patch.setReg r v).Fixes q := by
    have hne : q ≠ r := by rintro rfl; exact hq.elim hpop hpush
    exact fun _ => if_neg hne
  have hexec := (mirrors_exec i s hfixes).of_next h
  rwa [State.patch_setReg hr, State.patch_setReg hr] at hexec

/-! ## Memories as data -/

theorem mem_of_lookupCell {α : Type} {m : List (Nat × α)} {a : Nat} {v : α}
    (h : lookupCell m a = some v) : (a, v) ∈ m := by
  induction m with
  | nil => simp [lookupCell] at h
  | cons c m ih =>
    obtain ⟨k, u⟩ := c
    simp only [lookupCell] at h
    split at h
    · simp_all
    · exact List.mem_cons_of_mem _ (ih h)

theorem lookupCell_of_mem {α : Type} {m : List (Nat × α)} {a : Nat} {v : α}
    (hm : m.Pairwise (fun x y => x.1 < y.1)) (h : (a, v) ∈ m) : lookupCell m a = some v := by
  induction m with
  | nil => simp at h
  | cons c m ih =>
    obtain ⟨hlow, hm⟩ := List.pairwise_cons.1 hm
    obtain rfl | h := List.mem_cons.1 h
    · simp [lookupCell]
    · have hne : a ≠ c.1 := (hlow _ h).ne'
      simp only [lookupCell, hne, if_false, ih hm h]

/-- A canonical byte space lists exactly the bytes other than 0 that it reads as. -/
theorem Memory.mem_iff_read {m : Memory} (hm : Memory.wf m) {a : Nat} {b : Byte} :
    (a, b) ∈ m ↔ b ≠ 0 ∧ Memory.read m a = b := by
  obtain ⟨hrising, hnonzero⟩ := hm
  constructor
  · intro h
    exact ⟨hnonzero _ h, by rw [Memory.read, lookupCell_of_mem hrising h, Option.getD_some]⟩
  · rintro ⟨hb, hread⟩
    rw [Memory.read] at hread
    cases hlook : lookupCell m a with
    | none => rw [hlook, Option.getD_none] at hread; exact absurd hread.symm hb
    | some v => rw [hlook, Option.getD_some] at hread; exact hread ▸ mem_of_lookupCell hlook

/-- Settles O59: the two lists have the same members, and a rising list is determined by them. -/
theorem canonicalMemoriesAreEqualData : Obligations.CanonicalMemoriesAreEqualData := by
  intro m n hm hn hread
  have hmem (c : Host.Cell) : c ∈ m ↔ c ∈ n := by
    rw [Memory.mem_iff_read hm, Memory.mem_iff_read hn, hread]
  have hnodup {l : Memory} (hl : Memory.wf l) : l.Nodup :=
    hl.1.imp fun hlt he => (he ▸ hlt).false
  have hperm := (List.perm_ext_iff_of_nodup (hnodup hm) (hnodup hn)).2 hmem
  exact hperm.eq_of_pairwise (fun _ _ _ _ hab hba => (hab.asymm hba).elim) hm.1 hn.1

/-! ## The loader -/

/-- The header of an image, its fields at the offsets of 70_reset_and_hazards.md R293. -/
def imageHeader (image : List Byte) : Header where
  big := imageByte image 4 == 0x11
  csSize := imageWord image 5
  dsSize := imageWord image 7
  iSize := imageWord image 9
  entryPc := imageWord image 13

/-- The code bytes of an image. -/
def imageCode (image : List Byte) : List Byte :=
  (image.drop 15).take (imageWord image 5).toNat

/-- The init-data bytes of an image. -/
def imageInit (image : List Byte) : List Byte :=
  (image.drop (15 + (imageWord image 5).toNat)).take (imageWord image 9).toNat

/-- A byte of a section of an image is the image's byte at the section's offset. -/
theorem getD_take_drop {image : List Byte} {o n k : Nat} (hk : k < n) :
    ((image.drop o).take n).getD k 0 = imageByte image (o + k) := by
  simp [imageByte, List.getD_eq_getElem?_getD, hk]

theorem length_imageInit_le (image : List Byte) :
    (imageInit image).length ≤ (imageWord image 9).toNat := List.length_take_le _ _

/-- What steps 7 to 9 of R294 accept. -/
theorem loadBody_cases {c : Parameters} {h : Header} {body sData sGets : List Byte} {s : State}
    (hs : loadBody c h body sData sGets = .started s) :
    h.csSize.toNat + h.iSize.toNat ≤ body.length ∧
    s = startState c h (body.take h.csSize.toNat)
      ((body.drop h.csSize.toNat).take h.iSize.toNat) sData sGets := by
  unfold loadBody at hs
  split at hs
  · simp at hs
  · simp only at hs
    split at hs
    · simp at hs
    · rename_i hinit
      rw [List.length_drop] at hinit
      exact ⟨by omega, (Loaded.started.inj hs).symm⟩

/-- What steps 3 to 5 of R294 accept. -/
theorem loadFields_cases {c : Parameters} {big : Bool} {bytes sData sGets : List Byte} {s : State}
    (hs : loadFields c big bytes sData sGets = .started s) :
    ∃ c0 c1 d0 d1 i0 i1 r0 r1 e0 e1 body h,
      bytes = c0 :: c1 :: d0 :: d1 :: i0 :: i1 :: r0 :: r1 :: e0 :: e1 :: body ∧
      h = ⟨big, imageField big c0 c1, imageField big d0 d1, imageField big i0 i1,
        imageField big e0 e1⟩ ∧
      h.iSize.toNat ≤ h.dsSize.toNat ∧ h.entryPc.toNat / 2 < h.csSize.toNat ∧
      loadBody c h body sData sGets = .started s := by
  unfold loadFields at hs
  split at hs
  · simp only at hs
    split at hs
    · simp at hs
    · rename_i hds
      split at hs
      · split at hs
        · simp at hs
        · rename_i hentry
          exact ⟨_, _, _, _, _, _, _, _, _, _, _, _, rfl, rfl, Nat.le_of_not_lt hds,
            Nat.lt_of_not_le hentry, hs⟩
      · simp at hs
  · simp at hs

/-- What step 2 of R294 accepts. -/
theorem loadEndian_cases {c : Parameters} {bytes sData sGets : List Byte} {s : State}
    (hs : loadEndian c bytes sData sGets = .started s) :
    ∃ e rest, bytes = e :: rest ∧ (e = 0x10 ∨ e = 0x11) ∧
      loadFields c (e == 0x11) rest sData sGets = .started s := by
  unfold loadEndian at hs
  split at hs
  · simp at hs
  · rename_i e rest
    split at hs
    · subst e; exact ⟨_, _, rfl, .inl rfl, hs⟩
    · split at hs
      · subst e; exact ⟨_, _, rfl, .inr rfl, hs⟩
      · simp at hs

/-- All that the loader can accept: its checks passed, and the start state is made of the header, the
code and the init-data bytes (R293, R294). -/
theorem loadImage_cases {c : Parameters} {image sData sGets : List Byte} {s : State}
    (hs : loadImage c image sData sGets = .started s) :
    image.take 4 = imageMagic ∧ (imageByte image 4 = 0x10 ∨ imageByte image 4 = 0x11) ∧
    (imageWord image 9).toNat ≤ (imageWord image 7).toNat ∧
    (imageWord image 13).toNat / 2 < (imageWord image 5).toNat ∧
    15 + (imageWord image 5).toNat + (imageWord image 9).toNat ≤ image.length ∧
    s = startState c (imageHeader image) (imageCode image) (imageInit image) sData sGets := by
  unfold loadImage at hs
  split at hs
  · rename_i hmagic
    obtain ⟨e, rest, hrest, he, hs⟩ := loadEndian_cases hs
    obtain ⟨c0, c1, d0, d1, i0, i1, r0, r1, e0, e1, body, h, rfl, hh, hds, hentry, hs⟩ :=
      loadFields_cases hs
    obtain ⟨hlen, hs⟩ := loadBody_cases hs
    have himage : image = imageMagic ++
        e :: c0 :: c1 :: d0 :: d1 :: i0 :: i1 :: r0 :: r1 :: e0 :: e1 :: body := by
      rw [← hmagic, ← hrest, List.take_append_drop]
    obtain rfl : h = imageHeader image := by rw [himage, hh]; rfl
    have hbyte : imageByte image 4 = e := by rw [himage]; rfl
    have hbody : body = image.drop 15 := by rw [himage]; rfl
    have hlength : image.length = 15 + body.length := by
      rw [himage, List.length_append]
      simp only [imageMagic, List.length_cons, List.length_nil]
      omega
    rw [hbody, List.drop_drop] at hs
    refine ⟨hmagic, hbyte ▸ he, hds, hentry, ?_, hs⟩
    rw [hlength, Nat.add_assoc]
    exact Nat.add_le_add_left hlen 15
  · simp at hs

/-! ### What the spaces of a start state read as -/

theorem Memory.read_append_left {m n : Memory} {a : Nat} (h : ∀ c ∈ n, c.1 ≠ a) :
    Memory.read (m ++ n) a = Memory.read m a := by
  rw [Memory.read, Memory.read, lookupCell_append, lookupCell_of_all_ne h, Option.or_none]

theorem Memory.read_append_right {m n : Memory} {a : Nat} (h : ∀ c ∈ m, c.1 ≠ a) :
    Memory.read (m ++ n) a = Memory.read n a := by
  rw [Memory.read, Memory.read, lookupCell_append, lookupCell_of_all_ne h, Option.none_or]

section

variable {c : Parameters} {h : Header} {code init sData sGets : List Byte}

theorem codeByte_startState (k : Nat) :
    (startState c h code init sData sGets).codeByte k = code.getD k 0 := by
  simp [State.codeByte, startState, Memory.read_ofBytes]

/-- Below `ds_size` the data space holds the init-data bytes and zeros. -/
theorem dataByte_startState_of_lt {k : Nat} (hk : k < h.dsSize.toNat) :
    (startState c h code init sData sGets).dataByte k = init.getD k 0 := by
  have hnone : ∀ d ∈ Memory.ofBytes h.dsSize.toNat sData, d.1 ≠ k := by
    intro d hd
    have hlow := (Memory.mem_ofBytes hd).1
    omega
  rw [State.dataByte, startState, Memory.read_append_left hnone, Memory.read_ofBytes]
  simp

/-- From `ds_size` on the data space holds `S_DATA`. -/
theorem dataByte_startState_add (hinit : init.length ≤ h.dsSize.toNat) (k : Nat) :
    (startState c h code init sData sGets).dataByte (h.dsSize.toNat + k) = sData.getD k 0 := by
  have hnone : ∀ d ∈ Memory.ofBytes 0 init, d.1 ≠ h.dsSize.toNat + k := by
    intro d hd
    have hhigh := (Memory.mem_ofBytes hd).2.1
    omega
  rw [State.dataByte, startState, Memory.read_append_right hnone, Memory.read_ofBytes]
  simp

end

/-- Settles O57: the start state's fields are read off, and its spaces are read section by section. -/
theorem loaderMakesTheResetState : Obligations.LoaderMakesTheResetState := by
  intro c image sData sGets s hs
  obtain ⟨-, -, hds, -, -, rfl⟩ := loadImage_cases hs
  have hinit := length_imageInit_le image
  refine ⟨rfl, rfl, rfl, rfl, rfl, rfl, rfl, fun k hk => ?code, fun k hk => ?init,
    fun k hk hlt => ?zero, fun k b hb => ?sData, fun i => rfl, fun r => ?regs, rfl, rfl, rfl⟩
  case code => exact (codeByte_startState k).trans (getD_take_drop hk)
  case init => exact (dataByte_startState_of_lt (hk.trans_le hds)).trans (getD_take_drop hk)
  case zero =>
    exact (dataByte_startState_of_lt hlt).trans (List.getD_eq_default _ _ (hinit.trans hk))
  case sData =>
    refine (dataByte_startState_add (hinit.trans hds) k).trans ?_
    rw [List.getD_eq_getElem?_getD, hb, Option.getD_some]
  case regs => cases r <;> rfl

end Sys2Proof.Machine

namespace Sys2Proof.Machine

/-! ## The memory instructions, by the place they access

A load or a store checks its operands, finds the place its address word names, and faults when there
is none (20_memory.md R57 to R61). Each instruction's meaning is said once in this shape. -/

theorem access_eq_elim (c : Cause) (s : State) (place : Option Nat) (go : Nat → Result) :
    (match place with | none => raise c s | some a => go a) = place.elim (raise c s) go := by
  cases place <;> rfl

theorem exec_lb (s : State) : exec .lb s =
    need 1 s ((accessAt (s.top 0) 1 s.byteLoadLimit).elim (raise .accessViolation s) fun a =>
      .next (s.setTop 0
        (if s.params.lbSignExtend then sext8 (s.dataByte a) else zext8 (s.dataByte a)))) :=
  congrArg (need 1 s) (access_eq_elim _ _ _ _)

theorem exec_lw (s : State) : exec .lw s =
    need 1 s ((accessAt (s.top 0) 2 s.wordLoadLimit).elim (raise .accessViolation s) fun a =>
      .next (s.setTop 0 (s.memRead2 a))) :=
  congrArg (need 1 s) (access_eq_elim _ _ _ _)

theorem exec_sb (s : State) : exec .sb s =
    need 2 s ((accessAt s.storeAddr 1 s.storeLimit).elim (raise .accessViolation s) fun a =>
      .next ((s.memWrite1 a s.storeValue).drop 2)) :=
  congrArg (need 2 s) (access_eq_elim _ _ _ _)

theorem exec_sw (s : State) : exec .sw s =
    need 2 s ((accessAt s.storeAddr 2 s.storeLimit).elim (raise .accessViolation s) fun a =>
      .next ((s.memWrite2 a s.storeValue).drop 2)) :=
  congrArg (need 2 s) (access_eq_elim _ _ _ _)

theorem exec_lws (s : State) : exec .lws s =
    need 1 s ((stackIndex (s.top 0)).elim (raise .stackAccessViolation s) fun i =>
      .next (s.setTop 0 (s.slot i))) :=
  congrArg (need 1 s) (access_eq_elim _ _ _ _)

theorem exec_sws (s : State) : exec .sws s =
    need 2 s ((stackIndex s.storeAddr).elim (raise .stackAccessViolation s) fun i =>
      .next ((s.drop 2).setSlot i s.storeValue)) :=
  congrArg (need 2 s) (access_eq_elim _ _ _ _)

/-- An access completes where its place is in bounds, and faults where it is not. -/
theorem completes_or_raises {i : Instr} {s : State} {k : Nat} {c : Cause} {place : Option Nat}
    {after : Nat → State} {inBounds : Prop} [Decidable inBounds] (hk : k ≤ s.depth)
    (hexec : exec i s = need k s (place.elim (raise c s) fun a => .next (after a)))
    (hplace : place = none ↔ ¬ inBounds) (hstatus : ∀ a, (after a).status = s.status) :
    if inBounds then ∃ t, exec i s = .next t ∧ t.status = s.status else Raises c i s := by
  rw [need_of_le hk] at hexec
  split
  · rename_i hin
    cases place with
    | none => exact absurd hin (hplace.1 rfl)
    | some a => exact ⟨after a, hexec, hstatus a⟩
  · rename_i hout
    rwa [hplace.2 hout] at hexec

/-- Settles O25: the bound of each load, in the words of its address check. -/
theorem loadBounds : Obligations.LoadBounds := by
  intro s hd
  constructor
  · refine completes_or_raises hd (exec_lb s) ?_ fun _ => rfl
    rw [accessAt_eq_none, State.byteLoadLimit]
    omega
  · refine completes_or_raises hd (exec_lw s) ?_ fun _ => rfl
    rw [accessAt_eq_none, State.wordLoadLimit]
    omega

/-- Settles O31: the index check of both instructions is the one of R61. -/
theorem stackAccessBounds : Obligations.StackAccessBounds := by
  refine fun s => ⟨fun hd => ?_, fun v w hd hpair => ?_⟩
  · exact completes_or_raises hd (exec_lws s) stackIndex_eq_none fun _ => rfl
  · have haddr := hpair.store.2
    refine completes_or_raises hd (exec_sws s) ?_ fun _ => rfl
    rw [haddr, stackIndex_eq_none]

/-! ## Accesses inside the declared segment -/

@[simp] theorem State.top_setTop (s : State) (v : Word) : (s.setTop 0 v).top 0 = v := by
  simp [State.top]

theorem exec_lw_of_inside {s : State} {a : Nat} (hd : 1 ≤ s.depth) (haddr : (s.top 0).toInt = a)
    (ha : a + 1 < s.dsSize.toNat) : exec .lw s = .next (s.setTop 0 (s.memRead2 a)) := by
  rw [exec_lw, need_of_le hd, accessAt_eq_some.2 ⟨haddr, ha⟩, Option.elim_some]

/-- `LB` where it zero-extends. -/
theorem exec_lb_of_inside {s : State} {a : Nat} (hd : 1 ≤ s.depth) (haddr : (s.top 0).toInt = a)
    (ha : a < s.dsSize.toNat) (hzero : s.params.lbSignExtend = false) :
    exec .lb s = .next (s.setTop 0 (zext8 (s.dataByte a))) := by
  have hlimit : a + 1 ≤ s.byteLoadLimit := by rw [State.byteLoadLimit]; omega
  rw [exec_lb, need_of_le hd, accessAt_eq_some.2 ⟨haddr, hlimit⟩, Option.elim_some, hzero,
    if_neg Bool.false_ne_true]

/-- The stores reach the declared segment at least (20_memory.md R59, R60). -/
theorem State.dsSize_le_storeLimit (s : State) : s.dsSize.toNat ≤ s.storeLimit := by
  rw [State.storeLimit_eq]
  omega

theorem exec_sb_of_inside {s : State} {x w : Word} {a : Nat} (hd : 2 ≤ s.depth)
    (hpair : OperandPair s.params.storeValueOnTop x w s) (haddr : w.toInt = a)
    (ha : a < s.dsSize.toNat) : exec .sb s = .next ((s.memWrite1 a x).drop 2) := by
  obtain ⟨rfl, rfl⟩ := hpair.store
  rw [exec_sb, need_of_le hd, accessAt_eq_some.2 ⟨haddr, ha.trans_le s.dsSize_le_storeLimit⟩,
    Option.elim_some]

theorem exec_sw_of_inside {s : State} {x w : Word} {a : Nat} (hd : 2 ≤ s.depth)
    (hpair : OperandPair s.params.storeValueOnTop x w s) (haddr : w.toInt = a)
    (ha : a + 1 < s.dsSize.toNat) : exec .sw s = .next ((s.memWrite2 a x).drop 2) := by
  obtain ⟨rfl, rfl⟩ := hpair.store
  rw [exec_sw, need_of_le hd, accessAt_eq_some.2 ⟨haddr, Nat.le_trans ha s.dsSize_le_storeLimit⟩,
    Option.elim_some]

/-! ## The bytes of a word -/

/-- `MemRead(a, 2)` as a number (R53). -/
theorem State.toNat_memRead2 (s : State) (a : Nat) : (s.memRead2 a).toNat =
    if s.big then 256 * (s.dataByte a).toNat + (s.dataByte (a + 1)).toNat
    else 256 * (s.dataByte (a + 1)).toNat + (s.dataByte a).toNat := by
  have toNat_append (b c : Byte) : (b ++ c).toNat = 256 * b.toNat + c.toNat := by
    rw [BitVec.toNat_append, ← Nat.shiftLeft_add_eq_or_of_lt c.isLt, Nat.shiftLeft_eq, Nat.mul_comm]
  unfold State.memRead2
  split <;> exact toNat_append _ _

theorem State.toNat_firstByte_memWrite2 (s : State) (a : Nat) (x : Word) :
    ((s.memWrite2 a x).dataByte a).toNat = if s.big then x.toNat / 256 else x.toNat % 256 := by
  rw [State.dataByte_memWrite2, if_pos rfl, apply_ite BitVec.toNat, toNat_highByte, toNat_lowByte]

theorem State.toNat_secondByte_memWrite2 (s : State) (a : Nat) (x : Word) :
    ((s.memWrite2 a x).dataByte (a + 1)).toNat =
      if s.big then x.toNat % 256 else x.toNat / 256 := by
  rw [State.dataByte_memWrite2, if_neg (Nat.succ_ne_self a), if_pos rfl, apply_ite BitVec.toNat,
    toNat_highByte, toNat_lowByte]

/-- A word read where it was written is the word (R53, R56). -/
theorem State.memRead2_memWrite2 (s : State) (a : Nat) (x : Word) :
    (s.memWrite2 a x).memRead2 a = x := by
  apply BitVec.eq_of_toNat_eq
  rw [State.toNat_memRead2, State.toNat_firstByte_memWrite2, State.toNat_secondByte_memWrite2,
    State.memWrite2_big]
  split <;> omega

theorem State.memRead2_congr {s t : State} (hdata : t.data = s.data) (hbig : t.big = s.big)
    (a : Nat) : t.memRead2 a = s.memRead2 a := by
  simp only [State.memRead2, hbig, State.dataByte_congr hdata]

theorem toNat_zext8 (b : Byte) : (zext8 b).toNat = b.toNat :=
  BitVec.toNat_setWidth_of_le (by decide)

/-- Two bytes written one after the other, the lower address first or last, are both there. -/
theorem dataByte_of_two_stores {s t p q u : State} {x y : Word} {a : Nat}
    (ht : t = (s.memWrite1 a x).drop 2) (hq : q = (p.memWrite1 (a + 1) y).drop 2)
    (horder : p.data = t.data ∧ u.data = q.data ∨ s.data = q.data ∧ u.data = t.data) :
    u.dataByte a = lowByte x ∧ u.dataByte (a + 1) = lowByte y := by
  have ht_byte (b : Nat) : t.dataByte b = if b = a then lowByte x else s.dataByte b := by
    rw [ht]; exact State.dataByte_memWrite1 s a b x
  have hq_byte (b : Nat) : q.dataByte b = if b = a + 1 then lowByte y else p.dataByte b := by
    rw [hq]; exact State.dataByte_memWrite1 p (a + 1) b y
  obtain ⟨hp, hu⟩ | ⟨hs, hu⟩ := horder
  · simp [State.dataByte_congr hu, State.dataByte_congr hp, hq_byte, ht_byte]
  · simp [State.dataByte_congr hu, State.dataByte_congr hs, hq_byte, ht_byte]

/-- Settles O30, for `SW` and for two `SB`: what the stores leave in the two bytes is what the loads
make their word of. -/
theorem storedWordReadsBack : Obligations.StoredWordReadsBack := by
  constructor
  · intro s t u x w a hs hpair haddr ha ht hu hdata hbig hsize _
    obtain rfl := Host.Outcome.next.inj ((exec_sw_of_inside hs hpair haddr ha).symm.trans ht)
    have hdata : u.data = (s.memWrite2 a x).data := hdata
    have hbig : u.big = (s.memWrite2 a x).big := hbig
    have hsize : u.dsSize = s.dsSize := hsize.trans (State.memWrite2_dsSize s a x)
    rw [← hsize] at ha
    refine ⟨fun htop => ?_, fun hzero => ⟨fun htop => ?_, fun htop => ?_⟩⟩
    · refine ⟨_, exec_lw_of_inside hu htop ha, ?_⟩
      rw [State.top_setTop, State.memRead2_congr hdata hbig, State.memRead2_memWrite2]
    · refine ⟨_, exec_lb_of_inside hu htop (by omega) hzero, ?_⟩
      rw [State.top_setTop, toNat_zext8, State.dataByte_congr hdata,
        State.toNat_firstByte_memWrite2]
    · refine ⟨_, exec_lb_of_inside (a := a + 1) hu htop ha hzero, ?_⟩
      rw [State.top_setTop, toNat_zext8, State.dataByte_congr hdata,
        State.toNat_secondByte_memWrite2]
  · intro s t p q u x w y z a hs hspair hw ht hp hppair hz hq horder ha hpsize husize hu htop
    have hsb := exec_sb_of_inside hs hspair hw (by omega)
    have hsb' := exec_sb_of_inside (a := a + 1) hp hppair hz (hpsize ▸ ha)
    have ht := Host.Outcome.next.inj (ht.symm.trans hsb)
    have hq := Host.Outcome.next.inj (hq.symm.trans hsb')
    obtain ⟨hfirst, hsecond⟩ := dataByte_of_two_stores ht hq horder
    refine ⟨_, exec_lw_of_inside hu htop (husize ▸ ha), ?_⟩
    rw [State.top_setTop, State.toNat_memRead2, hfirst, hsecond, toNat_lowByte, toNat_lowByte]

/-! ## The data space is not read

An instruction other than the loads, the stores and `SYSCALL` decides nothing by the data space: run
over another one, it answers as before, with that one in its answer. Every condition and every operand
it reads is the same by computation; the lemmas go through the conditionals. -/

/-- The state with another data space. -/
def State.setData (m : Memory) (s : State) : State := { s with data := m }

/-- The result with another data space in its next state. -/
def replaceData (m : Memory) : Result → Result
  | .next t => .next (t.setData m)
  | .fault r => .fault r
  | .refused r => .refused r

section

variable {m : Memory} {s : State} {r r' : Result}

/-! ### The shared operations -/

theorem next_setData {t t' : State} (h : t' = t.setData m) :
    .next t' = replaceData m (.next t) := congrArg Host.Outcome.next h

theorem ite_replaceData {c : Prop} [Decidable c] {q q' : Result} (hr : r' = replaceData m r)
    (hq : q' = replaceData m q) :
    (if c then r' else q') = replaceData m (if c then r else q) := by
  split <;> assumption

theorem need_setData {k : Nat} (h : r' = replaceData m r) :
    need k (s.setData m) r' = replaceData m (need k s r) :=
  ite_replaceData rfl h

theorem push_setData (v : Word) : push v (s.setData m) = replaceData m (push v s) :=
  ite_replaceData rfl rfl

theorem binary_setData (f : Word → Word → Word) :
    binary f (s.setData m) = replaceData m (binary f s) :=
  need_setData rfl

theorem shiftBy_setData (f : Word → Word → Word) :
    shiftBy f (s.setData m) = replaceData m (shiftBy f s) :=
  need_setData (ite_replaceData rfl rfl)

theorem popInto_setData (q : Reg) :
    popInto q (s.setData m) = replaceData m (popInto q s) :=
  need_setData (by cases q <;> rfl)

theorem pushFrom_setData (q : Reg) :
    pushFrom q (s.setData m) = replaceData m (pushFrom q s) := by
  have hread : (s.setData m).readReg q = s.readReg q := by cases q <;> rfl
  rw [pushFrom, hread]
  exact push_setData _

theorem access_setData {c : Cause} {place : Option Nat} {go go' : Nat → Result}
    (h : ∀ a, go' a = replaceData m (go a)) :
    place.elim (raise c (s.setData m)) go' = replaceData m (place.elim (raise c s) go) := by
  cases place with
  | none => rfl
  | some a => exact h a

theorem State.zeroSlots_setData (i k : Nat) :
    (s.setData m).zeroSlots i k = (s.zeroSlots i k).setData m := by
  induction k generalizing s i with
  | zero => rfl
  | succ k ih => exact ih (s := s.setSlot i 0) (i + 1)

/-! ### The instructions with an update of their own -/

theorem exec_lws_setData : exec .lws (s.setData m) = replaceData m (exec .lws s) := by
  rw [exec_lws, exec_lws]
  exact need_setData (access_setData fun _ => rfl)

theorem exec_sws_setData : exec .sws (s.setData m) = replaceData m (exec .sws s) := by
  rw [exec_sws, exec_sws]
  exact need_setData (access_setData fun _ => rfl)

theorem exec_salloc_setData : exec .salloc (s.setData m) = replaceData m (exec .salloc s) :=
  need_setData (ite_replaceData rfl (ite_replaceData rfl
    (next_setData (congrArg (State.setDepth · _) (State.zeroSlots_setData _ _)))))

end

/-- The instructions that do not read or write the data space answer alike whatever it holds. -/
theorem exec_setData {i : Instr} (hi : i ∉ [.lb, .lw, .sb, .sw, .syscall]) (m : Memory)
    (s : State) : exec i (s.setData m) = replaceData m (exec i s) := by
  cases i with
  | lb | lw | sb | sw | syscall => simp at hi
  | li imm => exact push_setData imm
  | lws => exact exec_lws_setData
  | sws => exact exec_sws_setData
  | pop | rot | not => exact need_setData rfl
  | dup => exact need_setData (push_setData _)
  | rot3 | jmp | call => exact need_setData (ite_replaceData rfl rfl)
  | add | sub | mul | and | or | xor | nor | equ | loe | goe | lt | gt =>
    exact binary_setData _
  | div => exact need_setData (ite_replaceData rfl (binary_setData _))
  | shl | shr => exact shiftBy_setData _
  | salloc => exact exec_salloc_setData
  | jz => exact need_setData (ite_replaceData (ite_replaceData rfl rfl) rfl)
  | mova | movb | movc | movd | movf => exact popInto_setData _
  | move => exact need_setData (ite_replaceData rfl (ite_replaceData rfl rfl))
  | amov | bmov | cmov | dmov | emov | fmov => exact pushFrom_setData _
  | nop | unassigned => rfl

/-- Settles O21: replacing the data space before the instruction is replacing it after. -/
theorem dataReadOnlyByItsInstructions : Obligations.DataReadOnlyByItsInstructions := by
  intro i s t m hi h
  have hexec := exec_setData hi m s
  rwa [h] at hexec

end Sys2Proof.Machine

namespace Sys2Proof

/-! ## Nibbles packed into code bytes -/

/-- The nibble of a byte at an even or an odd index is what `pairByte` laid there (R81, R87). -/
theorem selectNibble_pairByte (c : Parameters) (big : Bool) (p : Nat) (even odd : Nibble) :
    selectNibble c big p (pairByte c big even odd) = if p % 2 = 0 then even else odd := by
  have hlow (x y : Nibble) : (x ++ y).extractLsb' 0 4 = y :=
    BitVec.extractLsb'_append_eq_right
  have hhigh (x y : Nibble) : (x ++ y).extractLsb' 4 4 = x :=
    BitVec.extractLsb'_append_eq_left
  unfold selectNibble pairByte
  cases lowHalfFirst c big with
  | true => by_cases hp : p % 2 = 0 <;> simp [hp, hlow, hhigh]
  | false => by_cases hp : p % 2 = 0 <;> simp [hp, hlow, hhigh]

/-- Packed nibbles are read back in stream order, whatever bytes follow them (R80, R87). -/
theorem nibblesOfBytes_packNibbles (c : Parameters) (big : Bool) (ns : List Nibble)
    (rest : List Byte) : ns <+: nibblesOfBytes c big (packNibbles c big ns ++ rest) := by
  induction ns using packNibbles.induct with
  | case1 => exact ⟨_, List.nil_append _⟩
  | case2 a => simp [packNibbles, nibblesOfBytes, selectNibble_pairByte]
  | case3 a b ns ih => simpa [packNibbles, nibblesOfBytes, selectNibble_pairByte] using ih

/-- Settles O2: the packed nibbles are read back, and decoding an encoding does not depend on the
nibbles after it. -/
theorem decodeOfEncodedBytes : Obligations.DecodeOfEncodedBytes := by
  intro c big i rest hc hi
  obtain ⟨tail, hns⟩ := nibblesOfBytes_packNibbles c big (encode c big i) rest
  rw [decodeBytes, encodeBytes, ← hns]
  exact decodeOfEncode c big i tail hc hi

/-! ## The two-nibble form of an opcode -/

theorem length_encOpLong (v : Opcode) :
    (encOpLong v).length = (encOp v).length + if v.toNat < 8 then 1 else 0 := by
  unfold encOp
  split <;> rfl

/-- Settles O3: the two-nibble form assembles to the same opcode, and the operand nibbles are the
same. -/
theorem longFormDecodesAlike : Obligations.LongFormDecodesAlike := by
  intro c big i rest hc hi
  have hns := assembleOp_encOpLong (opcodeOf c i) (operandNibbles c big i ++ rest)
  have hlen := length_encOpLong (opcodeOf c i)
  constructor
  · rw [encodeLong, List.append_assoc, List.length_append]
    exact decode_of_assembleOp hc hi hns
  · rw [encodeLong, encode, List.length_append, List.length_append, hlen]
    omega

/-! ## What the decoder answers for every nibble string -/

/-- An opcode takes at most two nibbles. -/
theorem exists_assembleOp {ns : List Nibble} (h : 2 ≤ ns.length) :
    ∃ r, assembleOp ns = some r := by
  obtain _ | ⟨n0, _ | ⟨n1, rest⟩⟩ := ns
  · simp at h
  · simp at h
  · cases hbit : n0.getLsbD 3 with
    | true => exact ⟨_, assembleOp_long hbit n1 rest⟩
    | false => exact ⟨_, assembleOp_short hbit (n1 :: rest)⟩

/-- A first nibble with bit 3 set is no opcode alone. -/
theorem assembleOp_long_alone {n0 : Nibble} (h : n0.getLsbD 3 = true) :
    assembleOp [n0] = none := by
  simp only [assembleOp, h, if_true]

/-- A stream that ends inside the opcode is exhausted. -/
theorem decode_of_assembleOp_eq_none {ns : List Nibble} (h : assembleOp ns = none)
    (c : Parameters) (big : Bool) : decode c big ns = .exhausted := by
  simp only [decode, h]

/-- An opcode other than `LI`'s is the whole instruction (R84). -/
theorem decode_of_ne_li {c : Parameters} {ns rest : List Nibble} {op : Opcode} {n : Nat}
    (h : assembleOp ns = some (op, n, rest)) (hop : op ≠ opcodeOf c (.li 0)) (big : Bool) :
    decode c big ns = .instr (plainOfOpcode c op) n := by
  simp only [decode, h, hop, if_false]

/-- The opcode of `LI` is followed by four immediate nibbles (R84). -/
theorem decode_li {c : Parameters} {ns rest : List Nibble} {n : Nat} {i0 i1 i2 i3 : Nibble}
    (h : assembleOp ns = some (opcodeOf c (.li 0), n, i0 :: i1 :: i2 :: i3 :: rest))
    (big : Bool) : decode c big ns = .instr (.li (immOfNibbles c big i0 i1 i2 i3)) (n + 4) := by
  simp only [decode, h, if_true]

/-- A stream that ends inside the immediate of `LI` is exhausted (R110, R140). -/
theorem decode_li_of_short {c : Parameters} {ns rest : List Nibble} {n : Nat}
    (h : assembleOp ns = some (opcodeOf c (.li 0), n, rest)) (hrest : rest.length < 4)
    (big : Bool) : decode c big ns = .exhausted := by
  obtain _ | ⟨i0, _ | ⟨i1, _ | ⟨i2, _ | ⟨i3, rest⟩⟩⟩⟩ := rest
  case cons.cons.cons.cons => simp only [List.length_cons] at hrest; omega
  all_goals simp only [decode, h, if_true]

/-- Six nibbles hold a whole instruction, whatever they are (R94). -/
theorem exists_decode {ns : List Nibble} (h : 6 ≤ ns.length) (c : Parameters) (big : Bool) :
    ∃ i n, decode c big ns = .instr i n := by
  obtain ⟨⟨op, n, rest⟩, hns⟩ := exists_assembleOp (ns := ns) (by omega)
  obtain ⟨-, hn, hlen⟩ := Machine.assembleOp_cases hns
  by_cases hop : op = opcodeOf c (.li 0)
  · subst hop
    obtain _ | ⟨i0, _ | ⟨i1, _ | ⟨i2, _ | ⟨i3, rest⟩⟩⟩⟩ := rest
    case cons.cons.cons.cons => exact ⟨_, _, decode_li hns big⟩
    all_goals simp only [List.length_cons, List.length_nil] at hlen; omega
  · exact ⟨_, _, decode_of_ne_li hns hop big⟩

theorem wf_of_mem_plainInstrs {i : Instr} (h : i ∈ plainInstrs) (c : Parameters) :
    i.wf c = true := by
  cases i with
  | unassigned op => simp [plainInstrs] at h
  | _ => rfl

/-- The instruction an opcode selects is well-formed: a mnemonic, or an opcode no mnemonic has
(R93). -/
theorem wf_plainOfOpcode {c : Parameters} {op : Opcode} (h : op ≠ opcodeOf c (.li 0)) :
    (plainOfOpcode c op).wf c = true := by
  unfold plainOfOpcode
  cases hfind : plainInstrs.find? (fun i => opcodeOf c i == op) with
  | some i => exact wf_of_mem_plainInstrs (List.mem_of_find?_eq_some hfind) c
  | none =>
    have hplain : plainInstrs.any (fun i => opcodeOf c i == op) = false := by
      simpa using hfind
    simpa [Instr.wf, assigned, hplain] using h.symm

/-- Settles O4: six nibbles decode, and `LI` and whatever an opcode selects are well-formed. -/
theorem everyNibbleStringDecodes : Obligations.EveryNibbleStringDecodes := by
  intro c big ns hlen
  obtain ⟨i, n, hd⟩ := exists_decode hlen c big
  obtain ⟨hn, hn', -, ⟨imm, rfl⟩ | ⟨op, rfl, hop⟩⟩ := Machine.decode_cases hd
  · exact ⟨_, n, hd, rfl, hn, hn'⟩
  · exact ⟨_, n, hd, wf_plainOfOpcode hop, hn, hn'⟩

/-! ## The numbers the opcode nibbles stand for -/

/-- The opcode of a two-nibble form as a number (R82, R83). -/
theorem toNat_longOpcode (n0 n1 : Nibble) :
    ((n0.setWidth 7 &&& (7 : Opcode)) ||| (n1.setWidth 7 <<< 3)).toNat =
      n0.toNat % 8 + 8 * n1.toNat := by
  have hlow : (n0.setWidth 7 &&& (7 : Opcode)).toNat = n0.toNat % 8 := by
    rw [BitVec.toNat_and, BitVec.toNat_setWidth, show (7 : Opcode).toNat = 2 ^ 3 - 1 from rfl,
      Nat.and_two_pow_sub_one_eq_mod]
    omega
  have hhigh : (n1.setWidth 7 <<< 3).toNat = n1.toNat <<< 3 := by
    rw [BitVec.toNat_shiftLeft, BitVec.toNat_setWidth, Nat.shiftLeft_eq, Nat.shiftLeft_eq]
    omega
  rw [BitVec.toNat_or, hlow, hhigh, Nat.or_comm,
    ← Nat.shiftLeft_add_eq_or_of_lt (by omega), Nat.shiftLeft_eq]
  omega

/-- The opcode of a one-nibble form as a number (R82, R83). -/
theorem toNat_shortOpcode (n0 : Nibble) : (n0.setWidth 7 : Opcode).toNat = n0.toNat :=
  BitVec.toNat_setWidth_of_le (by decide)

/-- Settles O5: the two forms of the opcode, read as numbers. -/
theorem opcodeNibblesAssemble : Obligations.OpcodeNibblesAssemble := by
  intro n0 n1 rest
  constructor
  · intro hbit
    exact ⟨_, assembleOp_long hbit n1 rest, toNat_longOpcode n0 n1⟩
  · intro hbit
    exact ⟨_, assembleOp_short hbit (n1 :: rest), toNat_shortOpcode n0⟩

/-- Settles O6: the sixteen byte strings are evaluated. -/
theorem specBytesDecode : Obligations.SpecBytesDecode := by
  unfold Obligations.SpecBytesDecode
  decide

end Sys2Proof

namespace Sys2Proof.Machine

/-! ## The fetch unit -/

/-- The half of the byte that R81 selects, as a number. -/
theorem toNat_selectNibble (c : Parameters) (big : Bool) (p : Nat) (b : Byte) :
    (selectNibble c big p b).toNat =
      if (decide (p % 2 = 1) != big) = c.nibbleLowFirstInLittle then b.toNat / 16
      else b.toNat % 16 := by
  have hlow : (b.extractLsb' 0 4).toNat = b.toNat % 16 := by
    simp [BitVec.extractLsb'_toNat]
  have hhigh : (b.extractLsb' 4 4).toNat = b.toNat / 16 := by
    simp [BitVec.extractLsb'_toNat, Nat.shiftRight_eq_div_pow]; omega
  have hhalf : ((p % 2 == 0) == lowHalfFirst c big) = true ↔
      ¬ (decide (p % 2 = 1) != big) = c.nibbleLowFirstInLittle := by
    unfold lowHalfFirst
    obtain hp | hp := Nat.mod_two_eq_zero_or_one p <;> cases big <;> simp [hp]
  rw [selectNibble]
  split
  · rw [hlow, if_neg (hhalf.1 ‹_›)]
  · rw [hhigh, if_pos (not_not.1 (mt hhalf.2 ‹_›))]

/-- A nibble is fetched exactly when its byte is in the code segment (R110). -/
theorem State.fetchNibble_eq_some {s : State} {p : Nat} {n : Nibble} :
    s.fetchNibble p = some n ↔
      p / 2 < s.csSize.toNat ∧ selectNibble s.params s.big p (s.codeByte (p / 2)) = n := by
  unfold State.fetchNibble
  split <;> simp [*]

theorem State.fetchNibble_eq_none {s : State} {p : Nat} :
    s.fetchNibble p = none ↔ s.csSize.toNat ≤ p / 2 := by
  unfold State.fetchNibble
  split <;> simp <;> omega

/-- Each place of a fetch of several nibbles holds what a fetch of that nibble alone gives: the code
segment has no gaps. -/
theorem State.getElem?_fetchFrom (s : State) (p : Nat) {n j : Nat} (h : j < n) :
    (s.fetchFrom p n)[j]? = s.fetchNibble (p + j) := by
  induction n generalizing p j with
  | zero => omega
  | succ n ih =>
    cases hp : s.fetchNibble p with
    | none =>
      have hend : s.fetchNibble (p + j) = none := by
        rw [fetchNibble_eq_none] at hp ⊢; omega
      simp only [State.fetchFrom, hp, hend, List.getElem?_nil]
    | some n0 =>
      simp only [State.fetchFrom, hp]
      cases j with
      | zero => exact hp.symm
      | succ j =>
        rw [List.getElem?_cons_succ, ih (p + 1) (by omega), Nat.add_right_comm, Nat.add_assoc]

/-- Settles O7: a place of the window is a fetch of its own, and the half it selects is a number. -/
theorem fetchSelectsNibbles : Obligations.FetchSelectsNibbles := by
  intro s j n hj
  have hplace : s.codeWindow[j]? = s.fetchNibble (s.pc + j) :=
    s.getElem?_fetchFrom s.pc (n := Config.maxNibbles) hj
  rw [hplace, State.fetchNibble_eq_some, ← toNat_selectNibble, BitVec.toNat_inj, eq_comm (a := n)]

/-! ## The faults before `Execute` -/

theorem step_of_budget {s : State} (hs : s.status = .running) (hb : Config.budget ≤ s.icount) :
    step s = .next { s with status := .fault .budgetExceeded } := by
  simp only [step, hs, hb, if_true, raise]

theorem step_of_exhausted {s : State} (hs : s.status = .running) (hb : s.icount < Config.budget)
    (hd : decode s.params s.big s.codeWindow = .exhausted) :
    step s = .next { s with status := .fault .codeExhausted } := by
  simp only [step, hs, Nat.not_le.2 hb, if_false, hd, raise]

theorem State.fetchFrom_succ {s : State} {p : Nat} {n0 : Nibble} (h : s.fetchNibble p = some n0)
    (n : Nat) : s.fetchFrom p (n + 1) = n0 :: s.fetchFrom (p + 1) n := by
  simp only [State.fetchFrom, h]

/-- No more nibbles are fetched than there are before the end of the code. -/
theorem State.length_fetchFrom_le_of_end {s : State} {p k : Nat}
    (h : s.csSize.toNat ≤ (p + k) / 2) (n : Nat) : (s.fetchFrom p n).length ≤ k :=
  Nat.le_of_not_lt fun hk => absurd (s.fetchFrom_inside p n k hk) (by omega)

theorem State.fetchFrom_of_end {s : State} {p : Nat} (h : s.csSize.toNat ≤ p / 2) (n : Nat) :
    s.fetchFrom p n = [] :=
  List.eq_nil_of_length_eq_zero (Nat.le_zero.1 (length_fetchFrom_le_of_end (k := 0) h n))

/-- Settles O10: in each case after the first the window ends inside the instruction, so decoding
is exhausted. -/
theorem budgetThenCodeEnd : Obligations.BudgetThenCodeEnd := by
  intro s hs
  refine ⟨step_of_budget hs, fun hb hend => step_of_exhausted hs hb ?_,
    fun n0 hb h0 hbit hend => step_of_exhausted hs hb ?_,
    fun n0 hb h0 hbit hop hend => step_of_exhausted hs hb ?_,
    fun n0 n1 hb h0 h1 hbit hop hend => step_of_exhausted hs hb ?_⟩
  · rw [State.codeWindow, State.fetchFrom_of_end hend]
    exact decode_of_assembleOp_eq_none rfl _ _
  · rw [State.codeWindow, Config.maxNibbles, State.fetchFrom_succ h0, State.fetchFrom_of_end hend]
    exact decode_of_assembleOp_eq_none (assembleOp_long_alone hbit) _ _
  · rw [State.codeWindow, Config.maxNibbles, State.fetchFrom_succ h0]
    have hop : n0.setWidth 7 = opcodeOf s.params (.li 0) :=
      BitVec.eq_of_toNat_eq ((toNat_shortOpcode n0).trans hop)
    have hlen : (s.fetchFrom (s.pc + 1) 5).length ≤ 3 :=
      State.length_fetchFrom_le_of_end (by omega) 5
    exact decode_li_of_short (hop ▸ assembleOp_short hbit _) (by omega) _
  · rw [State.codeWindow, Config.maxNibbles, State.fetchFrom_succ h0, State.fetchFrom_succ h1]
    have hop := BitVec.eq_of_toNat_eq ((toNat_longOpcode n0 n1).trans hop)
    have hlen : (s.fetchFrom (s.pc + 1 + 1) 4).length ≤ 3 :=
      State.length_fetchFrom_le_of_end (by omega) 4
    exact decode_li_of_short (hop ▸ assembleOp_long hbit n1 _) (by omega) _

end Sys2Proof.Machine

namespace Sys2Proof.Machine

/-! ## The loop around `Execute` -/

/-- Settles O9: every instruction answers a state reached by the updates it may make. -/
theorem everyInstructionAnswersNext : Obligations.EveryInstructionAnswersNext := by
  intro i s
  obtain ⟨t, hexec, -⟩ := answers_exec i s
  exact ⟨t, hexec⟩

/-- A step whose nibbles decode runs the instruction and is finished (R112). -/
theorem step_of_exec {s t : State} {i : Instr} {len : Nat} (hs : s.status = .running)
    (hb : s.icount < Config.budget) (hd : decode s.params s.big s.codeWindow = .instr i len)
    (hexec : exec i (s.beginStep (s.pc + len - 1)) = .next t) :
    step s = .next (finishStep s t) := by
  simp only [step, hs, Nat.not_le.2 hb, if_false, hd, hexec]

/-- Settles O8: the ends of the step are those of `finishStep`, by the status `Execute` left. -/
theorem stepRunsTheDecodedInstruction : Obligations.StepRunsTheDecodedInstruction := by
  intro s i len hs hb hd
  obtain ⟨t, hexec⟩ := everyInstructionAnswersNext i (s.beginStep (s.pc + len - 1))
  have hstep := step_of_exec hs hb hd hexec
  refine ⟨t, hexec, fun hrun hjf => ?_, fun hrun hjf => ?_, fun hhalt => ?_, fun c hfault => ?_,
    fun hfail => ?_⟩
  · rw [hstep, finishStep_running_straight s t hrun hjf]
  · rw [hstep, finishStep_running_jumped s t hrun hjf]
  · rw [hstep, finishStep_halted s t hhalt]
  · rw [hstep, finishStep_fault s t c hfault]
  · rw [hstep, finishStep_hostFault s t hfail]

/-! ## Every run ends

The budget less the steps already counted falls with every step that leaves the run going, and the
step that finds it used up ends the run (R112, R113). -/

/-- A run that goes on takes a step: before the instruction it faults, or the instruction runs. -/
theorem exists_step {s : State} (hs : s.status = .running) : ∃ t, step s = .next t := by
  obtain hb | hb := Nat.lt_or_ge s.icount Config.budget
  · cases hd : decode s.params s.big s.codeWindow with
    | exhausted => exact ⟨_, step_of_exhausted hs hb hd⟩
    | instr i len =>
      obtain ⟨t, hexec⟩ := everyInstructionAnswersNext i (s.beginStep (s.pc + len - 1))
      exact ⟨_, step_of_exec hs hb hd hexec⟩
  · exact ⟨_, step_of_budget hs hb⟩

theorem endsAt_zero {s : State} (hs : s.status ≠ .running) : EndsAt 0 s s := ⟨rfl, hs⟩

/-- A run that ends after `k` steps ends one step later seen from the state before. -/
theorem EndsAt.of_step {s t u : State} {k : Nat} (hstep : step s = .next t) (h : EndsAt k t u) :
    EndsAt (k + 1) s u := by
  obtain ⟨hrun, hended⟩ := h
  have hcore : Sys2Proof.core.step s = .next t := hstep
  refine ⟨?_, hended⟩
  simp only [Host.Core.run, hcore]
  exact hrun

/-- A run on which `n` steps of the budget are left ends after at most `n + 1` steps. -/
theorem exists_endsAt {s : State} {n : Nat} (hs : s.status = .running)
    (hn : Config.budget - s.icount = n) : ∃ k t, k ≤ n + 1 ∧ EndsAt k s t := by
  induction n generalizing s with
  | zero =>
    have hstep := step_of_budget hs (by omega)
    exact ⟨1, _, Nat.le_refl 1, (endsAt_zero (by simp)).of_step hstep⟩
  | succ n ih =>
    obtain ⟨t, hstep⟩ := exists_step hs
    by_cases ht : t.status = .running
    · have hcount := (icount_of_step hstep).1 (.inl ht)
      obtain ⟨k, u, hk, hend⟩ := ih ht (by omega)
      exact ⟨k + 1, u, by omega, hend.of_step hstep⟩
    · exact ⟨1, t, by omega, (endsAt_zero ht).of_step hstep⟩

/-- Settles O14, by induction on the steps the budget leaves. -/
theorem everyRunEndsWithinTheBudget : Obligations.EveryRunEndsWithinTheBudget :=
  fun _ hs => exists_endsAt hs rfl

/-! ## Operand faults -/

/-- Every instruction begins with `Need` of the words it reads (R116); one that reads none begins
with a check that cannot fail. -/
theorem exec_eq_need (i : Instr) (s : State) : ∃ go, exec i s = need (wordsRead i) s go := by
  cases i with
  | li | amov | bmov | cmov | dmov | emov | fmov | nop | unassigned =>
    exact ⟨_, (need_of_le (Nat.zero_le _) _).symm⟩
  | _ => exact ⟨_, rfl⟩

/-- Settles O22: the check the instruction begins with fails. -/
theorem tooFewOperandsUnderflow : Obligations.TooFewOperandsUnderflow := by
  intro i s hd
  obtain ⟨go, hexec⟩ := exec_eq_need i s
  rw [Raises, hexec, need_of_lt hd, raise]

theorem room_of_lt {k : Nat} {s : State} (h : 8192 < s.depth + k) (go : Result) :
    room k s go = raise .stackOverflow s := by
  simp only [room, Config.stackSlots, h, if_true]

theorem room_of_le {k : Nat} {s : State} (h : s.depth + k ≤ 8192) (go : Result) :
    room k s go = go := by
  simp only [room, Config.stackSlots, Nat.not_lt.2 h, if_false]

/-- A pusher whose operands are there is a push of one word (R119, R140, R161, R220). -/
theorem exec_pusher {imm : Word} {i : Instr} {s : State} (hi : i ∈ pushers imm)
    (hd : wordsRead i ≤ s.depth) : ∃ v, exec i s = push v s := by
  cases i with
  | li | amov | bmov | cmov | dmov | emov | fmov => exact ⟨_, rfl⟩
  | dup => exact ⟨_, need_of_le hd _⟩
  | _ => simp [pushers] at hi

/-- Settles O23: each pusher is a push of one word, which the depth decides; and so is the check. -/
theorem pushOntoFullStackOverflows : Obligations.PushOntoFullStackOverflows := by
  refine ⟨fun imm i s hi hread => ?_, fun k s go => ⟨fun hfull => ?_, fun hroom => ?_⟩⟩
  · obtain ⟨v, hexec⟩ := exec_pusher hi hread
    rw [hexec]
    constructor
    · intro hfull
      exact ⟨_, push_of_le v hfull, rfl⟩
    · intro hroom
      exact ⟨_, push_of_lt v hroom, State.pushed_status s v⟩
  · exact ⟨_, room_of_lt hfull go, rfl⟩
  · exact room_of_le hroom go

end Sys2Proof.Machine

namespace Sys2Proof.Machine

/-! ## Immediate and memory

Each instruction's next state is said first, where its access has a place; what that state is, and
what it keeps, follows from the laws of the updates it is made of. -/

/-- An instruction that is no jump, no shift and no `SYSCALL` goes straight on (O20). -/
theorem plain_of_exec {i : Instr} {s t : State}
    (hi : i ∉ [.jmp, .jz, .call, .shl, .shr, .syscall]) (h : exec i s = .next t) : Plain s t := by
  simp only [List.mem_cons, List.not_mem_nil, or_false, not_or] at hi
  obtain ⟨hjmp, hjz, hcall, hshl, hshr, hsyscall⟩ := hi
  obtain ⟨-, hhost, hjump, hfree⟩ := effectsBelongToTheirInstructions i s t h
  exact ⟨hjump hjmp hjz hcall, hhost hsyscall, hfree hshl hshr⟩

/-- An update of `sp` alone widens a frame by `sp` alone. -/
theorem Frame.drop {regs : List Reg} {slots bytes : Nat → Prop} {s t : State}
    (h : Frame regs slots bytes s t) (k : Nat) :
    Frame (.sp :: regs) slots bytes s (t.drop k) :=
  (h.mono (fun _ => List.mem_cons_of_mem _) (fun _ hj => hj) (fun _ ha => ha)).trans
    ((frame_drop t k).mono (by simp) (fun _ => False.elim) (fun _ => False.elim))

/-- A write to a slot that a frame lets change stays in the frame. -/
theorem Frame.setSlot {regs : List Reg} {slots bytes : Nat → Prop} {s t : State}
    (h : Frame regs slots bytes s t) {i : Nat} (hi : slots i) (v : Word) :
    Frame regs slots bytes s (t.setSlot i v) :=
  h.trans ((frame_setSlot t i v).mono (by simp) (fun _ hj => hj ▸ hi) (fun _ => False.elim))

/-- Settles O24: `LI` is a push, and there is room for it. -/
theorem liPushesImmediate : Obligations.LiPushesImmediate := by
  intro imm s hd
  have hexec : exec (.li imm) s = .next (s.pushed imm) := push_of_lt imm hd
  exact ⟨_, hexec, pushed_pushed s imm (by omega), plain_of_exec (by simp) hexec⟩

/-! ### The loads -/

theorem exec_lb_of_place {s : State} {a : Nat} (hd : 1 ≤ s.depth)
    (ha : accessAt (s.top 0) 1 s.byteLoadLimit = some a) :
    exec .lb s = .next (s.setTop 0
      (if s.params.lbSignExtend then sext8 (s.dataByte a) else zext8 (s.dataByte a))) := by
  rw [exec_lb, need_of_le hd, ha, Option.elim_some]

theorem exec_lws_of_place {s : State} {i : Nat} (hd : 1 ≤ s.depth)
    (hi : stackIndex (s.top 0) = some i) : exec .lws s = .next (s.setTop 0 (s.slot i)) := by
  rw [exec_lws, need_of_le hd, hi, Option.elim_some]

/-- `sext_8` as a number: a byte with its sign bit set gets an upper byte of ones (R9). -/
theorem toNat_sext8 (b : Byte) :
    (sext8 b).toNat = b.toNat + if 128 ≤ b.toNat then 65280 else 0 := by
  rw [sext8, BitVec.toNat_signExtend, toNat_zext8, BitVec.msb_eq_decide]
  simp only [decide_eq_true_eq]

/-- The word `LB` makes of a byte, under either value of `LB_SIGN_EXTEND` (R142). -/
theorem toNat_extendedByte (signed : Bool) (b : Byte) :
    (if signed then sext8 b else zext8 b).toNat =
      b.toNat + if signed = true ∧ 128 ≤ b.toNat then 65280 else 0 := by
  cases signed with
  | false => simp only [Bool.false_eq_true, false_and, if_false, toNat_zext8, Nat.add_zero]
  | true => simp only [if_true, true_and, toNat_sext8]

/-- Settles O26: the place of the byte is the address itself. -/
theorem lbLoadsByte : Obligations.LbLoadsByte := by
  intro s a hd haddr ha
  have hexec := exec_lb_of_place hd (accessAt_eq_some.2 ⟨haddr, ha⟩)
  exact ⟨_, _, hexec, topReplaced_setTop s _, plain_of_exec (by decide) hexec,
    toNat_extendedByte _ _⟩

/-- Settles O27: the place of the word is the address itself. -/
theorem lwLoadsWord : Obligations.LwLoadsWord := by
  intro s a hd haddr ha
  have hexec := exec_lw_of_inside hd haddr ha
  exact ⟨_, _, hexec, topReplaced_setTop s _, plain_of_exec (by decide) hexec,
    s.toNat_memRead2 a⟩

/-- Settles O32: the index is the slot, and no bound depends on `sp`. -/
theorem lwsReadsSlot : Obligations.LwsReadsSlot := by
  intro s i hd hindex hi
  have hexec := exec_lws_of_place hd (stackIndex_eq_some.2 ⟨hindex, hi⟩)
  exact ⟨_, hexec, topReplaced_setTop s _, plain_of_exec (by decide) hexec⟩

/-! ### The stores -/

theorem exec_sb_of_place {s : State} {v w : Word} {a : Nat} (hd : 2 ≤ s.depth)
    (hpair : OperandPair s.params.storeValueOnTop v w s)
    (ha : accessAt w 1 s.storeLimit = some a) :
    exec .sb s = .next ((s.memWrite1 a v).drop 2) := by
  obtain ⟨rfl, rfl⟩ := hpair.store
  rw [exec_sb, need_of_le hd, ha, Option.elim_some]

theorem exec_sw_of_place {s : State} {v w : Word} {a : Nat} (hd : 2 ≤ s.depth)
    (hpair : OperandPair s.params.storeValueOnTop v w s)
    (ha : accessAt w 2 s.storeLimit = some a) :
    exec .sw s = .next ((s.memWrite2 a v).drop 2) := by
  obtain ⟨rfl, rfl⟩ := hpair.store
  rw [exec_sw, need_of_le hd, ha, Option.elim_some]

theorem exec_sws_of_place {s : State} {v w : Word} {i : Nat} (hd : 2 ≤ s.depth)
    (hpair : OperandPair s.params.storeValueOnTop v w s) (hi : stackIndex w = some i) :
    exec .sws s = .next ((s.drop 2).setSlot i v) := by
  obtain ⟨rfl, rfl⟩ := hpair.store
  rw [exec_sws, need_of_le hd, hi, Option.elim_some]

/-- An access faults where its address names no place. -/
theorem raises_of_no_place {i : Instr} {s : State} {k : Nat} {c : Cause} {place : Option Nat}
    {go : Nat → Result} (hk : k ≤ s.depth) (hplace : place = none)
    (hexec : exec i s = need k s (place.elim (raise c s) go)) : Raises c i s := by
  rw [need_of_le hk, hplace, Option.elim_none] at hexec
  exact hexec

theorem exists_accessAt {w : Word} {n limit : Nat} (hlow : 0 ≤ w.toInt)
    (hhigh : w.toInt + n ≤ limit) : ∃ a, accessAt w n limit = some a :=
  ⟨w.toInt.toNat, accessAt_eq_some.2 (by omega)⟩

/-- Settles O28: one byte is written where the address check finds its place, then both operands are
removed. -/
theorem sbStoresByte : Obligations.SbStoresByte := by
  intro s v w limit hd hpair hlimit
  obtain rfl : limit = s.storeLimit := hlimit.trans s.storeLimit_eq.symm
  refine ⟨fun a ha => ?_, fun hlow hhigh => exists_accessAt hlow (by omega), fun hout => ?_⟩
  · have hexec := exec_sb_of_place hd hpair ha
    refine ⟨_, hexec, State.depth_drop _ 2, plain_of_exec (by decide) hexec,
      (frame_memWrite1 s a v).drop 2, (accessAt_eq_some.1 ha).1, ?_⟩
    have hbyte : ((s.memWrite1 a v).drop 2).dataByte a = lowByte v := by
      rw [State.dataByte_congr (State.drop_data _ 2), State.dataByte_memWrite1, if_pos rfl]
    rw [hbyte, toNat_lowByte]
  · refine raises_of_no_place hd ?_ (exec_sb s)
    rw [hpair.store.2, accessAt_eq_none]
    omega

/-- Settles O29: two bytes are written where the address check finds their place, then both operands
are removed. -/
theorem swStoresWord : Obligations.SwStoresWord := by
  intro s v w limit hd hpair hlimit
  obtain rfl : limit = s.storeLimit := hlimit.trans s.storeLimit_eq.symm
  refine ⟨fun a ha => ?_, fun hlow hhigh => exists_accessAt hlow (by omega), fun hout => ?_⟩
  · have hexec := exec_sw_of_place hd hpair ha
    have hdepth : ((s.memWrite2 a v).drop 2).depth = s.depth - 2 := by
      rw [State.depth_drop, State.depth_congr (State.memWrite2_sp s a v)]
    have hfirst := s.toNat_firstByte_memWrite2 a v
    have hsecond := s.toNat_secondByte_memWrite2 a v
    refine ⟨_, hexec, hdepth, plain_of_exec (by decide) hexec, (frame_memWrite2 s a v).drop 2,
      (accessAt_eq_some.1 ha).1, fun hlittle => ?_, fun hbig => ?_⟩
    · rw [hlittle, if_neg Bool.false_ne_true] at hfirst hsecond
      exact ⟨hfirst, hsecond⟩
    · rw [hbig, if_pos rfl] at hfirst hsecond
      exact ⟨hfirst, hsecond⟩
  · refine raises_of_no_place hd ?_ (exec_sw s)
    rw [hpair.store.2, accessAt_eq_none]
    omega

/-- Settles O33: the operands are removed first, so the slot written holds the value even where it
was one of theirs. -/
theorem swsWritesSlot : Obligations.SwsWritesSlot := by
  intro s v w hd hpair i hi
  have hexec := exec_sws_of_place hd hpair hi
  have hframe : Frame [.sp] (· = i) nowhere s (s.drop 2) :=
    (Frame.refl [] (· = i) nowhere s).drop 2
  refine ⟨_, hexec, State.depth_drop s 2, ?_, (stackIndex_eq_some.1 hi).1, hframe.setSlot rfl v,
    plain_of_exec (by decide) hexec⟩
  rw [State.slot_setSlot, if_pos rfl]

end Sys2Proof.Machine

namespace Sys2Proof.Machine

/-! ## Stack operations

Each instruction's next state is said first, as the updates it is made of; what that state is, and
what it keeps, follows from the laws of those updates. -/

/-- Settles O34: `POP` is a drop of one word, and `DUP` a push of the top one. -/
theorem popAndDup : Obligations.PopAndDup := by
  refine fun s hd => ⟨?_, fun hroom => ?_⟩
  · have hexec : exec .pop s = .next (s.drop 1) := need_of_le hd _
    exact ⟨_, hexec, dropped_drop s 1, plain_of_exec (by decide) hexec⟩
  · have hexec : exec .dup s = .next (s.pushed (s.top 0)) :=
      (need_of_le hd _).trans (push_of_lt _ hroom)
    exact ⟨_, hexec, pushed_pushed s _ (by omega), plain_of_exec (by decide) hexec⟩

/-! ### The rotations -/

/-- The words below the top after a write to one of them. -/
theorem State.top_setTop_of_lt {s : State} {i j : Nat} (hi : i < s.depth) (hj : j < s.depth)
    (v : Word) : (s.setTop i v).top j = if j = i then v else s.top j := by
  rw [State.top, State.depth_setTop, State.slot_setTop, State.top]
  exact if_congr (by omega) rfl rfl

/-- A write below the top, to a slot that a frame lets change, stays in the frame. -/
theorem Frame.setTop {regs : List Reg} {slots bytes : Nat → Prop} {s t : State}
    (h : Frame regs slots bytes s t) {i : Nat} (hi : slots (t.depth - 1 - i)) (v : Word) :
    Frame regs slots bytes s (t.setTop i v) :=
  h.setSlot hi v

/-- The top two words replaced, the deeper one given first. -/
def State.setTop2 (s : State) (x y : Word) : State := (s.setTop 1 x).setTop 0 y

/-- The top three words replaced, the deepest given first. -/
def State.setTop3 (s : State) (x y z : Word) : State := (s.setTop 2 x).setTop2 y z

theorem State.top_setTop2 {s : State} {j : Nat} (hd : 2 ≤ s.depth) (hj : j < s.depth)
    (x y : Word) : (s.setTop2 x y).top j = if j = 0 then y else if j = 1 then x else s.top j := by
  have hd' : 0 < (s.setTop 1 x).depth := by rw [State.depth_setTop]; omega
  rw [State.setTop2, State.top_setTop_of_lt hd' hj, State.top_setTop_of_lt hd hj]

theorem State.top_setTop3 {s : State} {j : Nat} (hd : 3 ≤ s.depth) (hj : j < s.depth)
    (x y z : Word) : (s.setTop3 x y z).top j =
      if j = 0 then z else if j = 1 then y else if j = 2 then x else s.top j := by
  have hd' : 2 ≤ (s.setTop 2 x).depth := by rw [State.depth_setTop]; omega
  rw [State.setTop3, State.top_setTop2 hd' hj, State.top_setTop_of_lt hd hj]

theorem frame_setTop2 {s : State} (hd : 2 ≤ s.depth) (x y : Word) :
    Frame [] (fun j => j = s.depth - 1 ∨ j = s.depth - 2) nowhere s (s.setTop2 x y) :=
  ((Frame.refl _ _ _ s).setTop (by omega) x).setTop (by rw [State.depth_setTop]; omega) y

theorem frame_setTop3 {s : State} (hd : 3 ≤ s.depth) (x y z : Word) :
    Frame [] (fun j => s.depth - 3 ≤ j ∧ j < s.depth) nowhere s (s.setTop3 x y z) :=
  (((Frame.refl _ _ _ s).setTop (by omega) x).setTop (by rw [State.depth_setTop]; omega) y).setTop
    (by rw [State.depth_setTop, State.depth_setTop]; omega) z

/-- What `ROT3` does to the stack (R163). -/
structure Rotated (s t : State) : Prop where
  sp_same : t.sp = s.sp
  tops : if s.params.rot3ThirdToTop
    then t.top 0 = s.top 2 ∧ t.top 1 = s.top 0 ∧ t.top 2 = s.top 1
    else t.top 2 = s.top 0 ∧ t.top 0 = s.top 1 ∧ t.top 1 = s.top 2
  frame : Frame [] (fun j => s.depth - 3 ≤ j ∧ j < s.depth) nowhere s t

theorem exec_rot3_of_le {s : State} (hd : 3 ≤ s.depth) : exec .rot3 s = .next
    (if s.params.rot3ThirdToTop then s.setTop3 (s.top 1) (s.top 0) (s.top 2)
      else s.setTop3 (s.top 0) (s.top 2) (s.top 1)) :=
  (need_of_le hd _).trans (apply_ite Host.Outcome.next _ _ _).symm

theorem exists_rotated {s : State} (hd : 3 ≤ s.depth) :
    ∃ t, exec .rot3 s = .next t ∧ Rotated s t := by
  refine ⟨_, exec_rot3_of_le hd, ?_, ?_, ?_⟩
  · split <;> rfl
  · have htop {j : Nat} (hj : j < 3) (x y z : Word) :=
      State.top_setTop3 (j := j) hd (by omega) x y z
    split <;> simp [htop]
  · split <;> exact frame_setTop3 hd _ _ _

theorem Rotated.depth_same {s t : State} (h : Rotated s t) : t.depth = s.depth :=
  State.depth_congr h.sp_same

/-- Three rotations put the top three words back, in either direction. -/
theorem Rotated.tops_of_three {s t u v : State} (hst : Rotated s t) (htu : Rotated t u)
    (huv : Rotated u v) : v.top 0 = s.top 0 ∧ v.top 1 = s.top 1 ∧ v.top 2 = s.top 2 := by
  have hs := hst.tops
  have ht := htu.tops
  have hu := huv.tops
  rw [htu.frame.params_same] at hu
  rw [hst.frame.params_same] at ht hu
  by_cases hdir : s.params.rot3ThirdToTop = true
  · rw [if_pos hdir] at hs ht hu
    simp only [hs, ht, hu, and_self]
  · rw [if_neg hdir] at hs ht hu
    simp only [hs, ht, hu, and_self]

/-- Three rotations stay in the frame of one. -/
theorem Rotated.frame_of_three {s t u v : State} (hst : Rotated s t) (htu : Rotated t u)
    (huv : Rotated u v) :
    Frame [] (fun j => s.depth - 3 ≤ j ∧ j < s.depth) nowhere s v := by
  have ht := htu.frame
  have hu := huv.frame
  rw [htu.depth_same] at hu
  rw [hst.depth_same] at ht hu
  exact (hst.frame.trans ht).trans hu

/-- A state of the same depth agrees on every slot when it agrees on the top three words and on the
slots beside theirs. -/
theorem slot_eq_of_tops {s v : State} (hdepth : v.depth = s.depth)
    (hframe : Frame [] (fun j => s.depth - 3 ≤ j ∧ j < s.depth) nowhere s v)
    (htops : v.top 0 = s.top 0 ∧ v.top 1 = s.top 1 ∧ v.top 2 = s.top 2) (j : Nat) :
    v.slot j = s.slot j := by
  obtain ⟨h0, h1, h2⟩ := htops
  simp only [State.top, hdepth] at h0 h1 h2
  by_cases hj : s.depth - 3 ≤ j ∧ j < s.depth
  · obtain rfl | rfl | rfl : j = s.depth - 1 - 0 ∨ j = s.depth - 1 - 1 ∨ j = s.depth - 1 - 2 := by
      omega
    · exact h0
    · exact h1
    · exact h2
  · exact hframe.slots_same j hj

theorem Rotated.slots_of_three {s t u v : State} (hst : Rotated s t) (htu : Rotated t u)
    (huv : Rotated u v) (j : Nat) : v.slot j = s.slot j :=
  slot_eq_of_tops (huv.depth_same.trans (htu.depth_same.trans hst.depth_same))
    (hst.frame_of_three htu huv) (hst.tops_of_three htu huv) j

/-- Settles O35: `ROT` replaces the top two words by each other; `ROT3` is a rotation, and three of
them put every word back. -/
theorem rotAndRot3 : Obligations.RotAndRot3 := by
  refine fun s => ⟨fun hd => ?_, fun hd => ?_⟩
  · have hexec : exec .rot s = .next (s.setTop2 (s.top 0) (s.top 1)) := need_of_le hd _
    exact ⟨_, hexec, rfl, State.top_setTop2 hd (by omega) _ _, State.top_setTop2 hd (by omega) _ _,
      plain_of_exec (by decide) hexec, frame_setTop2 hd _ _⟩
  · obtain ⟨t, ht, hst⟩ := exists_rotated hd
    obtain ⟨u, hu, htu⟩ := exists_rotated (hst.depth_same.symm ▸ hd)
    obtain ⟨v, hv, huv⟩ := exists_rotated ((htu.depth_same.trans hst.depth_same).symm ▸ hd)
    exact ⟨t, u, v, ht, hst.sp_same, plain_of_exec (by decide) ht, hst.tops, hst.frame, hu, hv,
      hst.slots_of_three htu huv⟩

/-! ### `SALLOC` -/

/-- Zero words written to slots that a frame lets change stay in the frame. -/
theorem Frame.zeroSlots {regs : List Reg} {slots bytes : Nat → Prop} {s t : State}
    (h : Frame regs slots bytes s t) {i k : Nat} (hslots : ∀ j, i ≤ j → j < i + k → slots j) :
    Frame regs slots bytes s (t.zeroSlots i k) := by
  induction k generalizing t i with
  | zero => exact h
  | succ k ih =>
    exact ih (h.setSlot (hslots i (by omega) (by omega)) 0) fun j hlow hhigh =>
      hslots j (by omega) (by omega)

/-- A new depth is in a frame that lets `sp` change. -/
theorem Frame.setDepth {regs : List Reg} {slots bytes : Nat → Prop} {s t : State}
    (h : Frame regs slots bytes s t) (hsp : .sp ∈ regs) (n : Nat) :
    Frame regs slots bytes s (t.setDepth n) :=
  h.trans ((frame_setDepth t n).mono (by simpa using hsp) (fun _ => False.elim)
    (fun _ => False.elim))

/-- `SALLOC` by its count, once its operand is there (R181). -/
theorem exec_salloc_of_le {s : State} (hd : 1 ≤ s.depth) : exec .salloc s =
    if (s.top 0).toInt < -1 then raise .stackUnderflow s
    else if 8192 < s.depth - 1 + ((s.top 0).toInt + 1).toNat then raise .stackOverflow s
    else .next ((s.zeroSlots (s.depth - 1) ((s.top 0).toInt + 1).toNat).setDepth
      (s.depth - 1 + ((s.top 0).toInt + 1).toNat)) :=
  need_of_le hd _

/-- Settles O36: the words written are one more than the count, from the count's own slot up. -/
theorem sallocReservesZeros : Obligations.SallocReservesZeros := by
  intro s n hd hn
  have hexec := exec_salloc_of_le hd
  rw [hn] at hexec
  refine ⟨fun hlow hfits => ?_, fun hneg => ?_, fun hlow hbig => ?_⟩
  · rw [if_neg (by omega), if_neg (by omega)] at hexec
    refine ⟨_, hexec, ?_, fun j hj hjn => ?_, plain_of_exec (by decide) hexec, ?_⟩
    · rw [State.depth_setDepth]
      omega
    · rw [State.slot_setDepth, State.slot_zeroSlots, if_pos (by omega)]
    · exact ((Frame.refl _ _ _ s).zeroSlots fun j _ _ => by omega).setDepth (by simp) _
  · rwa [if_pos hneg] at hexec
  · rwa [if_neg (by omega), if_pos (by omega)] at hexec

/-! ## Words narrowed from exact results

The result of an arithmetic instruction is an integer narrowed to a word (42_stack_and_alu.md R180),
so what it is is a congruence modulo 65536, or the integer itself where it fits. -/

/-- The signed and the unsigned reading of a word are congruent (R9). -/
theorem toInt_modEq_toNat (w : Word) : w.toInt ≡ w.toNat [ZMOD 65536] := by
  obtain ⟨-, h⟩ | ⟨-, h⟩ := toInt_eq_cases w
  · rw [h]
  · rw [h, Int.ModEq, Int.sub_emod_right]

theorem toNat_wrap16 {z : Int} {n : Nat} (h : z ≡ n [ZMOD 65536]) :
    (wrap16 z).toNat = n % 65536 := by
  rw [Int.ModEq] at h
  rw [BitVec.toNat_ofInt]
  omega

theorem toInt_wrap16_sub_emod (z : Int) : ((wrap16 z).toInt - z) % 65536 = 0 := by
  rw [BitVec.toInt_ofInt]
  exact Int.emod_eq_zero_of_dvd Int.dvd_bmod_sub_self

/-! ## The binary instructions -/

theorem plain_replacePair (s : State) (r : Word) : Plain s (s.replacePair r) :=
  ⟨⟨rfl, rfl⟩, ⟨rfl, rfl⟩, rfl⟩

/-- An instruction that replaces its two operands by a word goes straight on. -/
theorem completes_of_replacePair {i : Instr} {s : State} {r : Word} (hd : 2 ≤ s.depth)
    (hexec : exec i s = .next (s.replacePair r)) :
    ∃ t, exec i s = .next t ∧ PairReplaced r s t ∧ Plain s t :=
  ⟨_, hexec, pairReplaced_replacePair s r hd, plain_replacePair s r⟩

/-- A binary instruction whose operands are there completes with its result (R183). -/
theorem completes_of_binary {i : Instr} {s : State} {f : Word → Word → Word} {r : Word}
    (hd : 2 ≤ s.depth) (hexec : exec i s = binary f s) (hr : f (s.top 1) (s.top 0) = r) :
    ∃ t, exec i s = .next t ∧ PairReplaced r s t ∧ Plain s t :=
  completes_of_replacePair hd (hr ▸ hexec.trans (need_of_le hd _))

/-- Settles O37: each result is the exact integer narrowed, and congruences can be added, subtracted
and multiplied. -/
theorem addSubMulWrap : Obligations.AddSubMulWrap := by
  intro s hd
  have ha := toInt_modEq_toNat (s.top 1)
  have hb := toInt_modEq_toNat (s.top 0)
  refine ⟨?_, ?_, ?_⟩
  · obtain ⟨t, hexec, hpair, hplain⟩ := completes_of_binary (i := .add) hd rfl rfl
    refine ⟨t, _, hexec, hpair, hplain, toNat_wrap16 ?_, toInt_wrap16_sub_emod _⟩
    exact_mod_cast ha.add hb
  · obtain ⟨t, hexec, hpair, hplain⟩ := completes_of_binary (i := .sub) hd rfl rfl
    refine ⟨t, _, hexec, hpair, hplain, toNat_wrap16 ((ha.sub hb).trans ?_),
      toInt_wrap16_sub_emod _⟩
    have hlt := (s.top 0).isLt
    rw [Int.ModEq]
    omega
  · obtain ⟨t, hexec, hpair, hplain⟩ := completes_of_binary (i := .mul) hd rfl rfl
    refine ⟨t, _, hexec, hpair, hplain, toNat_wrap16 ?_, toInt_wrap16_sub_emod _⟩
    exact_mod_cast ha.mul hb

/-! ### `DIV` -/

/-- The quotient of `DIV` is the library's signed division, wrapping included. -/
theorem divWords_eq_sdiv (a b : Word) : divWords a b = a.sdiv b :=
  BitVec.eq_of_toInt_eq (by rw [BitVec.toInt_sdiv, divWords, BitVec.toInt_ofInt])

/-- The quotient is exact but for -32768 / -1. -/
theorem toInt_divWords {a b : Word} (h : ¬ (a.toInt = -32768 ∧ b.toInt = -1)) :
    (divWords a b).toInt = a.toInt.tdiv b.toInt := by
  rw [divWords_eq_sdiv]
  refine BitVec.toInt_sdiv_of_ne_or_ne a b ?_
  by_contra hcon
  push Not at hcon
  obtain ⟨rfl, rfl⟩ := hcon
  exact h (by decide)

theorem toInt_divWords_overflow {a b : Word} (ha : a.toInt = -32768) (hb : b.toInt = -1) :
    (divWords a b).toInt = -32768 := by
  rw [divWords, toS, toS, ha, hb]
  decide

/-- A truncating division leaves a remainder on the side of the dividend. -/
theorem tmod_mul_self_nonneg (a b : Int) : 0 ≤ a.tmod b * a := by
  obtain ha | ha := Int.le_total 0 a
  · exact Int.mul_nonneg (Int.tmod_nonneg b ha) ha
  · have hneg := Int.tmod_nonneg b (neg_nonneg.2 ha)
    rw [Int.neg_tmod] at hneg
    exact Int.mul_nonneg_of_nonpos_of_nonpos (neg_nonneg.1 hneg) ha

theorem raises_div_of_zero {s : State} (hd : 2 ≤ s.depth) (h : s.top 0 = 0) :
    Raises .divideByZero .div s :=
  (need_of_le hd _).trans (if_pos h)

theorem exec_div_of_ne_zero {s : State} (hd : 2 ≤ s.depth) (h : s.top 0 ≠ 0) :
    exec .div s = binary divWords s :=
  (need_of_le hd _).trans (if_neg h)

/-- Settles O38: the remainder is that of the library's truncating division. -/
theorem divTruncatesTowardZero : Obligations.DivTruncatesTowardZero := by
  intro s hd
  have hzero : (s.top 0).toInt = 0 ↔ s.top 0 = 0 := BitVec.toInt_inj (y := (0 : Word))
  refine ⟨fun h => raises_div_of_zero hd (hzero.1 h), fun h => ?_⟩
  obtain ⟨t, hexec, hpair, hplain⟩ :=
    completes_of_binary hd (exec_div_of_ne_zero hd (mt hzero.2 h)) rfl
  refine ⟨t, _, hexec, hpair, hplain, fun hover => toInt_divWords_overflow hover.1 hover.2,
    fun hexact => ⟨(s.top 1).toInt.tmod (s.top 0).toInt, ?_, ?_, tmod_mul_self_nonneg _ _⟩⟩
  · rw [toInt_divWords hexact, Int.tdiv_mul_add_tmod]
  · rw [Int.natAbs_tmod]
    exact Nat.mod_lt _ (Int.natAbs_pos.2 h)

/-! ### Logic -/

theorem getLsbD_norWords (a b : Word) {k : Nat} (hk : k < 16) :
    (norWords a b).getLsbD k = !(a.getLsbD k || b.getLsbD k) := by
  rw [norWords, BitVec.getLsbD_not, BitVec.getLsbD_or, decide_eq_true hk, Bool.true_and]

/-- Settles O39: the bits of the library's bitwise operations. -/
theorem logicActsBitByBit : Obligations.LogicActsBitByBit := by
  intro s hd
  obtain ⟨ta, hand, hpaira, hplaina⟩ := completes_of_binary (i := .and) hd rfl rfl
  obtain ⟨tr, hor, hpairo, hplaino⟩ := completes_of_binary (i := .or) hd rfl rfl
  obtain ⟨tx, hxor, hpairx, hplainx⟩ := completes_of_binary (i := .xor) hd rfl rfl
  obtain ⟨tn, hnor, hpairn, hplainn⟩ := completes_of_binary (i := .nor) hd rfl rfl
  refine ⟨ta, tr, tx, tn, _, _, _, _, hand, hpaira, hplaina, hor, hpairo, hplaino, hxor, hpairx,
    hplainx, hnor, hpairn, hplainn, fun k hk => ⟨?_, ?_, ?_, getLsbD_norWords _ _ hk⟩⟩
  · exact BitVec.getLsbD_and
  · exact BitVec.getLsbD_or
  · exact BitVec.getLsbD_xor

/-! ### Shifts -/

theorem shiftInRange_iff (w : Word) : shiftInRange w = true ↔ 0 ≤ w.toInt ∧ w.toInt ≤ 15 :=
  decide_eq_true_iff

/-- A shift by a count in 0 to 15 has its own result (R172, R173). -/
theorem shiftBy_of_inRange {s : State} (f : Word → Word → Word) (hd : 2 ≤ s.depth)
    (h : shiftInRange (s.top 0) = true) :
    shiftBy f s = .next (s.replacePair (f (s.top 1) (s.top 0))) :=
  (need_of_le hd _).trans (if_pos h)

/-- A shift by any other count has the next unspecified word (log 2). -/
theorem shiftBy_of_outOfRange {s : State} (f : Word → Word → Word) (hd : 2 ≤ s.depth)
    (h : ¬ shiftInRange (s.top 0) = true) : shiftBy f s =
      .next { s.replacePair (Config.shiftOor s.freeIdx) with freeIdx := s.freeIdx + 1 } :=
  (need_of_le hd _).trans (if_neg h)

theorem exec_shift {i : Instr} (hi : i ∈ [Instr.shl, Instr.shr]) (s : State) :
    ∃ f, exec i s = shiftBy f s := by
  simp only [List.mem_cons, List.not_mem_nil, or_false] at hi
  obtain rfl | rfl := hi
  · exact ⟨_, rfl⟩
  · exact ⟨_, rfl⟩

/-- The counter of unspecified words is in no frame. -/
theorem Frame.setFreeIdx {regs : List Reg} {slots bytes : Nat → Prop} {s t : State}
    (h : Frame regs slots bytes s t) (n : Nat) :
    Frame regs slots bytes s { t with freeIdx := n } :=
  { h with regs_same := fun r hr => by rw [← h.regs_same r hr]; cases r <;> rfl }

theorem PairReplaced.setFreeIdx {r : Word} {s t : State} (h : PairReplaced r s t) (n : Nat) :
    PairReplaced r s { t with freeIdx := n } := by
  obtain ⟨hdepth, htop, hframe⟩ := h
  exact ⟨hdepth, htop, hframe.setFreeIdx n⟩

theorem toNat_shlWords {a n : Word} {k : Nat} (hn : n.toInt = k) :
    (shlWords a n).toNat = a.toNat * 2 ^ k % 65536 := by
  rw [shlWords, toS, toS, hn, Int.toNat_natCast]
  refine toNat_wrap16 ?_
  push_cast
  exact (toInt_modEq_toNat a).mul_right _

/-- The arithmetic shift divides and rounds down: the narrowed quotient is the quotient. -/
theorem toInt_shrWords_arithmetic {a n : Word} {k : Nat} (hn : n.toInt = k) :
    (shrWords true a n).toInt = a.toInt / 2 ^ k := by
  have hshift : shrWords true a n = a.sshiftRight k := by
    rw [shrWords, if_pos rfl, toS, toS, hn, Int.toNat_natCast, Int.fdiv_eq_ediv_of_nonneg _
      (by positivity), BitVec.sshiftRight, Int.shiftRight_eq_div_pow, Nat.cast_pow, Nat.cast_ofNat]
  rw [hshift, BitVec.toInt_sshiftRight, Int.shiftRight_eq_div_pow, Nat.cast_pow, Nat.cast_ofNat]

theorem toNat_shrWords_logical {a n : Word} {k : Nat} (hn : n.toInt = k) :
    (shrWords false a n).toNat = a.toNat / 2 ^ k := by
  rw [shrWords, if_neg Bool.false_ne_true, toS, hn, Int.toNat_natCast, BitVec.toNat_ushiftRight,
    Nat.shiftRight_eq_div_pow]

/-- Settles O40: by the count's range, and for `SHR` by `SHR_ARITHMETIC`. -/
theorem shiftsComplete : Obligations.ShiftsComplete := by
  refine fun s hd => ⟨fun k hk hle => ?_, fun hout i hi => ?_⟩
  · have hin := (shiftInRange_iff (s.top 0)).2 (by omega)
    constructor
    · obtain ⟨t, hexec, hpair, hplain⟩ :=
        completes_of_replacePair (i := .shl) hd (shiftBy_of_inRange _ hd hin)
      exact ⟨t, _, hexec, hpair, hplain, toNat_shlWords hk⟩
    · obtain ⟨t, hexec, hpair, hplain⟩ :=
        completes_of_replacePair (i := .shr) hd (shiftBy_of_inRange _ hd hin)
      refine ⟨t, _, hexec, hpair, hplain, ?_⟩
      cases s.params.shrArithmetic with
      | true =>
        rw [if_pos rfl, toInt_shrWords_arithmetic hk]
        exact ⟨Int.ediv_mul_le _ (by positivity), Int.lt_ediv_add_one_mul_self _ (by positivity)⟩
      | false =>
        rw [if_neg Bool.false_ne_true]
        exact toNat_shrWords_logical hk
  · have hrange := mt (shiftInRange_iff (s.top 0)).1 (by omega)
    obtain ⟨f, hexec⟩ := exec_shift hi s
    exact ⟨_, hexec.trans (shiftBy_of_outOfRange f hd hrange),
      (pairReplaced_replacePair s _ hd).setFreeIdx _, ⟨rfl, rfl⟩, ⟨rfl, rfl⟩, rfl⟩

/-! ## Truth values -/

theorem boolWord_decide (p : Prop) [Decidable p] : boolWord (decide p) = if p then 1 else 0 := by
  simp only [boolWord, decide_eq_true_eq]

theorem notWord_eq (a : Word) : notWord a = if a.toNat = 0 then 1 else 0 := by
  have hzero : a = 0 ↔ a.toNat = 0 := BitVec.toNat_inj.symm
  simp only [notWord, boolWord, beq_iff_eq, hzero]

theorem equWords_eq (a b : Word) : equWords a b = if a.toInt = b.toInt then 1 else 0 := by
  simp only [equWords, boolWord, beq_iff_eq, BitVec.toInt_inj]

/-- Settles O41: `NOT` replaces the top word in place. -/
theorem notIsLogical : Obligations.NotIsLogical := by
  intro s hd
  have hexec : exec .not s = .next (s.setTop 0 (notWord (s.top 0))) := need_of_le hd _
  rw [notWord_eq] at hexec
  exact ⟨_, hexec, topReplaced_setTop s _, plain_of_exec (by decide) hexec⟩

/-- Settles O42: the relation of the two signed words, as a truth value. -/
theorem comparisonsAreSigned : Obligations.ComparisonsAreSigned := by
  rintro s _ _ hd rfl rfl
  refine ⟨completes_of_binary hd rfl (equWords_eq _ _), ?_, ?_, ?_, ?_⟩ <;>
    exact completes_of_binary hd rfl (boolWord_decide _)

end Sys2Proof.Machine

namespace Sys2Proof.Machine

/-! ## Control transfer

`JMP`, `JZ` and `CALL` differ in where they find their target and in what they do to the stack. What
they share is said once: a target inside the code is gone to, and any other faults
(43_control_and_registers.md R203). -/

theorem jumps_of_validTarget {i : Instr} {s t : State} {target : Int}
    (hexec : exec i s = if s.validTarget target then .next (t.jumpTo target.toNat)
      else raise .jumpTargetViolation s)
    (hin : 0 ≤ target ∧ target < 2 * s.csSize.toNat) :
    exec i s = .next (t.jumpTo target.toNat) :=
  hexec.trans (if_pos (State.validTarget_iff.2 hin))

theorem raises_of_not_validTarget {i : Instr} {s t : State} {target : Int}
    (hexec : exec i s = if s.validTarget target then .next (t.jumpTo target.toNat)
      else raise .jumpTargetViolation s)
    (hout : ¬ (0 ≤ target ∧ target < 2 * s.csSize.toNat)) : Raises .jumpTargetViolation i s :=
  hexec.trans (if_neg (mt State.validTarget_iff.1 hout))

/-- A jump is outside every frame: `pc` and the jump flag are spoken of apart. -/
theorem Frame.jumpTo {regs : List Reg} {slots bytes : Nat → Prop} {s t : State}
    (h : Frame regs slots bytes s t) (n : Nat) : Frame regs slots bytes s (t.jumpTo n) :=
  h.trans ((frame_jumpTo t n).mono (by simp) (fun _ => False.elim) (fun _ => False.elim))

theorem Dropped.jumpTo {k : Nat} {s t : State} (h : Dropped k s t) (n : Nat) :
    Dropped k s (t.jumpTo n) := by
  obtain ⟨hdepth, hframe⟩ := h
  exact ⟨hdepth, hframe.jumpTo n⟩

theorem TopReplaced.jumpTo {v : Word} {s t : State} (h : TopReplaced v s t) (n : Nat) :
    TopReplaced v s (t.jumpTo n) := by
  obtain ⟨hsp, htop, hframe⟩ := h
  exact ⟨hsp, htop, hframe.jumpTo n⟩

theorem exec_jmp_of_le {s : State} (hd : 1 ≤ s.depth) : exec .jmp s =
    if s.validTarget (s.top 0).toInt.natAbs then
      .next ((s.drop 1).jumpTo ((s.top 0).toInt.natAbs : Int).toNat)
    else raise .jumpTargetViolation s :=
  need_of_le hd _

/-- Settles O43: the target, an absolute value, is never below 0, so only the end of the code bounds
it. -/
theorem jmpTakesAbsoluteValue : Obligations.JmpTakesAbsoluteValue := by
  intro s hd
  have hexec := exec_jmp_of_le hd
  refine ⟨fun hin => ?_, fun hout => raises_of_not_validTarget hexec (by omega)⟩
  exact ⟨_, jumps_of_validTarget hexec (by omega), Int.toNat_natCast _, rfl,
    (dropped_drop s 1).jumpTo _, ⟨rfl, rfl⟩, rfl⟩

/-! ### `JZ` -/

theorem exec_jz_of_ne_zero {s : State} (hd : 2 ≤ s.depth) (hcond : s.jzCond ≠ 0) :
    exec .jz s = .next (s.drop 2) :=
  (need_of_le hd _).trans (if_neg hcond)

theorem exec_jz_of_zero {s : State} (hd : 2 ≤ s.depth) (hcond : s.jzCond = 0) : exec .jz s =
    if s.validTarget (s.plainTarget s.jzTarget) then
      .next ((s.drop 2).jumpTo (s.plainTarget s.jzTarget).toNat)
    else raise .jumpTargetViolation s :=
  (need_of_le hd _).trans (if_pos hcond)

/-- Settles O44, by the condition; the target is looked at only when it is zero. -/
theorem jzJumpsOnZero : Obligations.JzJumpsOnZero := by
  intro s cond w target hd hpair htarget
  obtain ⟨rfl, rfl⟩ := hpair.jz
  obtain rfl : target = s.plainTarget s.jzTarget := htarget
  have hzero : s.jzCond.toNat = 0 ↔ s.jzCond = 0 := BitVec.toNat_inj (y := (0 : Word))
  refine ⟨fun hne => ?_, fun hz hlow hhigh => ?_, fun hz hout => ?_⟩
  · have hexec := exec_jz_of_ne_zero hd (mt hzero.2 hne)
    exact ⟨_, hexec, dropped_drop s 2, ⟨rfl, rfl⟩, ⟨rfl, rfl⟩, rfl⟩
  · have hexec := jumps_of_validTarget (exec_jz_of_zero hd (hzero.1 hz)) ⟨hlow, hhigh⟩
    exact ⟨_, hexec, Int.toNat_of_nonneg hlow, rfl, (dropped_drop s 2).jumpTo _, ⟨rfl, rfl⟩, rfl⟩
  · exact raises_of_not_validTarget (exec_jz_of_zero hd (hzero.1 hz)) hout

/-! ### `CALL` and the return -/

theorem exec_call_of_le {s : State} (hd : 1 ≤ s.depth) : exec .call s =
    if s.validTarget (s.plainTarget (s.top 0)) then
      .next ((s.setTop 0 (wrap16 (s.pc + 1))).jumpTo (s.plainTarget (s.top 0)).toNat)
    else raise .jumpTargetViolation s :=
  need_of_le hd _

/-- Settles O45: the return address is written where the target was, then the jump is taken. -/
theorem callLeavesReturnAddress : Obligations.CallLeavesReturnAddress := by
  intro s target hd htarget
  obtain rfl : target = s.plainTarget (s.top 0) := htarget
  have hexec := exec_call_of_le hd
  refine ⟨fun hlow hhigh => ?_, raises_of_not_validTarget hexec⟩
  exact ⟨_, _, jumps_of_validTarget hexec ⟨hlow, hhigh⟩, Int.toNat_of_nonneg hlow, rfl,
    toNat_wrap16 (Int.ModEq.refl _), (topReplaced_setTop s _).jumpTo _, ⟨rfl, rfl⟩, rfl⟩

/-- A `CALL` that did not fault left the return address on top (R202). -/
theorem toNat_top_of_call {s t : State} (hd : 1 ≤ s.depth) (hexec : exec .call s = .next t)
    (hrun : t.status = .running) : (t.top 0).toNat = (s.pc + 1) % 65536 := by
  obtain ⟨hjumps, hfaults⟩ := callLeavesReturnAddress s (s.plainTarget (s.top 0)) hd rfl
  by_cases hin : 0 ≤ s.plainTarget (s.top 0) ∧ s.plainTarget (s.top 0) < 2 * s.csSize.toNat
  · obtain ⟨u, v, hu, -, -, hv, ⟨-, htop, -⟩, -⟩ := hjumps hin.1 hin.2
    obtain rfl := Host.Outcome.next.inj (hu.symm.trans hexec)
    rw [htop, hv]
  · obtain rfl := Host.Outcome.next.inj ((hfaults hin).symm.trans hexec)
    simp at hrun

/-- The absolute value of a word read as signed, taken in integers wider than a word (D19). -/
theorem natAbs_toInt (w : Word) :
    w.toInt.natAbs = if w.toNat ≤ 32768 then w.toNat else 65536 - w.toNat := by
  have hlt := w.isLt
  obtain ⟨hsmall, h⟩ | ⟨hlarge, h⟩ := toInt_eq_cases w
  · rw [h, Int.natAbs_natCast, if_pos (by omega)]
  · rw [h]
    split <;> omega

/-- Settles O46: the absolute value of the word is the return address up to 32768, and 65536 less it
above, where the word reads as negative. -/
theorem jmpOnReturnAddressReturns : Obligations.JmpOnReturnAddressReturns := by
  intro s t u hd hexec _ hrun hu htop
  have hword := htop ▸ toNat_top_of_call hd hexec hrun
  have habs := natAbs_toInt (u.top 0)
  obtain ⟨hjumps, -⟩ := jmpTakesAbsoluteValue u hu
  refine ⟨fun hlow hin => ?_, fun hlow hhigh hin => ?_⟩
  · rw [hword, Nat.mod_eq_of_lt (by omega), if_pos hlow] at habs
    obtain ⟨v, hv, hpc, hjf, -⟩ := hjumps (habs ▸ hin)
    exact ⟨v, hv, hpc.trans habs, hjf⟩
  · rw [hword, Nat.mod_eq_of_lt (by omega), if_neg (by omega)] at habs
    obtain ⟨v, hv, hpc, hjf, -⟩ := hjumps (habs ▸ hin)
    exact ⟨v, hv, hpc.trans habs, hjf⟩

/-! ## Register moves -/

theorem ne_sp_of_mem_plainRegs {r : Reg} (hr : r ∈ plainRegs) : r ≠ .sp := by
  rintro rfl
  simp [plainRegs] at hr

theorem State.readReg_writeReg (s : State) (r : Reg) (v : Word) :
    (s.writeReg r v).readReg r = v := by
  cases r <;> rfl

/-- `sp` is the only register the depth is read from (R22). -/
theorem State.depth_writeReg_of_ne_sp {r : Reg} (hr : r ≠ .sp) (s : State) (v : Word) :
    (s.writeReg r v).depth = s.depth :=
  State.depth_congr (State.readReg_writeReg_of_ne hr.symm s v)

/-- The pop of every register but `sp` is the shared one (R220). -/
theorem exec_popInstr {r : Reg} (hr : r ∈ plainRegs) (s : State) :
    exec (popInstr r) s = popInto r s := by
  cases r with
  | sp => exact absurd rfl (ne_sp_of_mem_plainRegs hr)
  | _ => rfl

/-- The push of every register is the shared one (R216, R220). -/
theorem exec_pushInstr (r : Reg) (s : State) : exec (pushInstr r) s = pushFrom r s := by
  cases r <;> rfl

/-- Settles O47: a pop writes its register and drops the word; a push reads its register first. -/
theorem registerMoves : Obligations.RegisterMoves := by
  refine fun r s => ⟨fun hr hd => ?_, fun hroom => ?_⟩
  · have hsp := ne_sp_of_mem_plainRegs hr
    have hexec : exec (popInstr r) s = .next ((s.writeReg r (s.top 0)).drop 1) :=
      (exec_popInstr hr s).trans (need_of_le hd _)
    refine ⟨_, hexec, ?_, ?_, (frame_writeReg s r _).drop 1,
      plain_of_exec (by cases r <;> decide) hexec⟩
    · rw [State.depth_drop, State.depth_writeReg_of_ne_sp hsp]
    · rw [(frame_drop _ 1).regs_same r (by simpa using hsp), State.readReg_writeReg]
  · have hexec : exec (pushInstr r) s = .next (s.pushed (s.readReg r)) :=
      (exec_pushInstr r s).trans (push_of_lt _ hroom)
    exact ⟨_, hexec, pushed_pushed s _ (by omega), plain_of_exec (by cases r <;> decide) hexec⟩

/-! ### `MOVE` -/

/-- `MOVE` by the word it pops, once that is there (R210). -/
theorem exec_move_of_le {s : State} (hd : 1 ≤ s.depth) : exec .move s =
    if (s.top 0).toInt < 0 then raise .stackUnderflow s
    else if 8192 < (s.top 0).toInt.toNat then raise .stackOverflow s
    else .next (s.writeReg .sp (s.top 0)) :=
  need_of_le hd _

/-- A depth of at most 8192 is a word that reads the same signed and unsigned. -/
theorem exec_move_of_depth_le {s : State} {v : Word} (hd : 1 ≤ s.depth) (htop : s.top 0 = v)
    (hv : v.toNat ≤ 8192) : exec .move s = .next (s.writeReg .sp v) := by
  have hword := toInt_eq_cases v
  rw [exec_move_of_le hd, htop, if_neg (by omega), if_neg (by omega)]

theorem State.top_pushed {s : State} (hd : s.depth < 65535) (v : Word) :
    (s.pushed v).top 0 = v := by
  rw [State.top, State.slot_pushed, State.depth_pushed s v hd, if_pos (by omega)]

/-- Settles O48: the word in range is the depth as it stands, and the one `EMOV` pushes is in
range. -/
theorem moveSetsTheDepth : Obligations.MoveSetsTheDepth := by
  refine fun s => ⟨?_, fun hroom => ?_⟩
  · rintro _ hd rfl
    have hexec := exec_move_of_le hd
    refine ⟨fun hlow hhigh => ?_, fun hneg => ?_, fun hbig => ?_⟩
    · have hword := toInt_eq_cases (s.top 0)
      have hmove := exec_move_of_depth_le hd rfl (by omega)
      have hdepth : (s.writeReg .sp (s.top 0)).depth = (s.top 0).toNat := rfl
      exact ⟨_, hmove, by omega, frame_writeReg s .sp _, plain_of_exec (by decide) hmove⟩
    · rwa [if_pos hneg] at hexec
    · rwa [if_neg (by omega), if_pos (by omega)] at hexec
  · have hlt : s.depth < 65535 := by omega
    have hdepth := State.depth_pushed s s.sp hlt
    have hmove := exec_move_of_depth_le (by omega) (State.top_pushed hlt s.sp) hroom.le
    exact ⟨_, _, push_of_lt s.sp hroom, hmove, rfl⟩

/-! ## No operation -/

/-- An instruction that answers the state it ran in leaves the step to count and to advance `pc`
(R112, R115). -/
theorem step_of_exec_eq_self {s : State} {i : Instr} {len : Nat} (hs : s.status = .running)
    (hb : s.icount < Config.budget) (hd : decode s.params s.big s.codeWindow = .instr i len)
    (hexec : ∀ t, exec i t = .next t) :
    step s = .next { s with icount := s.icount + 1, jf := false, pc := s.pc + len } := by
  obtain ⟨hlen, -⟩ := decode_cases hd
  have hpc : s.pc + len - 1 + 1 = s.pc + len := by omega
  rw [step_of_exec hs hb hd (hexec _), finishStep_running_straight s (s.beginStep _) hs rfl]
  simp only [State.beginStep, hpc]

/-- Settles O49: both answer the state they ran in, whichever it is. -/
theorem nopAndUnassignedDoNothing : Obligations.NopAndUnassignedDoNothing := by
  intro s i len hi
  have hexec (t : State) : exec i t = .next t := by
    obtain rfl | ⟨op, rfl⟩ := hi <;> rfl
  exact ⟨hexec s, fun hs hb hd => step_of_exec_eq_self hs hb hd hexec⟩

end Sys2Proof.Machine

namespace Sys2Proof.Machine

/-! ## Syscalls

`SYSCALL` does what the service its code asks for does (44_syscall.md R231), so each statement is read
off the meaning of one service: what it checks, what it makes of the host's answer, and the state it
leaves. -/

/-- The meaning of a service (R236 to R244). -/
def serve : Service → State → Result
  | .hlt => serveHlt
  | .putc => servePutc
  | .getc => serveGetc
  | .info => serveInfo
  | .gets => serveGets
  | .openFile => serveOpen
  | .closeFile => serveClose
  | .fgetc => serveFgetc
  | .fputc => serveFputc

/-- The numbers being distinct, `SYSCALL` runs the service that is asked for. -/
theorem exec_syscall_of_requests {v : Service} {s : State} (hc : LegalParameters s.params)
    (hd : 1 ≤ s.depth) (hv : Requests v s) : exec .syscall s = serve v s := by
  have hcode := serviceOfCode_of_requests hc hv
  have hdispatch : dispatch (lowByte (s.top 0)) s = serve v s := by
    rw [dispatch, hcode]
    cases v <;> rfl
  exact (need_of_le hd _).trans hdispatch

/-- A code that asks for no service is a fault (R245). -/
theorem raises_invalidSyscall {s : State} (hd : 1 ≤ s.depth) (h : ∀ v, ¬ Requests v s) :
    Raises .invalidSyscall .syscall s := by
  have hcode := serviceOfCode_eq_none.2 h
  have hdispatch : dispatch (lowByte (s.top 0)) s = raise .invalidSyscall s := by
    rw [dispatch, hcode]
  exact (need_of_le hd _).trans hdispatch

/-- `SYSCALL` is no jump and no shift (O20). -/
theorem straight_of_syscall {s t : State} (h : exec .syscall s = .next t) :
    NoJump s t ∧ NoFreeValue s t := by
  obtain ⟨-, -, hjump, hfree⟩ := effectsBelongToTheirInstructions _ s t h
  exact ⟨hjump (by decide) (by decide) (by decide), hfree (by decide) (by decide)⟩

/-! ### The dispatcher's operand check -/

/-- How many words a service needs, the code word being one of them; 0 where it makes no check of
its own (R246). -/
def Service.words : Service → Nat
  | .hlt | .getc | .info => 0
  | .putc | .gets | .closeFile | .fgetc => 2
  | .openFile | .fputc => 3

/-- The operand check comes first in every service. -/
theorem serve_eq_needSyscall (v : Service) (s : State) :
    ∃ go, serve v s = needSyscall v.words s go := by
  cases v with
  | hlt | getc | info => exact ⟨_, (needSyscall_of_le (Nat.zero_le _) _).symm⟩
  | putc | gets | closeFile | fgetc | openFile | fputc => exact ⟨_, rfl⟩

theorem raises_syscallStackUnderflow {v : Service} {s : State} (hc : LegalParameters s.params)
    (hd : 1 ≤ s.depth) (hv : Requests v s) (hshort : s.depth < v.words) :
    Raises .syscallStackUnderflow .syscall s := by
  obtain ⟨go, hgo⟩ := serve_eq_needSyscall v s
  exact (exec_syscall_of_requests hc hd hv).trans (hgo.trans (needSyscall_of_lt hshort go))

/-! ### The host's answer -/

theorem answeredByte_ok {b : Nat} (h : b < 256) : answeredByte (.ok b) = some (BitVec.ofNat 8 b) :=
  if_pos h

/-- What counts as no byte: a failure, or a number that is none (log 44). -/
theorem answeredByte_eq_none {a : HostAnswer} :
    answeredByte a = none ↔ a = .fail ∨ ∃ v, a = .ok v ∧ 256 ≤ v := by
  cases a with
  | fail => simp [answeredByte]
  | ok v => simp [answeredByte]

theorem answeredHandle_ok {h : Nat} (hh : h < 65536) : answeredHandle (.ok h) = some h :=
  if_pos hh

/-- What counts as no handle: a failure, or a number too large (R241). -/
theorem answeredHandle_eq_none {a : HostAnswer} :
    answeredHandle a = none ↔ a = .fail ∨ ∃ h, a = .ok h ∧ 65536 ≤ h := by
  cases a with
  | fail => simp [answeredHandle]
  | ok h =>
    have hlimit : Config.handleLimit = 65536 := rfl
    simp [answeredHandle, hlimit]

/-- The byte of an answer, as the word a service pushes. -/
theorem toNat_zext8_ofNat {b : Nat} (h : b < 256) : (zext8 (BitVec.ofNat 8 b)).toNat = b := by
  rw [toNat_zext8, BitVec.toNat_ofNat, Nat.mod_eq_of_lt h]

/-! ### The state after a call on the host -/

/-- A call changes nothing that a frame speaks of. -/
theorem Frame.of_afterCall {regs : List Reg} {slots bytes : Nat → Prop} {s t : State} {c : HostCall}
    (h : Frame regs slots bytes (s.afterCall c) t) : Frame regs slots bytes s t :=
  ((frame_afterCall s c).mono (by simp) (fun _ => False.elim) (fun _ => False.elim)).trans h

/-- `k` words replaced by the word `r`, in the slot that held the deepest of them. -/
def WordsReplaced (k : Nat) (r : Word) (s t : State) : Prop :=
  t.depth = s.depth - k + 1 ∧ t.top 0 = r ∧ Frame [.sp] (· = s.depth - k) nowhere s t

/-- A push over the `k` words it has made room for, so it needs no more (R241, R243, R244). -/
theorem push_over_words {s : State} {c : HostCall} {k : Nat} (hk : 1 ≤ k) (hd : s.depth ≤ 8192)
    (r : Word) : ∃ t, push r ((s.afterCall c).drop k) = .next t ∧ OneHostCall c s t ∧
      WordsReplaced k r s t := by
  have hdepth : ((s.afterCall c).drop k).depth = s.depth - k := State.depth_drop _ k
  have hroom : ((s.afterCall c).drop k).depth < 8192 := by omega
  obtain ⟨hgrows, -, hframe⟩ := pushed_pushed ((s.afterCall c).drop k) r (by omega)
  rw [hdepth] at hgrows hframe
  have hdrop : Frame [.sp] (· = s.depth - k) nowhere (s.afterCall c) ((s.afterCall c).drop k) :=
    (Frame.refl [] _ _ _).drop k
  exact ⟨_, push_of_lt r hroom, ⟨rfl, rfl⟩, hgrows, State.top_pushed (by omega) r,
    (hdrop.trans hframe).of_afterCall⟩

/-! ### `HLT` and `INFO` -/

/-- Settles O50: the services of code 0 and of `INFO` make one update each, and a halted step keeps
what `Execute` left. -/
theorem hltEndsAndInfoOnlyDumps : Obligations.HltEndsAndInfoOnlyDumps := by
  refine fun s hc hd => ⟨fun hcode => ?_, exec_syscall_of_requests hc hd⟩
  have hexec := exec_syscall_of_requests hc hd ((requests_hlt hc).2 hcode)
  refine ⟨hexec, fun s' len hs hb hdecode hbegin => ?_⟩
  obtain rfl : s = s'.beginStep (s'.pc + len - 1) := hbegin
  exact (step_of_exec hs hb hdecode hexec).trans (congrArg _ (finishStep_halted _ _ rfl))

/-! ### `PUTC` and `GETC` -/

theorem servePutc_of_ok {s : State} (hd : 2 ≤ s.depth) (h : answeredOk s.hostAnswer = true) :
    servePutc s = .next (s.afterCall (.emitByte (lowByte (s.top 1)))) :=
  (needSyscall_of_le hd _).trans (if_pos h)

theorem servePutc_of_fail {s : State} (hd : 2 ≤ s.depth) (h : s.hostAnswer = .fail) :
    servePutc s = hostFail (s.afterCall (.emitByte (lowByte (s.top 1)))) :=
  (needSyscall_of_le hd _).trans (if_neg (by simp [h, answeredOk]))

theorem serveGetc_of_byte {s : State} {b : Nat} (h : s.hostAnswer = .ok b) (hb : b < 256) :
    serveGetc s = push (zext8 (BitVec.ofNat 8 b)) (s.afterCall .requestByte) := by
  simp only [serveGetc, h, answeredByte_ok hb]

theorem serveGetc_of_no_byte {s : State} (h : answeredByte s.hostAnswer = none) :
    serveGetc s = hostFail (s.afterCall .requestByte) := by
  simp only [serveGetc, h]

/-- Settles O51: the host is asked first, and the byte it answers is pushed over the code word. -/
theorem putcSendsAndGetcReceives : Obligations.PutcSendsAndGetcReceives := by
  refine fun s hc => ⟨fun hd hv hok => ?_, fun b hd hroom hv hans hb => ?_, fun hd hfull hv => ?_⟩
  · have hexec := (exec_syscall_of_requests hc (by omega) hv).trans (servePutc_of_ok hd hok)
    obtain ⟨hjump, hfree⟩ := straight_of_syscall hexec
    exact ⟨_, _, hexec, toNat_lowByte _, ⟨rfl, rfl⟩, rfl, frame_afterCall s _,
      hjump, hfree⟩
  · have hexec := ((exec_syscall_of_requests hc hd hv).trans (serveGetc_of_byte hans hb)).trans
      (push_of_lt _ hroom)
    obtain ⟨hjump, hfree⟩ := straight_of_syscall hexec
    obtain ⟨hdepth, hslot, hframe⟩ := pushed_pushed (s.afterCall .requestByte)
      (zext8 (BitVec.ofNat 8 b)) (Nat.lt_trans hroom (by decide))
    exact ⟨_, _, hexec, toNat_zext8_ofNat hb, ⟨hdepth, hslot, hframe.of_afterCall⟩, ⟨rfl, rfl⟩,
      hjump, hfree⟩
  · rintro ⟨b, hans, hb⟩
    have hexec := ((exec_syscall_of_requests hc hd hv).trans (serveGetc_of_byte hans hb)).trans
      (push_of_le _ hfull)
    exact ⟨_, hexec, rfl, ⟨rfl, rfl⟩⟩

/-! ### Where `SYSCALL` stops -/

/-- Settles O55: no service, the operand check of each service, and the host failures of `PUTC` and
`GETC`. -/
theorem syscallStops : Obligations.SyscallStops := by
  refine fun s hc hd => ⟨raises_invalidSyscall hd, fun v hmem hshort hv => ?_,
    fun v hmem hshort hv => ?_, fun hd2 hv hfail => ?_, fun hv hnone => ?_⟩
  · have hwords : ∀ v ∈ [Service.putc, .gets, .closeFile, .fgetc], v.words = 2 := by decide
    exact raises_syscallStackUnderflow hc hd hv ((hwords v hmem).symm ▸ hshort)
  · have hwords : ∀ v ∈ [Service.openFile, .fputc], v.words = 3 := by decide
    exact raises_syscallStackUnderflow hc hd hv ((hwords v hmem).symm ▸ hshort)
  · have hexec := (exec_syscall_of_requests hc hd hv).trans (servePutc_of_fail hd2 hfail)
    exact ⟨_, _, hexec, toNat_lowByte _, rfl⟩
  · exact (exec_syscall_of_requests hc hd hv).trans
      (serveGetc_of_no_byte (answeredByte_eq_none.2 hnone))

/-! ### `GETS` -/

theorem State.length_getsBytes (s : State) : s.getsBytes.length = min s.sGets.length 90 :=
  List.length_take.trans (Nat.min_comm _ _)

/-- The bytes copied are those of the buffer. -/
theorem State.getD_getsBytes {s : State} {k : Nat} {b : Byte} (hk : k < Config.getsCap)
    (hb : s.sGets[k]? = some b) : s.getsBytes.getD k 0 = b := by
  rw [List.getD_eq_getElem?_getD, State.getsBytes, List.getElem?_take_of_lt hk, hb,
    Option.getD_some]

theorem serveGets_of_fits {s : State} {d : Nat} (hd : 2 ≤ s.depth)
    (hslot : stackIndex (s.top 1) = some d) (hfits : s.getsBytes.length ≤ d + 1) :
    serveGets s = .next ((s.drop 2).copyDown d s.getsBytes) := by
  simp only [serveGets, needSyscall_of_le hd, hslot, Nat.not_lt.2 hfits, if_false]

theorem serveGets_of_no_slot {s : State} (hd : 2 ≤ s.depth) (hslot : stackIndex (s.top 1) = none) :
    serveGets s = raise .stackOverflow s := by
  simp only [serveGets, needSyscall_of_le hd, hslot]

theorem serveGets_of_too_long {s : State} {d : Nat} (hd : 2 ≤ s.depth)
    (hslot : stackIndex (s.top 1) = some d) (hlong : d + 1 < s.getsBytes.length) :
    serveGets s = raise .stackOverflow s := by
  simp only [serveGets, needSyscall_of_le hd, hslot, hlong, if_true]

theorem State.depth_copyDown (s : State) (d : Nat) (bs : List Byte) :
    (s.copyDown d bs).depth = s.depth :=
  State.depth_congr (State.copyDown_sp s d bs)

/-- Bytes copied down to slots that a frame lets change stay in the frame. -/
theorem Frame.copyDown {regs : List Reg} {slots bytes : Nat → Prop} {s t : State}
    (h : Frame regs slots bytes s t) {d : Nat} {bs : List Byte} (hfits : bs.length ≤ d + 1)
    (hslots : ∀ j, j ≤ d → d < j + bs.length → slots j) :
    Frame regs slots bytes s (t.copyDown d bs) := by
  induction bs generalizing t d with
  | nil => exact h
  | cons b bs ih =>
    rw [List.length_cons] at hfits hslots
    exact ih (h.setSlot (hslots d (by omega) (by omega)) _) (by omega) fun j hlow hhigh =>
      hslots j (by omega) (by omega)

/-- Settles O52: the copy fills one slot a byte from `d` down, and is checked before any write. -/
theorem getsCopiesDownward : Obligations.GetsCopiesDownward := by
  intro s len hc hd hv hlen
  obtain rfl : len = s.getsBytes.length := hlen.trans s.length_getsBytes.symm
  have hserve := exec_syscall_of_requests hc (by omega) hv
  refine ⟨fun d hslot hfits => ?_, fun hout => hserve.trans ?_⟩
  · have hexec := hserve.trans (serveGets_of_fits hd hslot hfits)
    obtain ⟨hjump, hfree⟩ := straight_of_syscall hexec
    have hdrop : Frame [.sp] (fun j => j ≤ d ∧ d < j + s.getsBytes.length) nowhere s (s.drop 2) :=
      (Frame.refl [] _ _ s).drop 2
    refine ⟨_, hexec, ?_, (stackIndex_eq_some.1 hslot).1, fun k b hk hb => ?_,
      hdrop.copyDown hfits fun j hlow hhigh => ⟨hlow, hhigh⟩, hjump, ⟨?_, ?_⟩, hfree⟩
    · rw [State.depth_copyDown, State.depth_drop]
    · have hcap : k < 90 := by rw [s.length_getsBytes] at hk; omega
      rw [State.slot_copyDown _ _ _ hfits, if_pos (by omega), toNat_zext8,
        show d - (d - k) = k by omega, State.getD_getsBytes hcap hb]
    · rw [State.copyDown_hostLog, State.drop_hostLog]
    · rw [State.copyDown_hostReplies, State.drop_hostReplies]
  · cases hslot : stackIndex (s.top 1) with
    | none => exact serveGets_of_no_slot hd hslot
    | some d =>
      have hindex := stackIndex_eq_some.1 hslot
      exact serveGets_of_too_long hd hslot (by omega)

/-! ### `CLOSE`, `FGETC` and `FPUTC` -/

/-- The word `FGETC` makes of an answer (R243). -/
def fgetcWord (a : HostAnswer) : Word := (answeredByte a).elim 0xFFFF zext8

/-- The word `FPUTC` makes of an answer (R244). -/
def fputcWord (a : HostAnswer) : Word := if answeredOk a then 0 else 0xFFFF

theorem serveFgetc_of_le {s : State} (hd : 2 ≤ s.depth) : serveFgetc s =
    push (fgetcWord s.hostAnswer) ((s.afterCall (.read1 (s.top 1))).drop 2) := by
  rw [serveFgetc, needSyscall_of_le hd, fgetcWord]
  cases answeredByte s.hostAnswer <;> rfl

theorem toNat_fgetcWord_ok {b : Nat} (h : b < 256) : (fgetcWord (.ok b)).toNat = b := by
  rw [fgetcWord, answeredByte_ok h, Option.elim_some, toNat_zext8_ofNat h]

theorem toInt_fgetcWord_of_no_byte {a : HostAnswer} (h : answeredByte a = none) :
    (fgetcWord a).toInt = -1 := by
  rw [fgetcWord, h, Option.elim_none]
  decide

theorem serveFputc_of_le {s : State} (hd : 3 ≤ s.depth) : serveFputc s =
    push (fputcWord s.hostAnswer)
      ((s.afterCall (.write1 (s.top 1) (lowByte (s.top 2)))).drop 3) :=
  needSyscall_of_le hd _

theorem serveClose_of_le {s : State} (hd : 2 ≤ s.depth) :
    serveClose s = .next ((s.afterCall (.closeFile (s.top 1))).drop 2) :=
  needSyscall_of_le hd _

theorem WordsReplaced.pairReplaced {r : Word} {s t : State} (hd : 2 ≤ s.depth)
    (h : WordsReplaced 2 r s t) : PairReplaced r s t := by
  obtain ⟨hdepth, htop, hframe⟩ := h
  exact ⟨by omega, htop, hframe⟩

/-- Settles O54: each service removes its words, and a push over them always has room. -/
theorem fileSyscallsComplete : Obligations.FileSyscallsComplete := by
  refine fun s hc hle => ⟨fun hd hv => ?_, fun hd hv => ?_, fun hd hv => ?_⟩
  · have hexec := (exec_syscall_of_requests hc (by omega) hv).trans (serveClose_of_le hd)
    obtain ⟨hjump, hfree⟩ := straight_of_syscall hexec
    obtain ⟨hdepth, hframe⟩ := dropped_drop (s.afterCall (.closeFile (s.top 1))) 2
    exact ⟨_, hexec, ⟨hdepth, hframe.of_afterCall⟩, ⟨rfl, rfl⟩, hjump, hfree⟩
  · obtain ⟨t, hpush, hcall, hwords⟩ := push_over_words (c := .read1 (s.top 1)) (k := 2)
      (by decide) hle (fgetcWord s.hostAnswer)
    have hexec := (exec_syscall_of_requests hc (by omega) hv).trans
      ((serveFgetc_of_le hd).trans hpush)
    obtain ⟨hjump, hfree⟩ := straight_of_syscall hexec
    refine ⟨t, _, hexec, hwords.pairReplaced hd, hcall, hjump, hfree, fun b hans hb => ?_,
      fun v hans hv => ?_, fun hans => ?_⟩
    · rw [hans, toNat_fgetcWord_ok hb]
    · exact toInt_fgetcWord_of_no_byte (answeredByte_eq_none.2 (.inr ⟨v, hans, hv⟩))
    · exact toInt_fgetcWord_of_no_byte (answeredByte_eq_none.2 (.inl hans))
  · obtain ⟨t, hpush, hcall, hdepth, htop, hframe⟩ := push_over_words
      (c := .write1 (s.top 1) (lowByte (s.top 2))) (k := 3) (by decide) hle
      (fputcWord s.hostAnswer)
    have hexec := (exec_syscall_of_requests hc (by omega) hv).trans
      ((serveFputc_of_le hd).trans hpush)
    obtain ⟨hjump, hfree⟩ := straight_of_syscall hexec
    refine ⟨t, _, hexec, toNat_lowByte _, by omega, hframe, hcall, hjump, hfree,
      fun v hans => ?_, fun hans => ?_⟩
    · rw [htop, hans]
      rfl
    · rw [htop, hans]
      rfl

/-! ### `OPEN` -/

/-- The path read is the bytes before the terminator, when that is among the bytes searched
(R241). -/
theorem readPath_eq_some {m : Memory} {p n : Nat} {path : List Byte}
    (hbytes : ∀ k b, path[k]? = some b → Memory.read m (p + k) = b ∧ b ≠ 0)
    (hend : Memory.read m (p + path.length) = 0) (hn : path.length < n) :
    readPath m p n = some path := by
  induction n generalizing p path with
  | zero => exact absurd hn (Nat.not_lt_zero _)
  | succ n ih =>
    cases path with
    | nil => exact if_pos hend
    | cons b bs =>
      obtain ⟨hread, hne⟩ : Memory.read m p = b ∧ b ≠ 0 := hbytes 0 b rfl
      have hrest : readPath m (p + 1) n = some bs := by
        refine ih (fun k c hc => ?_) ?_ (Nat.lt_of_succ_lt_succ hn)
        · rw [Nat.add_right_comm]
          exact hbytes (k + 1) c hc
        · rwa [Nat.add_right_comm]
      rw [readPath, hrest, if_neg (hread ▸ hne), hread, Option.map_some]

theorem readPath_eq_none {m : Memory} {p n : Nat}
    (h : ∀ j, p ≤ j → j < p + n → Memory.read m j ≠ 0) : readPath m p n = none := by
  induction n generalizing p with
  | zero => rfl
  | succ n ih =>
    have hrest : readPath m (p + 1) n = none := ih fun j hlow hhigh => h j (by omega) (by omega)
    rw [readPath, if_neg (h p le_rfl (by omega)), hrest, Option.map_none]

theorem State.pathAt_of_terminated {s : State} {w : Word} {p : Nat} {path : List Byte}
    (hw : w.toInt = p) (hbytes : ∀ k b, path[k]? = some b → s.dataByte (p + k) = b ∧ b ≠ 0)
    (hend : s.dataByte (p + path.length) = 0) (hin : p + path.length < s.dsSize.toNat) :
    s.pathAt w = some path := by
  have hplace : accessAt w 1 s.dsSize.toNat = some p := accessAt_eq_some.2 ⟨hw, by omega⟩
  simp only [State.pathAt, hplace]
  exact readPath_eq_some hbytes hend (by omega)

theorem State.pathAt_of_outside {s : State} {w : Word}
    (h : w.toInt < 0 ∨ s.dsSize.toNat ≤ w.toInt) : s.pathAt w = none := by
  have hplace : accessAt w 1 s.dsSize.toNat = none := accessAt_eq_none.2 (by omega)
  simp only [State.pathAt, hplace]

theorem State.pathAt_of_unterminated {s : State} {w : Word} {p : Nat} (hw : w.toInt = p)
    (h : ∀ j, p ≤ j → j < s.dsSize.toNat → s.dataByte j ≠ 0) : s.pathAt w = none := by
  by_cases hin : p < s.dsSize.toNat
  · have hplace : accessAt w 1 s.dsSize.toNat = some p := accessAt_eq_some.2 ⟨hw, hin⟩
    simp only [State.pathAt, hplace]
    exact readPath_eq_none fun j hlow hhigh => h j hlow (by omega)
  · exact State.pathAt_of_outside (.inr (by omega))

theorem serveOpen_of_no_path {s : State} (hd : 3 ≤ s.depth) (hpath : s.pathAt (s.top 2) = none) :
    serveOpen s = hostFail s := by
  simp only [serveOpen, needSyscall_of_le hd, hpath]

theorem serveOpen_of_no_handle {s : State} {path : List Byte} (hd : 3 ≤ s.depth)
    (hpath : s.pathAt (s.top 2) = some path) (hhandle : answeredHandle s.hostAnswer = none) :
    serveOpen s = hostFail (s.afterCall (.openFile path (s.top 1))) := by
  simp only [serveOpen, needSyscall_of_le hd, hpath, hhandle]

theorem serveOpen_of_handle {s : State} {path : List Byte} {h : Nat} (hd : 3 ≤ s.depth)
    (hpath : s.pathAt (s.top 2) = some path) (hhandle : answeredHandle s.hostAnswer = some h) :
    serveOpen s = push (wrap16 h) ((s.afterCall (.openFile path (s.top 1))).drop 3) := by
  simp only [serveOpen, needSyscall_of_le hd, hpath, hhandle]

/-- Settles O53: the path is found, the host answers a handle, and it is pushed over the three
words. -/
theorem openPushesHandle : Obligations.OpenPushesHandle := by
  intro s p path h hc hd hle hv hp hbytes hend hin hans hh
  have hpath := State.pathAt_of_terminated hp hbytes hend hin
  have hhandle := (congrArg answeredHandle hans).trans (answeredHandle_ok hh)
  obtain ⟨t, hpush, hcall, hdepth, htop, hframe⟩ := push_over_words
    (c := .openFile path (s.top 1)) (k := 3) (by decide) hle (wrap16 h)
  have hexec := (exec_syscall_of_requests hc (by omega) hv).trans
    ((serveOpen_of_handle hd hpath hhandle).trans hpush)
  obtain ⟨hjump, hfree⟩ := straight_of_syscall hexec
  have hword : (wrap16 h).toNat = h :=
    (toNat_wrap16 (Int.ModEq.refl _)).trans (Nat.mod_eq_of_lt hh)
  exact ⟨t, hexec, by omega, htop ▸ hword, hcall, hjump, hfree, hframe⟩

/-- Settles O56: the first two failures leave no path to pass on, the last two no handle to push. -/
theorem openFailuresEndTheRun : Obligations.OpenFailuresEndTheRun := by
  intro s hc hd hv
  have hserve := exec_syscall_of_requests hc (by omega) hv
  refine ⟨fun hout => ?_, fun p hp hno => ?_, fun p path hp hbytes hend hin hfail => ?_⟩
  · exact hserve.trans (serveOpen_of_no_path hd (State.pathAt_of_outside hout))
  · exact hserve.trans (serveOpen_of_no_path hd (State.pathAt_of_unterminated hp hno))
  · have hpath := State.pathAt_of_terminated hp hbytes hend hin
    exact hserve.trans (serveOpen_of_no_handle hd hpath (answeredHandle_eq_none.2 hfail))

end Sys2Proof.Machine

namespace Sys2Proof.Machine

/-! ## The run result

The sign of the integer a run returns (60_exceptions.md R262), one kind of end at a time. Each lemma
takes from the legal table only the sign of its own kind; the other kinds are then excluded, for no
integer has two signs. -/

theorem runResult_eq_none {t : StatusNumbers} {st : Status} :
    runResult t st = none ↔ st = .running := by
  cases st <;> simp [runResult]

theorem runResult_halted_eq_zero {c : Parameters} {r : Int} (hc : LegalParameters c)
    (h : runResult c.result .halted = some r) : r = 0 :=
  (Option.some.inj h).symm.trans hc.halted_zero

theorem runResult_fault_pos {c : Parameters} {d : Cause} {r : Int} (hc : LegalParameters c)
    (h : runResult c.result (.fault d) = some r) : 0 < r :=
  Option.some.inj h ▸ hc.faults_positive d

theorem runResult_hostFault_neg {c : Parameters} {r : Int} (hc : LegalParameters c)
    (h : runResult c.result .hostFault = some r) : r < 0 :=
  Option.some.inj h ▸ hc.hostFault_negative

/-- Settles O60, by how the run ended: the sign of that end is known, and excludes the other two. -/
theorem runResultSignTellsTheEnd : Obligations.RunResultSignTellsTheEnd := by
  intro c st hc
  refine ⟨runResult_eq_none, fun r hr => ?_⟩
  cases st with
  | running => exact nomatch hr
  | halted =>
    have hzero : r = 0 := runResult_halted_eq_zero hc hr
    simp [hzero]
  | fault d =>
    have hpos : 0 < r := runResult_fault_pos hc hr
    simp [hpos, hpos.ne', hpos.le]
  | hostFault =>
    have hneg : r < 0 := runResult_hostFault_neg hc hr
    simp [hneg, hneg.ne, hneg.le]

end Sys2Proof.Machine

namespace Sys2Proof.Machine

/-! ## The loader accepts an image that passes its checks -/

/-- Steps 7 to 9 of R294 accept a body that holds all the code and init-data bytes. -/
theorem loadBody_started {c : Parameters} {h : Header} {body sData sGets : List Byte}
    (hlen : h.csSize.toNat + h.iSize.toNat ≤ body.length) :
    ∃ s, loadBody c h body sData sGets = .started s := by
  have hcode : ¬ body.length < h.csSize.toNat := by omega
  have hinit : ¬ (body.drop h.csSize.toNat).length < h.iSize.toNat := by
    rw [List.length_drop]; omega
  exact ⟨_, (if_neg hcode).trans (if_neg hinit)⟩

/-- Steps 3 to 5 of R294 pass the header they read on to the rest of the loader. -/
theorem loadFields_eq_loadBody {c : Parameters} {big : Bool} {h : Header}
    {c0 c1 d0 d1 i0 i1 r0 r1 e0 e1 : Byte} {body sData sGets : List Byte}
    (hh : h = ⟨big, imageField big c0 c1, imageField big d0 d1, imageField big i0 i1,
      imageField big e0 e1⟩)
    (hds : h.iSize.toNat ≤ h.dsSize.toNat) (hentry : h.entryPc.toNat / 2 < h.csSize.toNat) :
    loadFields c big (c0 :: c1 :: d0 :: d1 :: i0 :: i1 :: r0 :: r1 :: e0 :: e1 :: body)
      sData sGets = loadBody c h body sData sGets := by
  subst hh
  exact (if_neg (Nat.not_lt_of_le hds)).trans (if_neg (Nat.not_le_of_lt hentry))

/-- Step 2 of R294 takes the mode from a legal endian byte. -/
theorem loadEndian_eq_loadFields {c : Parameters} {e : Byte} {rest sData sGets : List Byte}
    (he : e = 0x10 ∨ e = 0x11) :
    loadEndian c (e :: rest) sData sGets = loadFields c (e == 0x11) rest sData sGets := by
  obtain rfl | rfl := he <;> rfl

/-- An image with the magic and a whole header, taken apart field by field (R293). -/
theorem exists_header_bytes {image : List Byte} (hmagic : image.take 4 = imageMagic)
    (hlen : 15 ≤ image.length) :
    ∃ e c0 c1 d0 d1 i0 i1 r0 r1 e0 e1 body, image =
      imageMagic ++ e :: c0 :: c1 :: d0 :: d1 :: i0 :: i1 :: r0 :: r1 :: e0 :: e1 :: body := by
  have hfields : ((image.drop 4).take 11).length = 11 := by
    rw [List.length_take, List.length_drop]; omega
  rw [← List.take_append_drop 4 image, ← List.take_append_drop 11 (image.drop 4), hmagic]
  match (image.drop 4).take 11, hfields with
  | [e, c0, c1, d0, d1, i0, i1, r0, r1, e0, e1], _ =>
    exact ⟨e, c0, c1, d0, d1, i0, i1, r0, r1, e0, e1, _, rfl⟩

/-- Steps 1 to 5 of R294: an image that passes them is left to the steps that read what follows its
header. -/
theorem loadImage_eq_loadBody {c : Parameters} {image sData sGets : List Byte}
    (hmagic : image.take 4 = imageMagic) (hlen : 15 ≤ image.length)
    (he : imageByte image 4 = 0x10 ∨ imageByte image 4 = 0x11)
    (hds : (imageWord image 9).toNat ≤ (imageWord image 7).toNat)
    (hentry : (imageWord image 13).toNat / 2 < (imageWord image 5).toNat) :
    loadImage c image sData sGets =
      loadBody c (imageHeader image) (image.drop 15) sData sGets := by
  obtain ⟨e, c0, c1, d0, d1, i0, i1, r0, r1, e0, e1, body, rfl⟩ := exists_header_bytes hmagic hlen
  rw [loadImage, if_pos hmagic]
  exact (loadEndian_eq_loadFields he).trans (loadFields_eq_loadBody rfl hds hentry)

/-- Settles O58: what the loader can accept, and its steps followed on an image that passes them. -/
theorem loaderAcceptsExactly : Obligations.LoaderAcceptsExactly := by
  intro c image sData sGets
  constructor
  · rintro ⟨s, hs⟩
    obtain ⟨hmagic, he, hds, hentry, hlen, -⟩ := loadImage_cases hs
    exact ⟨hmagic, by omega, he, hds, hentry, hlen⟩
  · rintro ⟨hmagic, hheader, he, hds, hentry, hlen⟩
    have hbody : (imageWord image 5).toNat + (imageWord image 9).toNat ≤
        (image.drop 15).length := by
      rw [List.length_drop]; omega
    rw [loadImage_eq_loadBody hmagic hheader he hds hentry]
    exact loadBody_started hbody

/-! ## The start state has the invariant -/

/-- Two canonical byte spaces, all offsets of one below all offsets of the other, are canonical side
by side. -/
theorem Memory.wf_append {m n : Memory} (hm : Memory.wf m) (hn : Memory.wf n)
    (hlt : ∀ x ∈ m, ∀ y ∈ n, x.1 < y.1) : Memory.wf (m ++ n) := by
  obtain ⟨hmRising, hmNonzero⟩ := hm
  obtain ⟨hnRising, hnNonzero⟩ := hn
  refine ⟨List.pairwise_append.2 ⟨hmRising, hnRising, hlt⟩, fun x hx => ?_⟩
  exact (List.mem_append.1 hx).elim (hmNonzero x) (hnNonzero x)

/-- A start state has the invariant when its code and init-data bytes fit the declared sizes. -/
theorem invariant_startState {c : Parameters} {h : Header} {code init sData sGets : List Byte}
    (hc : LegalParameters c) (hcode : code.length ≤ h.csSize.toNat)
    (hinit : init.length ≤ h.dsSize.toNat) :
    Invariant (startState c h code init sData sGets) where
  depth_le := Nat.zero_le _
  pc_le := by
    have hpc : h.entryPc.toNat < 2 ^ 16 := h.entryPc.isLt
    simp only [startState]
    omega
  icount_le := Nat.zero_le _
  code_wf := Memory.wf_ofBytes _ _
  data_wf := by
    refine Memory.wf_append (Memory.wf_ofBytes _ _) (Memory.wf_ofBytes _ _) fun x hx y hy => ?_
    have hhigh := (Memory.mem_ofBytes hx).2.1
    have hlow := (Memory.mem_ofBytes hy).1
    omega
  stack_wf := List.Pairwise.nil
  code_inside x hx := by
    have hhigh := (Memory.mem_ofBytes hx).2.1
    simp only [startState]
    omega
  data_inside x hx := by
    simp only [startState] at hx ⊢
    obtain hx | hx := List.mem_append.1 hx
    · have hhigh := (Memory.mem_ofBytes hx).2.1
      omega
    · exact (Memory.mem_ofBytes hx).2.1
  stack_inside _ hx := nomatch hx
  params_legal := hc

theorem length_imageCode_le (image : List Byte) :
    (imageCode image).length ≤ (imageWord image 5).toNat := List.length_take_le _ _

/-- Settles O17: the sections of an accepted image fit its sizes, and its entry point is inside its
code, which is therefore not empty. -/
theorem loadedStateIsSound : Obligations.LoadedStateIsSound := by
  intro c image sData sGets s hc hs
  obtain ⟨-, -, hds, hentry, -, rfl⟩ := loadImage_cases hs
  refine ⟨invariant_startState hc (length_imageCode_le image)
    ((length_imageInit_le image).trans hds), rfl, Nat.one_le_of_lt hentry, ?_⟩
  rw [Option.isSome_iff_ne_none, ne_eq, State.fetchNibble_eq_none]
  exact Nat.not_le_of_lt hentry

end Sys2Proof.Machine
